-- ==== Sys2Proof/Word.lean ====
section
/-! DEFINITION. The two word types of the BMH codec core: a byte of MEM and a 32-bit register (R8). -/

namespace Sys2Proof

/-- A byte has 8 bits (R8). -/
abbrev Byte := BitVec 8

/-- Every register is 32 bits wide (R8). -/
abbrev Word := BitVec 32

end Sys2Proof
end

