-- ==== Sys2Proof/Config.lean ====
section
/-! DEFINITION. What an implementation fixes (R7), the values fixed by the architecture (R8, R34), and the values the
spec leaves open, as constants without a body. -/

namespace Sys2Proof

/-- The implementation parameters of R7, with its defaults. They stand in `State`, and no step changes them (log 5). -/
structure Params where
  /-- MEM_SIZE: bytes of data memory. -/
  memSize : Nat := 65536
  /-- BWT_MAX_LEN: the largest block the rotation sorter accepts. -/
  bwtMaxLen : Nat := 999
  /-- BWT_THRESHOLD: read by host software only (R291). -/
  bwtThreshold : Nat := 1000
deriving DecidableEq, Repr

/-- ID reads this constant (R34). -/
def Config.idValue : Word := 0x424D4843#32

/-- VERSION reads this constant: major 0, minor 1 (R34). -/
def Config.versionValue : Word := 0x00000001#32

/-- The sentinel "BWT not applied" (R13). -/
def Config.notApplied : Word := 0xFFFFFFFF#32

/-- The register window has 4096 bytes (R33). -/
def Config.regWindow : Nat := 4096

/-- The n-th free byte: what an aborted command's footprint holds, one draw per byte (R414, U2). Without a body: nothing
can be proved of its value. DESIGN CHOICE, log 4. -/
opaque Config.freeByte : Nat → Byte

/-- REG_BASE is 4 KiB aligned and otherwise open (R7, U5): the number of its 4 KiB page. Log 6. -/
opaque Config.regPage : Nat

/-- MEM_BASE is 4-byte aligned and otherwise open (R7, U5): the number of its 4-byte unit. Log 6. -/
opaque Config.memUnit : Nat

end Sys2Proof
end

