-- ==== Sys2Proof/Syntax.lean ====
section
/-! DEFINITION. The commands (R143), the error codes (R371), the registers (R33), the host's bus transactions (R146) and
the code trees (R16), as data. -/

namespace Sys2Proof

/-- The commands of BMH-CMD version 1, one constructor per row of the opcode map (R143). The command word holds no
register number and no immediate (R141), so no constructor has a field. -/
inductive Instr where
  | nop | bwtFwd | bwtInv | mtfEnc | mtfDec | hufBuild | treeSer | treeDes | entEnc | entDec
deriving DecidableEq, Repr

/-- What a command word decodes to: `Command | BadOpcode` (R144). -/
inductive Decoded where
  | command (i : Instr)
  /-- The word is illegal (R145): rejected under the spec's own name. -/
  | badOpcode
deriving DecidableEq, Repr

/-- The error codes 1 to 10 of R371, in the order of their numbers. -/
inductive ErrCode where
  | badOpcode | lenRange | addrRange | overlap | noTree | idxRange | symAbsent | capOverflow | treeFormat | decodeFail
deriving DecidableEq, Repr

/-- The named registers of the register window (R33). -/
inductive Reg where
  | id | version | ctrl | cmd | status | events | src | len | dst | dstCap | bwtIdx | usize | outLen | outBits
  | leafCount | codeqSym | codeqLen | codeqFreq
  | codeqBits (k : Fin 8)
  | memSizeR | bwtMaxR
deriving DecidableEq, Repr

/-- The direction of a bus transaction (R146). -/
inductive Dir where
  | read | write
deriving DecidableEq, Repr

/-- The two windows the core decodes (R101). -/
inductive Window where
  | reg | mem
deriving DecidableEq, Repr

/-- A host bus transaction (dir, window, offset, width, data) (R146). `width` is any number, because the core answers a
transaction of another width too, with a bus error (R107). -/
structure Txn where
  dir : Dir
  window : Window
  offset : Nat
  width : Nat
  data : Word := 0
deriving DecidableEq, Repr

/-- What the core answers to a host transaction. -/
inductive Reply where
  /-- A read returned this value, zero-extended to 32 bits. -/
  | data (v : Word)
  /-- A write was taken, dropped or ignored: the bus response is the same. -/
  | written
  /-- The bus error response of R107 and R108: no data, nothing changed. -/
  | busError
deriving DecidableEq, Repr

/-- One thing that happens to the core next, in the order in which it happens (R120, R172, R375; log 1). -/
inductive Input where
  /-- A host transaction arrives. -/
  | bus (t : Txn)
  /-- The running command's Complete step happens here, if a command is running (R172). -/
  | complete
  /-- The platform applies power-on reset (R410). -/
  | powerOn
deriving DecidableEq, Repr

/-- A binary code tree (R16). -/
inductive CodeTree where
  | leaf (c : Byte)
  | node (left right : CodeTree)
deriving DecidableEq, Repr

/-- The tree state TREE (R60). -/
inductive TreeState where
  /-- No model: the reset value. -/
  | invalid
  /-- A model of the empty input, with zero leaves. -/
  | empty
  | tree (t : CodeTree)
deriving DecidableEq, Repr

end Sys2Proof
end

