-- ==== Sys2Proof/WellFormed.lean ====
section
/-! DEFINITION. When an instruction, a bus transaction and a set of parameters are well formed. -/

namespace Sys2Proof

/-- A command has no operand (R141), so every command is well formed. -/
abbrev Instr.wf (_ : Instr) : Prop := True

/-- A transaction that gets no bus error: REG accesses are 4 bytes at a multiple of 4 (R108), MEM accesses are 1, 2 or 4
bytes, naturally aligned (R107). -/
abbrev Txn.wf (t : Txn) : Prop :=
  (t.window = .reg ∧ t.width = 4 ∧ t.offset % 4 = 0) ∨
    (t.window = .mem ∧ (t.width = 1 ∨ t.width = 2 ∨ t.width = 4) ∧ t.offset % t.width = 0)

/-- The legal ranges of MEM_SIZE and BWT_MAX_LEN (R7). -/
abbrev Params.legal (p : Params) : Prop :=
  1 ≤ p.memSize ∧ p.memSize ≤ 2 ^ 29 - 1 ∧ p.bwtMaxLen ≤ p.memSize

/-- The parameters serve the reference host pipeline: BWT_THRESHOLD - 1 <= BWT_MAX_LEN (R7, R291). -/
abbrev Params.servesPipeline (p : Params) : Prop := p.bwtThreshold - 1 ≤ p.bwtMaxLen

end Sys2Proof
end

