-- ==== Sys2Proof/Decode.lean ====
section
/-! DEFINITION. The decoder of command words (R144), total on every word, and the encoder written from the opcode map
(R143). -/

namespace Sys2Proof

/-- R144: bits 31:8 must be 0, and bits 7:0 are the opcode; every other word is BadOpcode. -/
def decode (w : Word) : Decoded :=
  if w.extractLsb' 8 24 ≠ 0#24 then .badOpcode
  else
    match (w.extractLsb' 0 8).toNat with
    | 0x00 => .command .nop
    | 0x01 => .command .bwtFwd
    | 0x02 => .command .bwtInv
    | 0x03 => .command .mtfEnc
    | 0x04 => .command .mtfDec
    | 0x05 => .command .hufBuild
    | 0x06 => .command .treeSer
    | 0x07 => .command .treeDes
    | 0x08 => .command .entEnc
    | 0x09 => .command .entDec
    | _ => .badOpcode

/-- The opcode of a command (R143). -/
def Instr.opcode : Instr → Byte
  | .nop => 0x00#8
  | .bwtFwd => 0x01#8
  | .bwtInv => 0x02#8
  | .mtfEnc => 0x03#8
  | .mtfDec => 0x04#8
  | .hufBuild => 0x05#8
  | .treeSer => 0x06#8
  | .treeDes => 0x07#8
  | .entEnc => 0x08#8
  | .entDec => 0x09#8

/-- The command word of a command: RSV = 0 in bits 31:8, OP in bits 7:0 (R140, R143). -/
def encode (i : Instr) : Word := 0#24 ++ i.opcode

/-- The instruction the decoder reads from a table row's bits `w`. A command is one 32-bit word (R140), so bits above the
row's `nbits` are 0, and a number that does not fit the word is refused. -/
def decodeTableWord (nbits w : Nat) : Option Instr :=
  let v := w % 2 ^ nbits
  if v < 2 ^ 32 then
    match decode (BitVec.ofNat 32 v) with
    | .command i => some i
    | .badOpcode => none
  else none

end Sys2Proof
end

