-- ==== Sys2Proof/Machine/Bits.lean ====
section
/-! DEFINITION. Bit streams (R11) and little-endian fields (R103). -/

namespace Sys2Proof.Machine

/-- The number of bytes that hold t bits (R12). -/
def ceil8 (t : Nat) : Nat := (t + 7) / 8

/-- The byte that holds a stream's bits 0 to 7, bit k at bit position 7 - k; positions with no bit hold 0 (R11). -/
def byteOfBits (bits : List Bool) : Byte :=
  BitVec.ofBool (bits.getD 0 false) ++ BitVec.ofBool (bits.getD 1 false) ++ BitVec.ofBool (bits.getD 2 false)
    ++ BitVec.ofBool (bits.getD 3 false) ++ BitVec.ofBool (bits.getD 4 false) ++ BitVec.ofBool (bits.getD 5 false)
    ++ BitVec.ofBool (bits.getD 6 false) ++ BitVec.ofBool (bits.getD 7 false)

/-- `pack(bits)`: MSB-first, the last byte padded with zeros in its low positions (R11, R313). -/
def packBits (bits : List Bool) : List Byte :=
  (List.range (ceil8 bits.length)).map fun k => byteOfBits ((bits.drop (8 * k)).take 8)

/-- Bit k of a stream, read from the byte that holds it: bit position 7 - (k mod 8) (R11). -/
def bitOfByte (b : Byte) (k : Nat) : Bool := b.getLsbD (7 - k % 8)

/-- Bit k of the stream stored in a byte list (R11). -/
def streamBit (bytes : List Byte) (k : Nat) : Bool := bitOfByte (bytes.getD (k / 8) 0#8) k

/-- The first n bits of the stream stored in a byte list. -/
def streamBits (bytes : List Byte) (n : Nat) : List Bool := (List.range n).map (streamBit bytes)

/-- `le32(v)`: least significant byte first (R103, R313). -/
def le32 (v : Word) : List Byte :=
  [v.extractLsb' 0 8, v.extractLsb' 8 8, v.extractLsb' 16 8, v.extractLsb' 24 8]

/-- `le16(v)` of a number below 2^16 (R313). -/
def le16 (v : Nat) : List Byte := [BitVec.ofNat 8 v, BitVec.ofNat 8 (v / 256)]

/-- The number a little-endian byte list stores (R103). -/
def ofLe : List Byte → Nat
  | [] => 0
  | b :: bs => b.toNat + 256 * ofLe bs

end Sys2Proof.Machine
end

