-- ==== Sys2Proof/Machine/State.lean ====
section
/-! DEFINITION. The state of the core as plain data: the architectural tuple of R30, the parameters of R7 and the model's
own three fields; the reset state (R411-R413); what stops a run; what a command answers (R174). -/

namespace Sys2Proof.Machine

/-- MEM (R100): the bytes written since power-on, addresses strictly rising (log 3). -/
abbrev Memory := List Host.Cell

/-- FREQ[0..255] (R61). -/
abbrev FreqTable := Vector Word 256

/-- The state of the machine. Fields narrower than 32 bits are stored only in their own width (R30). -/
structure State where
  /-- The implementation parameters (R7); no step changes them. -/
  params : Params
  /-- CTRL.IRQ_EN (R35). -/
  irqEn : Bool
  /-- CMD: the last accepted word (R36). -/
  cmd : Word
  /-- STATUS.BUSY (R37). -/
  busy : Bool
  /-- STATUS.DONE (R37). -/
  done : Bool
  /-- STATUS.ERR (R37). -/
  err : Bool
  /-- STATUS.ERRCODE (R37). -/
  errCode : Byte
  /-- STATUS.LAST_OP (R37). -/
  lastOp : Byte
  /-- EVENTS.CMD_DONE (R38). -/
  cmdDone : Bool
  /-- EVENTS.WBUSY (R38). -/
  wbusy : Bool
  /-- EVENTS.MBUSY (R38). -/
  mbusy : Bool
  /-- SRC (R39). -/
  src : Word
  /-- LEN (R40). -/
  len : Word
  /-- DST (R41). -/
  dst : Word
  /-- DST_CAP (R42). -/
  dstCap : Word
  /-- BWT_IDX (R43). -/
  bwtIdx : Word
  /-- USIZE (R44). -/
  usize : Word
  /-- OUT_LEN (R45). -/
  outLen : Word
  /-- OUT_BITS (R46). -/
  outBits : Word
  /-- CODEQ_SYM bits 7:0 (R48). -/
  codeqSym : Byte
  /-- TREE (R60). -/
  tree : TreeState
  /-- FREQ (R61). -/
  freq : FreqTable
  /-- MEM (R100). -/
  mem : Memory
  /-- The MODEL's own: what happens to the core next, first to last (log 1). -/
  inbox : List Input
  /-- The MODEL's own: the bus response to the last host transaction (log 9). -/
  reply : Option Reply
  /-- The MODEL's own: how many free bytes have been drawn (log 4). -/
  draws : Nat
deriving DecidableEq, Repr

/-- What stops the machine. -/
inductive Fault where
  /-- Raised by a command or a host read that consults a MEM byte never written since power-on: the treatment R413 and
  R384 recommend. Safe: no value is invented (log 3). -/
  | unwrittenRead (addr : Nat)
  /-- Raised by a transaction that reaches a byte outside its window, which the core does not decode (R101). Safe: what
  the host bus does there is not the core's (log 7). -/
  | outsideWindow (w : Window) (offset : Nat)
deriving DecidableEq, Repr

/-- Why an instruction has no meaning. -/
inductive Refusal where
  /-- Raised by exec's arm of an instruction that has no meaning yet; no arm raises it. Safe. -/
  | notModelled (mnemonic : String)
deriving DecidableEq, Repr

/-- The effects of a successful command (R174): the bytes written from `dst` on, and the updates of registers and tree
state. Values are unbounded numbers; they are reduced when stored (R12). `none` leaves a register as it is. -/
structure Effects where
  dst : Nat := 0
  out : List Byte := []
  bwtIdx : Option Nat := none
  usize : Option Nat := none
  model : Option (TreeState × FreqTable) := none
  outLen : Nat := 0
  outBits : Nat := 0
deriving DecidableEq, Repr

/-- What Exec answers: `Ok(effects)` or `Err(code)` (R174), or that it consults a byte nothing has written (R413). -/
inductive Verdict where
  | ok (e : Effects)
  | err (c : ErrCode)
  | unwritten (addr : Nat)
deriving DecidableEq, Repr

/-- The machine right after power-on reset (R411-R413), with the default parameters of R7. -/
def State.reset : State where
  params := {}
  irqEn := false
  cmd := 0x00000000#32
  busy := false
  done := false
  err := false
  errCode := 0x00#8
  lastOp := 0x00#8
  cmdDone := false
  wbusy := false
  mbusy := false
  src := 0#32
  len := 0#32
  dst := 0#32
  dstCap := 0#32
  bwtIdx := 0xFFFFFFFF#32
  usize := 0#32
  outLen := 0#32
  outBits := 0#32
  codeqSym := 0x00#8
  tree := .invalid
  freq := Vector.replicate 256 0#32
  mem := []
  inbox := []
  reply := none
  draws := 0

end Sys2Proof.Machine
end

