-- ==== Sys2Proof/Machine/Tree.lean ====
section
/-! DEFINITION. What R16, R60, R262 and R311 say of code trees: leaves, shape, the path to a symbol; and when a tree state
is one the core may hold. -/

namespace Sys2Proof

/-- The leaf characters in pre-order, left before right (R16, R311). -/
def CodeTree.leaves : CodeTree → List Byte
  | .leaf c => [c]
  | .node l r => l.leaves ++ r.leaves

/-- The tree-shape bits in pre-order: 1 for an internal node, 0 for a leaf (R311). -/
def CodeTree.shape : CodeTree → List Bool
  | .leaf _ => [false]
  | .node l r => true :: (l.shape ++ r.shape)

/-- `path(T, c)`: 0 for each step into a left child, 1 into a right child (R16, R262); none where no leaf holds c. -/
def CodeTree.pathTo (c : Byte) : CodeTree → Option (List Bool)
  | .leaf d => if d = c then some [] else none
  | .node l r =>
    match l.pathTo c with
    | some p => some (false :: p)
    | none => (r.pathTo c).map (true :: ·)

/-- The child a code bit leads to: 0 moves left, 1 moves right (R345). A leaf has no child and is returned. -/
def CodeTree.child : CodeTree → Bool → CodeTree
  | .leaf c, _ => .leaf c
  | .node l _, false => l
  | .node _ r, true => r

/-- The code tree reached from t along a list of code bits (R345). -/
def CodeTree.follow (t : CodeTree) (bits : List Bool) : CodeTree := bits.foldl CodeTree.child t

/-- `leaves(TREE)`, empty for INVALID and EMPTY (R47, R311). -/
def TreeState.leaves : TreeState → List Byte
  | .tree t => t.leaves
  | _ => []

/-- `shape(TREE)`, empty for INVALID and EMPTY (R311). -/
def TreeState.shape : TreeState → List Bool
  | .tree t => t.shape
  | _ => []

/-- `code(s)`: no symbol has a code when TREE is EMPTY or INVALID (R62, R262). -/
def TreeState.code (ts : TreeState) (s : Byte) : Option (List Bool) :=
  match ts with
  | .tree t => t.pathTo s
  | _ => none

/-- STATUS.TREE_VALID (R37): TREE is not INVALID. -/
def TreeState.valid : TreeState → Bool
  | .invalid => false
  | _ => true

/-- The tree states the core may hold: leaves pairwise distinct (R60). -/
abbrev TreeState.wf (ts : TreeState) : Prop := ts.leaves.Nodup

end Sys2Proof
end

