-- ==== Sys2Proof/Machine/Flags.lean ====
section
/-! DEFINITION. The flags (R63): the STATUS, EVENTS and CTRL words, the numbers of the error codes, the IRQ output, and the
flag updates of acceptance. -/

namespace Sys2Proof

/-- The number of an error code (R371). -/
def ErrCode.number : ErrCode → Byte
  | .badOpcode => 1#8
  | .lenRange => 2#8
  | .addrRange => 3#8
  | .overlap => 4#8
  | .noTree => 5#8
  | .idxRange => 6#8
  | .symAbsent => 7#8
  | .capOverflow => 8#8
  | .treeFormat => 9#8
  | .decodeFail => 10#8

end Sys2Proof

namespace Sys2Proof.Machine

/-- STATUS as the host reads it (R37), bits 31 down to 0: reserved, LAST_OP, ERRCODE, reserved, TREE_VALID, ERR, DONE,
BUSY. -/
def State.statusWord (s : State) : Word :=
  0#8 ++ s.lastOp ++ s.errCode ++ 0#4 ++ BitVec.ofBool s.tree.valid ++ BitVec.ofBool s.err ++ BitVec.ofBool s.done
    ++ BitVec.ofBool s.busy

/-- EVENTS as the host reads it (R38): reserved, MBUSY, WBUSY, CMD_DONE. -/
def State.eventsWord (s : State) : Word :=
  0#29 ++ BitVec.ofBool s.mbusy ++ BitVec.ofBool s.wbusy ++ BitVec.ofBool s.cmdDone

/-- CTRL as the host reads it (R35): SOFT_RESET and the reserved bits read 0. -/
def State.ctrlWord (s : State) : Word := 0#31 ++ BitVec.ofBool s.irqEn

/-- The interrupt output, a level (R57, R380). -/
def State.irq (s : State) : Bool := s.irqEn && s.cmdDone

/-- A host write to EVENTS: a 1 clears its bit, a 0 leaves it (R38). -/
def clearEvents (v : Word) (s : State) : State :=
  { s with
    cmdDone := s.cmdDone && !v.getLsbD 0
    wbusy := s.wbusy && !v.getLsbD 1
    mbusy := s.mbusy && !v.getLsbD 2 }

/-- Acceptance of a command word (R170): nothing else changes, and every word is accepted (R145). -/
def accept (w : Word) (s : State) : State :=
  { s with cmd := w, busy := true, done := false, err := false, errCode := 0#8, lastOp := w.extractLsb' 0 8 }

end Sys2Proof.Machine
end

