-- ==== Sys2Proof/Machine/Ops.lean ====
section
/-! DEFINITION. The operations over MEM, FREQ and the free bytes, and the ONE shared operation by which every command
completes, with success or with an error (R173, R175, R177). The core has no trap (R370) and no trap return (R382). -/

namespace Sys2Proof.Machine

/-- What a byte nothing has written since power-on reads as: no value (R413, log 3). -/
def Memory.unlisted : Option Byte := none

/-- The byte at an address. -/
def Memory.read : Memory → Nat → Option Byte
  | [], _ => Memory.unlisted
  | (k, v) :: rest, a => if k = a then some v else Memory.read rest a

/-- Write one byte, keeping the addresses strictly rising. -/
def Memory.write : Memory → Nat → Byte → Memory
  | [], a, b => [(a, b)]
  | (k, v) :: rest, a, b =>
    if a < k then (a, b) :: (k, v) :: rest
    else if a = k then (a, b) :: rest
    else (k, v) :: Memory.write rest a b

/-- The canonical form of MEM: addresses strictly rising. No entry can equal what an unlisted address reads as, because that
is no value. -/
abbrev Memory.wf (m : Memory) : Prop := m.Pairwise fun c d => c.1 < d.1

/-- `MemRead(addr, n)` (R14), or the first address that nothing has written. -/
def Memory.readBytes (m : Memory) (a : Nat) : Nat → Except Nat (List Byte)
  | 0 => .ok []
  | n + 1 =>
    match m.read a with
    | none => .error a
    | some b =>
      match m.readBytes (a + 1) n with
      | .ok bs => .ok (b :: bs)
      | .error e => .error e

/-- `MemWrite(addr, n, v)` (R14). -/
def Memory.writeBytes (m : Memory) (a : Nat) : List Byte → Memory
  | [] => m
  | b :: bs => (m.write a b).writeBytes (a + 1) bs

/-- n free bytes, from draw number k on: one independent draw per byte (R414, log 4). -/
def freeBytes (k n : Nat) : List Byte := (List.range n).map fun i => Config.freeByte (k + i)

/-- FREQ[s] (R50). -/
def FreqTable.at (f : FreqTable) (s : Byte) : Word := f[s.toNat]

/-- The all-zero FREQ (R318, R412). -/
def FreqTable.zero : FreqTable := Vector.replicate 256 0#32

/-- The table of a list of counts by symbol, each reduced when stored (R12, R61). -/
def FreqTable.ofCounts (count : Byte → Nat) : FreqTable :=
  ⟨((List.range 256).map fun s => BitVec.ofNat 32 (count (BitVec.ofNat 8 s))).toArray, by simp⟩

/-- A register update that an effect may leave out; the value is reduced when stored (R12). -/
def updateWord (old : Word) : Option Nat → Word
  | none => old
  | some v => BitVec.ofNat 32 v

/-- `apply_ok(effects)` (R175). STATUS.ERR and STATUS.ERRCODE keep the 0 that acceptance gave them. -/
def applyOk (e : Effects) (s : State) : State :=
  { s with
    mem := s.mem.writeBytes e.dst e.out
    bwtIdx := updateWord s.bwtIdx e.bwtIdx
    usize := updateWord s.usize e.usize
    tree := (e.model.map Prod.fst).getD s.tree
    freq := (e.model.map Prod.snd).getD s.freq
    outLen := BitVec.ofNat 32 e.outLen
    outBits := BitVec.ofNat 32 e.outBits }

/-- `apply_error(code)` (R177): OUT_LEN, OUT_BITS, STATUS.ERR and STATUS.ERRCODE, and nothing else. -/
def applyError (c : ErrCode) (s : State) : State :=
  { s with outLen := 0#32, outBits := 0#32, err := true, errCode := c.number }

/-- The end of the Complete step (R173): BUSY falls, DONE and EVENTS.CMD_DONE rise. -/
def finish (s : State) : State := { s with busy := false, done := true, cmdDone := true }

/-- The Complete step from what Exec answers (R173): the ONE way in which every command ends. A verdict that consults an
unwritten byte stops the run (R413, log 3). -/
def completeWith (v : Verdict) (s : State) : Host.Outcome State Fault Refusal :=
  match v with
  | .ok e => .next (finish (applyOk e s))
  | .err c => .next (finish (applyError c s))
  | .unwritten a => .fault (.unwrittenRead a)

/-- Go on with n input bytes at a (R14). -/
def Verdict.withInput (m : Memory) (a n : Nat) (k : List Byte → Verdict) : Verdict :=
  match m.readBytes a n with
  | .ok x => k x
  | .error addr => .unwritten addr

end Sys2Proof.Machine
end

