-- ==== Sys2Proof/Machine/Operands.lean ====
section
/-! DEFINITION. Operand assembly (R142), regions (R105, R106), input regions and footprints (R179), and the operand
checks of every command in their order (R180, R373). -/

namespace Sys2Proof.Machine

/-- A region (a, l) is valid: `l = 0 or a + l <= MEM_SIZE`, over unbounded integers (R105). -/
def regionValid (p : Params) (a l : Nat) : Bool := decide (l = 0 ∨ a + l ≤ p.memSize)

/-- Two regions overlap (R106). -/
def regionsOverlap (a la b lb : Nat) : Bool := decide (0 < la ∧ 0 < lb ∧ a < b + lb ∧ b < a + la)

/-- The input region of a command, offset and length (R179). -/
def inputRegion (i : Instr) (s : State) : Nat × Nat :=
  match i with
  | .nop | .treeSer => (0, 0)
  | .bwtFwd | .bwtInv | .mtfEnc | .mtfDec | .hufBuild | .treeDes | .entEnc | .entDec => (s.src.toNat, s.len.toNat)

/-- The footprint of a command: the region it may write (R179). -/
def footprint (i : Instr) (s : State) : Nat × Nat :=
  match i with
  | .nop | .hufBuild | .treeDes => (0, 0)
  | .bwtFwd | .bwtInv | .mtfEnc | .mtfDec => (s.dst.toNat, s.len.toNat)
  | .treeSer | .entEnc | .entDec => (s.dst.toNat, s.dstCap.toNat)

/-- The relation of input region and footprint that a command permits (R179): BWT and MTF identical or not overlapping,
the entropy coder not overlapping. -/
def overlapPermitted (i : Instr) (s : State) : Bool :=
  match i with
  | .bwtFwd | .bwtInv | .mtfEnc | .mtfDec =>
    !regionsOverlap s.src.toNat s.len.toNat s.dst.toNat s.len.toNat || s.src == s.dst
  | .entEnc | .entDec => !regionsOverlap s.src.toNat s.len.toNat s.dst.toNat s.dstCap.toNat
  | .nop | .hufBuild | .treeSer | .treeDes => true

/-- LEN is at most BWT_MAX_LEN (R201, R208). -/
def blockLenOk (s : State) : Bool := decide (s.len.toNat ≤ s.params.bwtMaxLen)

/-- BWT_INV's index check, BWT_IDX read unsigned (R208). -/
def blockIdxOk (s : State) : Bool := !(decide (0 < s.len.toNat ∧ s.len.toNat ≤ s.bwtIdx.toNat))

/-- The input region is valid. -/
def inputOk (i : Instr) (s : State) : Bool := regionValid s.params (inputRegion i s).1 (inputRegion i s).2

/-- The footprint is valid. -/
def footprintOk (i : Instr) (s : State) : Bool := regionValid s.params (footprint i s).1 (footprint i s).2

/-- The checks of a command that read only operands and TREE's state, each with the code it raises when it does not hold,
in the order of R373. The checks on the data (SYM_ABSENT, the capacity of a computed output, TREE_FORMAT, DECODE_FAIL)
follow in each command's own definition. -/
def operandChecks (i : Instr) (s : State) : List (Bool × ErrCode) :=
  match i with
  | .nop => []
  | .bwtFwd =>
    [(blockLenOk s, .lenRange), (inputOk i s, .addrRange), (footprintOk i s, .addrRange), (overlapPermitted i s, .overlap)]
  | .bwtInv =>
    [(blockLenOk s, .lenRange), (inputOk i s, .addrRange), (footprintOk i s, .addrRange), (overlapPermitted i s, .overlap),
      (blockIdxOk s, .idxRange)]
  | .mtfEnc | .mtfDec => [(inputOk i s, .addrRange), (footprintOk i s, .addrRange), (overlapPermitted i s, .overlap)]
  | .hufBuild | .treeDes => [(inputOk i s, .addrRange)]
  | .treeSer => [(footprintOk i s, .addrRange), (s.tree.valid, .noTree)]
  | .entEnc =>
    [(inputOk i s, .addrRange), (footprintOk i s, .addrRange), (overlapPermitted i s, .overlap), (s.tree.valid, .noTree)]
  | .entDec =>
    [(inputOk i s, .addrRange), (footprintOk i s, .addrRange), (overlapPermitted i s, .overlap), (s.tree.valid, .noTree),
      (decide (s.usize.toNat ≤ s.dstCap.toNat), .capOverflow)]

/-- The code of the first check that does not hold (R374). -/
def firstFailing : List (Bool × ErrCode) → Option ErrCode
  | [] => none
  | (holds, c) :: rest => if holds then firstFailing rest else some c

/-- A command's verdict: the first failing operand check (R176, R180), else what the command computes. -/
def checked (i : Instr) (s : State) (k : Verdict) : Verdict :=
  match firstFailing (operandChecks i s) with
  | some c => .err c
  | none => k

end Sys2Proof.Machine
end

