-- ==== Sys2Proof/Machine/Bwt.lean ====
section
/-! DEFINITION. BWT_FWD and BWT_INV: the cyclic-rotation sorter and the matrix inverse (R200-R212). -/

namespace Sys2Proof.Machine

/-- Lexicographic order on byte lists, bytes as unsigned numbers (R15, R203): xs comes before ys or equals it. -/
def bytesLe : List Byte → List Byte → Bool
  | [], _ => true
  | _ :: _, [] => false
  | x :: xs, y :: ys => decide (x.toNat < y.toNat) || (decide (x.toNat = y.toNat) && bytesLe xs ys)

/-- Rotation i of x: the bytes `x[(i + k) mod n]` for k in 0..n-1 (R202). -/
def blockRotation (x : List Byte) (i : Nat) : List Byte :=
  (List.range x.length).map fun k => x.getD ((i + k) % x.length) 0#8

/-- The rotation order (R203): `(rot(x,i), i) <= (rot(x,j), j)`. -/
def rotationLe (x : List Byte) (i j : Nat) : Bool :=
  bytesLe (blockRotation x i) (blockRotation x j) && (!bytesLe (blockRotation x j) (blockRotation x i) || decide (i ≤ j))

/-- The sorted rotations by their start indices: the list p of R204. -/
def sortedRotations (x : List Byte) : List Nat :=
  (List.range x.length).insertionSort fun i j => rotationLe x i j = true

/-- The last byte of each sorted rotation: the list y of R204. -/
def bwtLastColumn (x : List Byte) : List Byte :=
  (sortedRotations x).map fun i => x.getD ((i + x.length - 1) % x.length) 0#8

/-- The rank of the original: the k with p[k] = 0 (R204), and 0 for the empty block (R205). -/
def bwtPrimaryIndex (x : List Byte) : Nat := (sortedRotations x).idxOf 0

/-- BWT_FWD's verdict (R201, R204-R206). -/
def bwtFwdVerdict (s : State) : Verdict :=
  checked .bwtFwd s <|
    .withInput s.mem s.src.toNat s.len.toNat fun x =>
      .ok { dst := s.dst.toNat, out := bwtLastColumn x, bwtIdx := some (bwtPrimaryIndex x), outLen := x.length, outBits := 0 }

/-- BWT_FWD (OP 0x01, R200). -/
def execBwtFwd (s : State) : Host.Outcome State Fault Refusal := completeWith (bwtFwdVerdict s) s

/-- One round of the matrix algorithm: prepend y as a new left column and sort the rows (R209). -/
def matrixRound (y : List Byte) (rows : List (List Byte)) : List (List Byte) :=
  (List.zipWith List.cons y rows).insertionSort fun a b => bytesLe a b = true

/-- The matrix after r rounds, from n empty rows (R209). -/
def bwtMatrix (y : List Byte) : Nat → List (List Byte)
  | 0 => List.replicate y.length []
  | r + 1 => matrixRound y (bwtMatrix y r)

/-- Row idx of the matrix after n rounds (R209), and nothing for the empty block. -/
def bwtInverse (y : List Byte) (idx : Nat) : List Byte := (bwtMatrix y y.length).getD idx []

/-- The positions of y stably sorted by their byte: the list s of the closed form (R210). -/
def stablePositions (y : List Byte) : List Nat :=
  (List.range y.length).insertionSort fun i j => (y.getD i 0#8).toNat ≤ (y.getD j 0#8).toNat

/-- The walk of the closed form (R210): k more bytes from position j. -/
def closedWalk (y : List Byte) (s : List Nat) : Nat → Nat → List Byte
  | 0, _ => []
  | k + 1, j => y.getD (s.getD j 0) 0#8 :: closedWalk y s k (s.getD j 0)

/-- The equivalent closed form of the inverse (R210). -/
def bwtInverseClosed (y : List Byte) (idx : Nat) : List Byte := closedWalk y (stablePositions y) y.length idx

/-- BWT_INV's verdict (R208, R209, R211, R212). -/
def bwtInvVerdict (s : State) : Verdict :=
  checked .bwtInv s <|
    .withInput s.mem s.src.toNat s.len.toNat fun y =>
      .ok { dst := s.dst.toNat, out := bwtInverse y s.bwtIdx.toNat, outLen := y.length, outBits := 0 }

/-- BWT_INV (OP 0x02, R208). -/
def execBwtInv (s : State) : Host.Outcome State Fault Refusal := completeWith (bwtInvVerdict s) s

end Sys2Proof.Machine
end

