-- ==== Sys2Proof/Machine/Entropy.lean ====
section
/-! DEFINITION. ENT_ENC and ENT_DEC: the bit shifter and the tree walker (R340-R348). -/

namespace Sys2Proof.Machine

/-- The codes of the bytes, one after the other (R341); none where a byte has no code. -/
def encodeBits (ts : TreeState) : List Byte → Option (List Bool)
  | [] => some []
  | x :: xs =>
    match ts.code x, encodeBits ts xs with
    | some c, some bits => some (c ++ bits)
    | _, _ => none

/-- ENT_ENC's verdict (R340-R343). With EMPTY and LEN > 0 the answer is SYM_ABSENT whatever the bytes are, and none is read
(R340; DEDUCED, log 12). -/
def entEncVerdict (s : State) : Verdict :=
  checked .entEnc s <|
    if s.tree = .empty ∧ 0 < s.len.toNat then .err .symAbsent
    else
      .withInput s.mem s.src.toNat s.len.toNat fun x =>
        match encodeBits s.tree x with
        | none => .err .symAbsent
        | some bits =>
          if ceil8 bits.length ≤ s.dstCap.toNat then
            .ok { dst := s.dst.toNat, out := packBits bits, outLen := ceil8 bits.length, outBits := bits.length }
          else .err .capOverflow

/-- ENT_ENC (OP 0x08, R340). -/
def execEntEnc (s : State) : Host.Outcome State Fault Refusal := completeWith (entEncVerdict s) s

/-- What the tree walker ends with. -/
inductive Walk where
  /-- All symbols emitted: the bytes, and the position of the next stream bit. -/
  | done (out : List Byte) (pos : Nat)
  /-- The stream is exhausted before the last symbol. -/
  | exhausted
  /-- The walk reads a bit of a byte that nothing has written. -/
  | unwritten (addr : Nat)
deriving DecidableEq, Repr

/-- The walk with one more symbol in front. -/
def Walk.emit (c : Byte) : Walk → Walk
  | .done out pos => .done (c :: out) pos
  | w => w

/-- The tree walker (R345) at `node` and stream position `pos`, with `fuel` stream bits and `todo` symbols to go. Stream bit
k is read from the byte that holds it, and a bit that is not consumed is not read (log 11). -/
def walkTree (root : CodeTree) (m : Memory) (base : Nat) : (fuel : Nat) → (node : CodeTree) → (pos todo : Nat) → Walk
  | _, _, pos, 0 => .done [] pos
  | 0, _, _, _ + 1 => .exhausted
  | fuel + 1, node, pos, todo + 1 =>
    match m.read (base + pos / 8) with
    | none => .unwritten (base + pos / 8)
    | some b =>
      match node.child (bitOfByte b pos) with
      | .leaf c => (walkTree root m base fuel root (pos + 1) todo).emit c
      | .node l r => walkTree root m base fuel (.node l r) (pos + 1) (todo + 1)

/-- What ENT_DEC decodes (R344-R347): EMPTY has no symbols to emit, a single leaf is emitted USIZE times and reads no bit,
any other tree is walked from its root. INVALID does not get here: NO_TREE comes first. -/
def entDecWalk (s : State) : Walk :=
  match s.tree with
  | .invalid => .exhausted
  | .empty => if s.usize.toNat = 0 then .done [] 0 else .exhausted
  | .tree (.leaf c) => .done (List.replicate s.usize.toNat c) 0
  | .tree (.node l r) => walkTree (.node l r) s.mem s.src.toNat (8 * s.len.toNat) (.node l r) 0 s.usize.toNat

/-- ENT_DEC's verdict (R344-R348). -/
def entDecVerdict (s : State) : Verdict :=
  checked .entDec s <|
    match entDecWalk s with
    | .done out pos => .ok { dst := s.dst.toNat, out := out, outLen := s.usize.toNat, outBits := pos }
    | .exhausted => .err .decodeFail
    | .unwritten addr => .unwritten addr

/-- ENT_DEC (OP 0x09, R344). -/
def execEntDec (s : State) : Host.Outcome State Fault Refusal := completeWith (entDecVerdict s) s

end Sys2Proof.Machine
end

