-- ==== Sys2Proof/Machine/Huffman.lean ====
section
/-! DEFINITION. HUF_BUILD: the iterative two-way merge (R250-R260). -/

namespace Sys2Proof.Machine

/-- An occurrence entry `(count, symbols, tree)` (R252). -/
structure Occurrence where
  count : Nat
  symbols : List Byte
  tree : CodeTree
deriving DecidableEq, Repr

/-- The 256 byte values in ascending order. -/
def allBytes : List Byte := (List.range 256).map (BitVec.ofNat 8)

/-- F[s]: how often s occurs in x (R251). -/
def occurrences (x : List Byte) (s : Byte) : Nat := x.count s

/-- The initial entries, one per byte value that occurs, in ascending order (R252). -/
def initialEntries (x : List Byte) : List Occurrence :=
  (allBytes.filter fun s => decide (0 < occurrences x s)).map fun s => ⟨occurrences x s, [s], .leaf s⟩

/-- The index, counted from i, that minimises (count, index) over the entries other than `skip`, starting from the best
index and count so far (R253). -/
def leastFrom (skip : Option Nat) : List Occurrence → Nat → Option (Nat × Nat) → Option (Nat × Nat)
  | [], _, best => best
  | e :: rest, i, best =>
    leastFrom skip rest (i + 1) <|
      if some i = skip then best
      else
        match best with
        | none => some (i, e.count)
        | some (j, c) => if e.count < c then some (i, e.count) else some (j, c)

/-- `argmin (E[i].count, i)` over the i other than `skip` (R253); 0 where there is none. -/
def leastIndex (skip : Option Nat) (E : List Occurrence) : Nat := ((leastFrom skip E 0 none).map Prod.fst).getD 0

/-- The merged entry: the first selected is the left child (R254). -/
def mergedEntry (a b : Occurrence) : Occurrence := ⟨a.count + b.count, a.symbols ++ b.symbols, .node a.tree b.tree⟩

/-- One merge: select a and b, store the merged entry at a, move the last entry to b and drop it (R253-R255). -/
def mergeOnce (E : List Occurrence) : List Occurrence :=
  let a := leastIndex none E
  let b := leastIndex (some a) E
  match E[a]?, E[b]? with
  | some ea, some eb =>
    let E' := E.set a (mergedEntry ea eb)
    match E'[E'.length - 1]? with
    | some last => (E'.set b last).dropLast
    | none => E'
  | _, _ => E

/-- Merge while more than one entry is live, at most k times (R256). -/
def mergeAll : Nat → List Occurrence → List Occurrence
  | 0, E => E
  | k + 1, E => if 1 < E.length then mergeAll k (mergeOnce E) else E

/-- T' of R256: EMPTY with no entry (R258), else the tree of the entry that remains. -/
def huffmanModel (x : List Byte) : TreeState :=
  match mergeAll (initialEntries x).length (initialEntries x) with
  | [] => .empty
  | e :: _ => .tree e.tree

/-- The length of code(s), 0 for a symbol without one. -/
def codeLength (ts : TreeState) (s : Byte) : Nat := ((ts.code s).getD []).length

/-- `Tbits`: the number of bits ENT_ENC writes for the same input (R260). -/
def predictedBits (ts : TreeState) (x : List Byte) : Nat :=
  (allBytes.map fun s => occurrences x s * codeLength ts s).sum

/-- HUF_BUILD's verdict (R250, R256, R259). -/
def hufBuildVerdict (s : State) : Verdict :=
  checked .hufBuild s <|
    .withInput s.mem s.src.toNat s.len.toNat fun x =>
      .ok
        { usize := some x.length
          model := some (huffmanModel x, FreqTable.ofCounts (occurrences x))
          outLen := ceil8 (predictedBits (huffmanModel x) x)
          outBits := predictedBits (huffmanModel x) x }

/-- HUF_BUILD (OP 0x05, R250). -/
def execHufBuild (s : State) : Host.Outcome State Fault Refusal := completeWith (hufBuildVerdict s) s

end Sys2Proof.Machine
end

