-- ==== Sys2Proof/Machine/Mtf.lean ====
section
/-! DEFINITION. MTF_ENC and MTF_DEC (R230-R232). -/

namespace Sys2Proof.Machine

/-- The identity permutation of the 256 byte values (R230). -/
def mtfIdentity : List Byte := (List.range 256).map (BitVec.ofNat 8)

/-- `move_to_front(P, k)`: the entry at k goes to position 0, the entries before it shift up by one (R230). -/
def moveToFront (P : List Byte) (k : Nat) : List Byte := P.getD k 0#8 :: P.eraseIdx k

/-- The encoder's loop from permutation P (R231). -/
def mtfEncodeFrom (P : List Byte) : List Byte → List Byte
  | [] => []
  | x :: xs => BitVec.ofNat 8 (P.idxOf x) :: mtfEncodeFrom (moveToFront P (P.idxOf x)) xs

/-- The decoder's loop from permutation P (R232). -/
def mtfDecodeFrom (P : List Byte) : List Byte → List Byte
  | [] => []
  | k :: ks => P.getD k.toNat 0#8 :: mtfDecodeFrom (moveToFront P k.toNat) ks

/-- The bytes MTF_ENC writes: every command starts from the identity (R231). -/
def mtfEncode (x : List Byte) : List Byte := mtfEncodeFrom mtfIdentity x

/-- The bytes MTF_DEC writes (R232). -/
def mtfDecode (x : List Byte) : List Byte := mtfDecodeFrom mtfIdentity x

/-- MTF_ENC's verdict (R231). -/
def mtfEncVerdict (s : State) : Verdict :=
  checked .mtfEnc s <|
    .withInput s.mem s.src.toNat s.len.toNat fun x =>
      .ok { dst := s.dst.toNat, out := mtfEncode x, outLen := x.length, outBits := 0 }

/-- MTF_ENC (OP 0x03, R231). -/
def execMtfEnc (s : State) : Host.Outcome State Fault Refusal := completeWith (mtfEncVerdict s) s

/-- MTF_DEC's verdict (R232). -/
def mtfDecVerdict (s : State) : Verdict :=
  checked .mtfDec s <|
    .withInput s.mem s.src.toNat s.len.toNat fun x =>
      .ok { dst := s.dst.toNat, out := mtfDecode x, outLen := x.length, outBits := 0 }

/-- MTF_DEC (OP 0x04, R232). -/
def execMtfDec (s : State) : Host.Outcome State Fault Refusal := completeWith (mtfDecVerdict s) s

end Sys2Proof.Machine
end

