-- ==== Sys2Proof/Machine/Nop.lean ====
section
/-! DEFINITION. NOP (R181). -/

namespace Sys2Proof.Machine

/-- NOP has no checks and sets OUT_LEN and OUT_BITS to 0 (R181). -/
def nopVerdict : Verdict := .ok { outLen := 0, outBits := 0 }

/-- NOP (OP 0x00, R181). -/
def execNop (s : State) : Host.Outcome State Fault Refusal := completeWith nopVerdict s

end Sys2Proof.Machine
end

