-- ==== Sys2Proof/Machine/TreeCodec.lean ====
section
/-! DEFINITION. TREE_SER and TREE_DES: the side channel (R310-R318). -/

namespace Sys2Proof.Machine

/-- The size S of the side channel of L leaves and B shape bits (R310). -/
def sideChannelSize (L B : Nat) : Nat := 12 + L + ceil8 B

/-- The side channel of a tree state, primary index and uncompressed size (R310, R313). -/
def sideChannel (ts : TreeState) (idx usize : Word) : List Byte :=
  le32 idx ++ le32 usize ++ le16 ts.leaves.length ++ le16 ts.shape.length ++ ts.leaves ++ packBits ts.shape

/-- TREE_SER's verdict (R312, R313). -/
def treeSerVerdict (s : State) : Verdict :=
  checked .treeSer s <|
    let size := sideChannelSize s.tree.leaves.length s.tree.shape.length
    if size ≤ s.dstCap.toNat then
      .ok
        { dst := s.dst.toNat, out := sideChannel s.tree s.bwtIdx s.usize, outLen := size, outBits := s.tree.shape.length }
    else .err .capOverflow

/-- TREE_SER (OP 0x06, R312). -/
def execTreeSer (s : State) : Host.Outcome State Fault Refusal := completeWith (treeSerVerdict s) s

/-- `parse()` of R317 over the shape bits and leaf characters that remain. It fails when the bits or the characters run
out. Each call consumes a bit, so fuel above the number of bits never runs out first. -/
def parseShape : Nat → List Bool → List Byte → Option (CodeTree × List Bool × List Byte)
  | 0, _, _ => none
  | _ + 1, [], _ => none
  | _ + 1, false :: _, [] => none
  | _ + 1, false :: bits, c :: lv => some (.leaf c, bits, lv)
  | fuel + 1, true :: bits, lv =>
    match parseShape fuel bits lv with
    | none => none
    | some (l, bits', lv') =>
      match parseShape fuel bits' lv' with
      | none => none
      | some (r, bits'', lv'') => some (.node l r, bits'', lv'')

/-- The tree of all the shape bits and all the leaf characters (R317); none where the parse fails or leaves some over. -/
def treeOfShape (bits : List Bool) (lv : List Byte) : Option CodeTree :=
  match parseShape (bits.length + 1) bits lv with
  | some (t, [], []) => some t
  | _ => none

/-- The header's fields: PRIMARY_INDEX, USIZE, LEAF_COUNT, SHAPE_BITS (R310, R316). -/
def headerFields (h : List Byte) : Nat × Nat × Nat × Nat :=
  (ofLe (h.take 4), ofLe ((h.drop 4).take 4), ofLe ((h.drop 8).take 2), ofLe ((h.drop 10).take 2))

/-- The leaf count and shape length agree: B = 0 for no leaf, else B = 2L - 1, and L <= 256 (R316). -/
def countsAgree (L B : Nat) : Bool := decide (L ≤ 256) && (if L = 0 then decide (B = 0) else decide (B + 1 = 2 * L))

/-- The model that the leaf bytes and shape bytes stand for (R316, R317); none where a format check fails. -/
def modelOfBody (L B : Nat) (body : List Byte) : Option TreeState :=
  if ¬ (body.take L).Nodup then none
  else if L = 0 then some .empty
  else (treeOfShape (streamBits (body.drop L) B) (body.take L)).map .tree

/-- TREE_DES's verdict (R315-R318). Only the bytes that the checks consult are read: the header once LEN >= 12, the leaf and
shape bytes once LEN >= need; what follows them is ignored (R316; DEDUCED, log 10). -/
def treeDesVerdict (s : State) : Verdict :=
  checked .treeDes s <|
    if s.len.toNat < 12 then .err .treeFormat
    else
      .withInput s.mem s.src.toNat 12 fun h =>
        let (idx, usize, L, B) := headerFields h
        let need := sideChannelSize L B
        if !countsAgree L B then .err .treeFormat
        else if s.len.toNat < need then .err .treeFormat
        else
          .withInput s.mem (s.src.toNat + 12) (L + ceil8 B) fun body =>
            match modelOfBody L B body with
            | none => .err .treeFormat
            | some ts =>
              .ok
                { bwtIdx := some idx, usize := some usize, model := some (ts, FreqTable.zero), outLen := need, outBits := B }

/-- TREE_DES (OP 0x07, R315). -/
def execTreeDes (s : State) : Host.Outcome State Fault Refusal := completeWith (treeDesVerdict s) s

end Sys2Proof.Machine
end

