-- ==== Sys2Proof/Machine/Dispatch.lean ====
section
/-! DEFINITION. The Complete step of each command (R173, R174): one arm per command. -/

namespace Sys2Proof.Machine

def exec (i : Instr) (s : State) : Host.Outcome State Fault Refusal :=
  match i with
  | .nop => Sys2Proof.Machine.execNop s
  | .bwtFwd => Sys2Proof.Machine.execBwtFwd s
  | .bwtInv => Sys2Proof.Machine.execBwtInv s
  | .mtfEnc => Sys2Proof.Machine.execMtfEnc s
  | .mtfDec => Sys2Proof.Machine.execMtfDec s
  | .hufBuild => Sys2Proof.Machine.execHufBuild s
  | .treeSer => Sys2Proof.Machine.execTreeSer s
  | .treeDes => Sys2Proof.Machine.execTreeDes s
  | .entEnc => Sys2Proof.Machine.execEntEnc s
  | .entDec => Sys2Proof.Machine.execEntDec s

end Sys2Proof.Machine
end

