-- ==== Sys2Proof/Machine/Complete.lean ====
section
/-! DEFINITION. The core's one step, Complete (R172, R173). -/

namespace Sys2Proof.Machine

/-- Complete: enabled exactly when STATUS.BUSY = 1 (R172), it runs the command that CMD decodes to, and an illegal word
completes with BAD_OPCODE (R145, R174). With BUSY = 0 the core is idle and keeps all state (R395; log 16). -/
def completeStep (s : State) : Host.Outcome State Fault Refusal :=
  if s.busy then
    match decode s.cmd with
    | .command i => exec i s
    | .badOpcode => completeWith (.err .badOpcode) s
  else .next s

end Sys2Proof.Machine
end

