-- ==== Sys2Proof/Machine/Reset.lean ====
section
/-! DEFINITION. Power-on reset and soft reset (R410-R414). -/

namespace Sys2Proof.Machine

/-- The part of a region inside MEM: offsets at or beyond MEM_SIZE are skipped (R414). -/
def clipRegion (p : Params) (r : Nat × Nat) : Nat × Nat := (r.1, min (r.1 + r.2) p.memSize - r.1)

/-- The bytes a soft reset leaves open: the footprint of the running command with the operands as they stand, inside MEM;
none when no command runs, and none for an illegal word (R414). -/
def abortRegion (s : State) : Nat × Nat :=
  if s.busy then
    match decode s.cmd with
    | .command i => clipRegion s.params (footprint i s)
    | .badOpcode => (0, 0)
  else (0, 0)

/-- Every stored register at the value of R411, TREE INVALID, FREQ zero (R412), MEM as given. The parameters, what the
outside world sends next, the last bus response and the count of draws are not the core's registers and stay. -/
def resetRegisters (m : Memory) (s : State) : State :=
  { State.reset with params := s.params, mem := m, inbox := s.inbox, reply := s.reply, draws := s.draws }

/-- Soft reset as one step (R414): the aborted footprint takes free bytes, one draw each (log 4); no completion happens. -/
def softReset (s : State) : State :=
  let r := abortRegion s
  resetRegisters (s.mem.writeBytes r.1 (freeBytes s.draws r.2)) { s with draws := s.draws + r.2 }

/-- Power-on reset as one step (R410-R413, U8): MEM holds nothing that was written, and no bus response is outstanding
(log 13). -/
def powerOnReset (s : State) : State := resetRegisters [] { s with reply := none }

end Sys2Proof.Machine
end

