-- ==== Sys2Proof/Machine/Host.lean ====
section
/-! DEFINITION. The host interface: the register map (R33), register reads and writes (R34-R56), MEM accesses and the
lockout (R103, R107, R112), and the answer to any bus transaction (R146). -/

namespace Sys2Proof

/-- The byte offset of a register in the register window (R33). -/
def Reg.offset : Reg → Nat
  | .id => 0x000
  | .version => 0x004
  | .ctrl => 0x008
  | .cmd => 0x00C
  | .status => 0x010
  | .events => 0x014
  | .src => 0x018
  | .len => 0x01C
  | .dst => 0x020
  | .dstCap => 0x024
  | .bwtIdx => 0x028
  | .usize => 0x02C
  | .outLen => 0x030
  | .outBits => 0x034
  | .leafCount => 0x038
  | .codeqSym => 0x03C
  | .codeqLen => 0x040
  | .codeqFreq => 0x044
  | .codeqBits k => 0x048 + 4 * k.val
  | .memSizeR => 0x068
  | .bwtMaxR => 0x06C

/-- The registers of the map, in the order of their offsets (R33). -/
def Reg.all : List Reg :=
  [.id, .version, .ctrl, .cmd, .status, .events, .src, .len, .dst, .dstCap, .bwtIdx, .usize, .outLen, .outBits,
    .leafCount, .codeqSym, .codeqLen, .codeqFreq]
    ++ (List.finRange 8).map .codeqBits ++ [.memSizeR, .bwtMaxR]

/-- The register at an offset; none at a reserved offset (R53). -/
def Reg.ofOffset (off : Nat) : Option Reg := Reg.all.find? fun r => r.offset = off

end Sys2Proof

namespace Sys2Proof.Machine

/-- The size of a window in bytes (R33, R101). -/
def windowSize (p : Params) : Window → Nat
  | .reg => Config.regWindow
  | .mem => p.memSize

/-- The host bus address that reaches an offset of a window (R101): REG_BASE or MEM_BASE plus the offset (log 6). -/
def hostAddress : Window → Nat → Nat
  | .reg, off => 4096 * Config.regPage + off
  | .mem, off => 4 * Config.memUnit + off

/-- CODEQ_LEN (R49): PRESENT in bit 31, the code's length in bits 7:0. -/
def codeqLenWord (s : State) : Word :=
  match s.tree.code s.codeqSym with
  | some p => 1#1 ++ 0#23 ++ BitVec.ofNat 8 p.length
  | none => 0#32

/-- CODEQ_BITSk (R51): code bits 32k to 32k+31, the first in bit 31; positions past the code read 0. -/
def codeqBitsWord (s : State) (k : Nat) : Word :=
  let p := ((s.tree.code s.codeqSym).getD []).drop (32 * k)
  byteOfBits p ++ byteOfBits (p.drop 8) ++ byteOfBits (p.drop 16) ++ byteOfBits (p.drop 24)

/-- What a register reads as (R34-R52); no read has a side effect (R56). -/
def regRead (s : State) : Reg → Word
  | .id => Config.idValue
  | .version => Config.versionValue
  | .ctrl => s.ctrlWord
  | .cmd => s.cmd
  | .status => s.statusWord
  | .events => s.eventsWord
  | .src => s.src
  | .len => s.len
  | .dst => s.dst
  | .dstCap => s.dstCap
  | .bwtIdx => s.bwtIdx
  | .usize => s.usize
  | .outLen => s.outLen
  | .outBits => s.outBits
  | .leafCount => 0#23 ++ BitVec.ofNat 9 s.tree.leaves.length
  | .codeqSym => 0#24 ++ s.codeqSym
  | .codeqLen => codeqLenWord s
  | .codeqFreq => s.freq.at s.codeqSym
  | .codeqBits k => codeqBitsWord s k.val
  | .memSizeR => BitVec.ofNat 32 s.params.memSize
  | .bwtMaxR => BitVec.ofNat 32 s.params.bwtMaxLen

/-- A register write the lockout drops: EVENTS.WBUSY rises (R55, R171). -/
def refuseWrite (s : State) : State := { s with wbusy := true }

/-- A write that only an idle core takes (R55): `update` while BUSY = 0, else refused. -/
def whenIdle (update : State) (s : State) : State := if s.busy then refuseWrite s else update

/-- A host write to CTRL (R35): bit 1 = 1 is a soft reset, and otherwise bit 0 goes to IRQ_EN. -/
def writeCtrl (v : Word) (s : State) : State := if v.getLsbD 1 then softReset s else { s with irqEn := v.getLsbD 0 }

/-- A host write of v to a register (R35-R55): CTRL and EVENTS at any time; CMD, the operand registers and CODEQ_SYM while
idle; a read-only register never, and while BUSY = 1 the attempt is recorded. -/
def regWrite (r : Reg) (v : Word) (s : State) : State :=
  match r with
  | .ctrl => writeCtrl v s
  | .events => clearEvents v s
  | .cmd => whenIdle (accept v s) s
  | .src => whenIdle { s with src := v } s
  | .len => whenIdle { s with len := v } s
  | .dst => whenIdle { s with dst := v } s
  | .dstCap => whenIdle { s with dstCap := v } s
  | .bwtIdx => whenIdle { s with bwtIdx := v } s
  | .usize => whenIdle { s with usize := v } s
  | .codeqSym => whenIdle { s with codeqSym := v.extractLsb' 0 8 } s
  | .id | .version | .status | .outLen | .outBits | .leafCount | .codeqLen | .codeqFreq | .codeqBits _ | .memSizeR
  | .bwtMaxR => whenIdle s s

/-- The core's answer to the host. -/
def answer (r : Reply) (s : State) : State := { s with reply := some r }

/-- A well-formed register transaction (R108). A reserved offset reads 0, and a write there has no effect at all (R53). -/
def regAccess (t : Txn) (s : State) : State :=
  match t.dir, Reg.ofOffset t.offset with
  | .read, some r => answer (.data (regRead s r)) s
  | .read, none => answer (.data 0#32) s
  | .write, some r => answer .written (regWrite r t.data s)
  | .write, none => answer .written s

/-- A well-formed MEM transaction inside the window: refused while BUSY = 1 (R112), else little-endian (R103). Data above
the width is no part of the transaction (DEDUCED, log 15). -/
def memAccess (t : Txn) (s : State) : Host.Outcome State Fault Refusal :=
  match t.dir with
  | .read =>
    if s.busy then .next (answer (.data 0#32) { s with mbusy := true })
    else
      match s.mem.readBytes t.offset t.width with
      | .ok bytes => .next (answer (.data (BitVec.ofNat 32 (ofLe bytes))) s)
      | .error addr => .fault (.unwrittenRead addr)
  | .write =>
    if s.busy then .next (answer .written { s with mbusy := true })
    else .next (answer .written { s with mem := s.mem.writeBytes t.offset ((le32 t.data).take t.width) })

/-- Any host transaction (R146). Outside its window the core decodes nothing (R101, log 7); a misaligned or wrongly sized
access gets a bus error and nothing changes, BUSY or not (R107, R108; DEDUCED, log 8). -/
def hostAccess (t : Txn) (s : State) : Host.Outcome State Fault Refusal :=
  if windowSize s.params t.window ≤ t.offset then .fault (.outsideWindow t.window t.offset)
  else if ¬ t.wf then .next (answer .busError s)
  else
    match t.window with
    | .reg => .next (regAccess t s)
    | .mem =>
      if s.params.memSize < t.offset + t.width then .fault (.outsideWindow .mem s.params.memSize)
      else memAccess t s

end Sys2Proof.Machine
end

