-- ==== Sys2Proof/Machine/Events.lean ====
section
/-! DEFINITION. What the machine does next: the first input, or the Complete step when none is left; and how a command word
comes to be the running command. -/

namespace Sys2Proof.Machine

/-- One input happens (log 1). -/
def deliver (i : Input) (s : State) : Host.Outcome State Fault Refusal :=
  match i with
  | .bus t => hostAccess t s
  | .complete => completeStep s
  | .powerOn => .next (powerOnReset s)

/-- The next step of the machine: the first of the inbox; with an empty inbox the Complete step, which R431 says must come
(log 1). -/
def advance (s : State) : Host.Outcome State Fault Refusal :=
  match s.inbox with
  | [] => completeStep s
  | i :: rest => deliver i { s with inbox := rest }

/-- The inbox by which the Complete step is the very next step. -/
def completeFirst : List Input → List Input
  | [] => []
  | i :: rest => .complete :: i :: rest

/-- The state in which the word w has just been accepted (R170) and the Complete step comes next (log 2). -/
def fetchReady (w : Word) (s : State) : State :=
  let t := accept w s
  { t with inbox := completeFirst s.inbox }

end Sys2Proof.Machine
end

