-- ==== Sys2Proof/Machine/Step.lean ====
section
/-! DEFINITION. The step function, and the placing of a command word where the next step runs it. -/

namespace Sys2Proof.Machine

/-- One step of the machine. -/
def step (s : State) : Host.Outcome State Fault Refusal := advance s

/-- s with the table row's word accepted into CMD, so that the very next step runs it (log 2). -/
def State.withFetchWord (s : State) (nbits w : Nat) : State := fetchReady (BitVec.ofNat 32 (w % 2 ^ nbits)) s

end Sys2Proof.Machine
end

