-- ==== Sys2Proof/Machine/HostAsm.lean ====
section
/-! DEFINITION. The host assembly notation (R147, R148) as functions to inputs, and the reference host sequences (R291-R295)
when no check is taken. They add no behaviour to the core; host control flow (R149) stays outside. -/

namespace Sys2Proof.Machine

/-- The transaction of `wr NAME, v` (R147). -/
def wrTxn (r : Reg) (v : Word) : Txn := { dir := .write, window := .reg, offset := r.offset, width := 4, data := v }

/-- The transaction of `rd NAME` (R147). -/
def rdTxn (r : Reg) : Txn := { dir := .read, window := .reg, offset := r.offset, width := 4 }

/-- The transaction of `mw8`, `mw16`, `mw32` (R147), by their width in bytes. -/
def mwTxn (width a : Nat) (v : Word) : Txn := { dir := .write, window := .mem, offset := a, width, data := v }

/-- The transaction of `mr8`, `mr16`, `mr32` (R147), by their width in bytes. -/
def mrTxn (width a : Nat) : Txn := { dir := .read, window := .mem, offset := a, width }

/-- `wr NAME, v` (R147). -/
def wr (r : Reg) (v : Word) : Input := .bus (wrTxn r v)

/-- `rd NAME` (R147). -/
def rd (r : Reg) : Input := .bus (rdTxn r)

/-- `mw8`, `mw16`, `mw32` (R147) by their width in bytes. -/
def mw (width a : Nat) (v : Word) : Input := .bus (mwTxn width a v)

/-- `mr8`, `mr16`, `mr32` (R147) by their width in bytes. -/
def mr (width a : Nat) : Input := .bus (mrTxn width a)

/-- `cmd OP` (R148). -/
def cmd (i : Instr) : Input := wr .cmd (encode i)

/-- A poll of `wait` (R148): one STATUS read. -/
def waitPoll : Input := rd .status

/-- The host polls again when the STATUS it read has BUSY = 1 (`wait`, R148). -/
def pollsAgain (status : Word) : Bool := status.getLsbD 0

/-- `run OP` (R148): the command, its Complete step, and the final poll of `wait`. -/
def runCmd (i : Instr) : List Input := [cmd i, .complete, waitPoll]

/-- `check` (R148): a STATUS read of its own, after that of `wait`. -/
def checkInput : Input := rd .status

/-- `check` goes to its error label when the STATUS it read has ERR = 1 (R148). -/
def checkTaken (status : Word) : Bool := status.getLsbD 2

/-- `run OP ; check` (R148). -/
def runChecked (i : Instr) : List Input := runCmd i ++ [checkInput]

/-- `load a, b0 b1 ... bk` (R148). -/
def load (a : Nat) : List Byte → List Input
  | [] => []
  | b :: bs => mw 1 a (b.setWidth 32) :: load (a + 1) bs

/-- `ack` (R148). -/
def ackInput : Input := wr .events 0x1#32

/-- `softreset` (R148). -/
def softresetInput : Input := wr .ctrl 0x2#32

/-- The small-file heuristic of the host (R291): the BWT path exactly when n < BWT_THRESHOLD. -/
def takesBwtPath (p : Params) (n : Nat) : Bool := decide (n < p.bwtThreshold)

/-- The buffers of the reference sequences (R293, R294), as offsets and capacities. -/
structure Buffers where
  input : Word
  work : Word
  side : Word
  sideCap : Word
  blob : Word
  blobCap : Word
  output : Word
  outCap : Word
deriving DecidableEq, Repr

/-- The reference compression sequence for an n-byte input (R292, R293). -/
def compressSequence (p : Params) (b : Buffers) (n : Word) : List Input :=
  let h := if takesBwtPath p n.toNat then b.work else b.input
  (if takesBwtPath p n.toNat then
      [wr .src b.input, wr .len n, wr .dst b.work] ++ runChecked .bwtFwd
        ++ [wr .src b.work, wr .dst b.work] ++ runChecked .mtfEnc
    else [wr .bwtIdx Config.notApplied])
    ++ [wr .src h, wr .len n] ++ runChecked .hufBuild ++ [rd .outLen]
    ++ [wr .dst b.side, wr .dstCap b.sideCap] ++ runChecked .treeSer ++ [rd .outLen]
    ++ [wr .src h, wr .len n, wr .dst b.blob, wr .dstCap b.blobCap] ++ runChecked .entEnc ++ [rd .outLen]

/-- The first part of the reference decompression sequence: load the model from a side channel of `sideLen` bytes (R294). -/
def loadModelSequence (b : Buffers) (sideLen : Word) : List Input :=
  [wr .src b.side, wr .len sideLen] ++ runChecked .treeDes ++ [rd .usize, rd .bwtIdx]

/-- The rest of the reference decompression sequence, for the USIZE = n and BWT_IDX = idx read from the model: the branch is
read from the side channel (R294, R295). -/
def decodeSequence (b : Buffers) (blobLen n idx : Word) : List Input :=
  if idx = Config.notApplied then
    [wr .src b.blob, wr .len blobLen, wr .dst b.output, wr .dstCap b.outCap] ++ runChecked .entDec
  else
    [wr .src b.blob, wr .len blobLen, wr .dst b.work, wr .dstCap b.outCap] ++ runChecked .entDec
      ++ [wr .src b.work, wr .len n, wr .dst b.work] ++ runChecked .mtfDec ++ [wr .dst b.output] ++ runChecked .bwtInv

end Sys2Proof.Machine
end

