-- ==== Sys2Proof/Safety.lean ====
section
/-! DEFINITION. The terms that claims use: the records a command leaves, conditions on operands in plain arithmetic, what a
memory keeps, the invariant of the machine, and what a safe outcome is. -/

namespace Sys2Proof.Machine

/-- A safe outcome: the machine goes on. -/
abbrev GoesOn (o : Host.Outcome State Fault Refusal) : Prop := ∃ t, o = .next t

/-- The record of a successful completion over s (R173, R175): OUT_LEN, OUT_BITS and the lifecycle flags. -/
def okState (s : State) (outLen outBits : Word) : State :=
  { s with outLen := outLen, outBits := outBits, busy := false, done := true, cmdDone := true }

/-- The record of an error completion over s (R372): the state as it was, plus the record. -/
def errState (s : State) (c : ErrCode) : State :=
  { s with outLen := 0#32, outBits := 0#32, err := true, errCode := c.number, busy := false, done := true, cmdDone := true }

/-- Every address outside [a, a+n) reads as before. -/
abbrev Memory.SameOutside (m m' : Memory) (a n : Nat) : Prop := ∀ b, b < a ∨ a + n ≤ b → m'.read b = m.read b

/-- Every byte of [a, a+n) has been written. -/
abbrev Memory.Written (m : Memory) (a n : Nat) : Prop := ∀ k, k < n → m.read (a + k) ≠ none

/-- MEM[a ..] holds the bytes x. -/
abbrev Memory.Holds (m : Memory) (a : Nat) (x : List Byte) : Prop := ∀ k, k < x.length → m.read (a + k) = x[k]?

/-- A region lies inside MEM, or is empty (R105). -/
abbrev InMem (s : State) (a l : Nat) : Prop := l = 0 ∨ a + l ≤ s.params.memSize

/-- Two regions have no byte in common (R106). -/
abbrev Apart (a la b lb : Nat) : Prop := la = 0 ∨ lb = 0 ∨ b + lb ≤ a ∨ a + la ≤ b

/-- The operands under which no operand check of the block commands fails, LEN_RANGE and IDX_RANGE apart (R201, R231). -/
abbrev BlockOperands (s : State) : Prop :=
  InMem s s.src.toNat s.len.toNat ∧ InMem s s.dst.toNat s.len.toNat
    ∧ (Apart s.src.toNat s.len.toNat s.dst.toNat s.len.toNat ∨ s.src = s.dst)

/-- The operands under which no operand check of the entropy coder fails, NO_TREE and CAP_OVERFLOW apart (R340, R344). -/
abbrev CoderOperands (s : State) : Prop :=
  InMem s s.src.toNat s.len.toNat ∧ InMem s s.dst.toNat s.dstCap.toNat
    ∧ Apart s.src.toNat s.len.toNat s.dst.toNat s.dstCap.toNat

/-- Rotation i comes strictly before rotation j: `(rot(x,i), i) < (rot(x,j), j)`, in the library's lexicographic order on
lists of numbers (R203). -/
abbrev RotationBefore (x : List Byte) (i j : Nat) : Prop :=
  (blockRotation x i).map BitVec.toNat < (blockRotation x j).map BitVec.toNat ∨ (blockRotation x i = blockRotation x j ∧ i < j)

/-- `ranks` are the move-to-front ranks of `bytes` (R230-R232): from the identity, at every position t the byte stands at its
rank in the permutation P t, and moving it to the front gives P (t+1). -/
def MtfRelated (ranks bytes : List Byte) : Prop :=
  ranks.length = bytes.length ∧
    ∃ P : Nat → List Byte, P 0 = (List.range 256).map (BitVec.ofNat 8) ∧
      ∀ t r c, ranks[t]? = some r → bytes[t]? = some c → (P t)[r.toNat]? = some c ∧ P (t + 1) = c :: (P t).eraseIdx r.toNat

/-- z is row idx of the matrix of R209: from empty rows, each of n rounds prepends y as a new left column and sorts the rows,
bytes as unsigned numbers. For the empty y, z is empty. -/
def MatrixRow (y : List Byte) (idx : Nat) (z : List Byte) : Prop :=
  z.length = y.length ∧
    ∃ M : Nat → List (List Byte), M 0 = List.replicate y.length [] ∧
      (∀ r, r < y.length → (M (r + 1)).Perm (List.zipWith List.cons y (M r)) ∧
        (M (r + 1)).Pairwise fun u v => u.map BitVec.toNat ≤ v.map BitVec.toNat) ∧
      (0 < y.length → (M y.length)[idx]? = some z)

/-- A code on the bytes of x in which no code is a prefix of another (R264). -/
abbrev PrefixCode (x : List Byte) (code : Byte → List Bool) : Prop :=
  ∀ a ∈ x, ∀ b ∈ x, a ≠ b → ¬ code a <+: code b

/-- The states agree on everything that command i reads (R142): its operand registers, TREE where it is read, the
parameters, and the bytes of its input region. -/
def ReadsAgree (i : Instr) (s s' : State) : Prop :=
  s.params = s'.params ∧
    match i with
    | .nop => True
    | .bwtFwd | .mtfEnc | .mtfDec =>
      s.src = s'.src ∧ s.len = s'.len ∧ s.dst = s'.dst
        ∧ ∀ k, k < s.len.toNat → s.mem.read (s.src.toNat + k) = s'.mem.read (s.src.toNat + k)
    | .bwtInv =>
      s.src = s'.src ∧ s.len = s'.len ∧ s.dst = s'.dst ∧ s.bwtIdx = s'.bwtIdx
        ∧ ∀ k, k < s.len.toNat → s.mem.read (s.src.toNat + k) = s'.mem.read (s.src.toNat + k)
    | .hufBuild | .treeDes =>
      s.src = s'.src ∧ s.len = s'.len
        ∧ ∀ k, k < s.len.toNat → s.mem.read (s.src.toNat + k) = s'.mem.read (s.src.toNat + k)
    | .treeSer => s.dst = s'.dst ∧ s.dstCap = s'.dstCap ∧ s.bwtIdx = s'.bwtIdx ∧ s.usize = s'.usize ∧ s.tree = s'.tree
    | .entEnc =>
      s.src = s'.src ∧ s.len = s'.len ∧ s.dst = s'.dst ∧ s.dstCap = s'.dstCap ∧ s.tree = s'.tree
        ∧ ∀ k, k < s.len.toNat → s.mem.read (s.src.toNat + k) = s'.mem.read (s.src.toNat + k)
    | .entDec =>
      s.src = s'.src ∧ s.len = s'.len ∧ s.dst = s'.dst ∧ s.dstCap = s'.dstCap ∧ s.usize = s'.usize ∧ s.tree = s'.tree
        ∧ ∀ k, k < s.len.toNat → s.mem.read (s.src.toNat + k) = s'.mem.read (s.src.toNat + k)

/-- A host transaction that is a soft reset (R414): an aligned CTRL write with bit 1 = 1. -/
abbrev IsSoftReset (t : Txn) : Prop :=
  t.dir = .write ∧ t.window = .reg ∧ t.offset = 0x008 ∧ t.width = 4 ∧ t.data.getLsbD 1 = true

/-- The core takes the host transaction x at s and is then as t. It answers x, and not with a bus error (R107, R108); what else
the response is, is the model's own (log 9). -/
abbrev TakesTo (x : Txn) (s t : State) : Prop := ∃ r, r ≠ Reply.busError ∧ hostAccess x s = .next { t with reply := some r }

/-- A 32-bit host read at offset off of the register window returns v and changes nothing but the bus response (R33, R56). -/
abbrev ReadsAs (s : State) (off : Nat) (v : Word) : Prop :=
  hostAccess { dir := .read, window := .reg, offset := off, width := 4 } s = .next { s with reply := some (.data v) }

/-- A host transaction that touches only bytes the core decodes (R101). -/
abbrev InWindow (p : Params) (t : Txn) : Prop :=
  t.offset < windowSize p t.window ∧ (t.wf → t.window = .mem → t.offset + t.width ≤ p.memSize)

/-- What holds in every state of the machine: legal parameters (R7), MEM canonical and inside MEM_SIZE (R100), a legal tree
(R60), the legal flag combinations and error codes (R37), LAST_OP as CMD[7:0] (R37), the error record (R372) and counts
that no input exceeds (R61). -/
structure MachineInv (s : State) : Prop where
  paramsLegal : s.params.legal
  memCanonical : s.mem.wf
  memInRange : ∀ c ∈ s.mem, c.1 < s.params.memSize
  treeLegal : s.tree.wf
  flagsLegal : (s.busy, s.done, s.err) ∈ [(false, false, false), (true, false, false), (false, true, false), (false, true, true)]
  errCodeIff : s.errCode ≠ 0#8 ↔ s.err = true
  errCodeLe : s.errCode.toNat ≤ 10
  lastOpIsOpcode : s.lastOp = s.cmd.extractLsb' 0 8
  errRecord : s.err = true → s.outLen = 0#32 ∧ s.outBits = 0#32
  freqInRange : ∀ b, (s.freq.at b).toNat ≤ s.params.memSize

end Sys2Proof.Machine
end

