-- ==== Sys2Proof/Certificates/Slice0/Obligations.lean ====
section
/-! DEFINITION. The statements for the provers, by family: command words, the lifecycle, the host interface, resets, each
command, and the machine as a whole. -/

open Sys2Proof Sys2Proof.Machine

/-! ### Command words -/

/-- R144: the decoder looks at bits 31:8 and at the opcode, and every word decodes to one command or to BadOpcode. -/
def Obligations.DecodeIsTheOpcodeMap : Prop :=
  ∀ w : Word,
    (w.extractLsb' 8 24 ≠ 0#24 → decode w = .badOpcode) ∧
    (w.extractLsb' 8 24 = 0#24 →
      (decode w = .command .nop ↔ w.extractLsb' 0 8 = 0x00#8) ∧ (decode w = .command .bwtFwd ↔ w.extractLsb' 0 8 = 0x01#8) ∧
      (decode w = .command .bwtInv ↔ w.extractLsb' 0 8 = 0x02#8) ∧ (decode w = .command .mtfEnc ↔ w.extractLsb' 0 8 = 0x03#8) ∧
      (decode w = .command .mtfDec ↔ w.extractLsb' 0 8 = 0x04#8) ∧ (decode w = .command .hufBuild ↔ w.extractLsb' 0 8 = 0x05#8) ∧
      (decode w = .command .treeSer ↔ w.extractLsb' 0 8 = 0x06#8) ∧ (decode w = .command .treeDes ↔ w.extractLsb' 0 8 = 0x07#8) ∧
      (decode w = .command .entEnc ↔ w.extractLsb' 0 8 = 0x08#8) ∧ (decode w = .command .entDec ↔ w.extractLsb' 0 8 = 0x09#8) ∧
      (decode w = .badOpcode ↔ 0x0A ≤ (w.extractLsb' 0 8).toNat))

/-- R143: exactly one 32-bit word decodes to each well-formed command, the one the encoder gives; so decode and encode
agree, in both directions. -/
def Obligations.DecodeAndEncodeAgree : Prop :=
  ∀ (i : Instr) (w : Word), i.wf → (decode w = .command i ↔ w = encode i)

/-- R143: a few words of the opcode map and of the illegal space, written out. -/
def Obligations.WordsOfTheOpcodeMapDecode : Prop :=
  decode 0x00000000#32 = .command .nop ∧ decode 0x00000001#32 = .command .bwtFwd ∧ decode 0x00000004#32 = .command .mtfDec ∧
  decode 0x00000005#32 = .command .hufBuild ∧ decode 0x00000007#32 = .command .treeDes ∧
  decode 0x00000009#32 = .command .entDec ∧ decode 0x0000000A#32 = .badOpcode ∧ decode 0x00000100#32 = .badOpcode ∧
  decode 0xFFFFFFFF#32 = .badOpcode

/-! ### Lifecycle -/

/-- The inbox, the model's choice (log 1, DESIGN CHOICE), carries what happens next: a transaction is answered by `hostAccess`,
a power-on reset resets, and the Complete step comes where it stands in the inbox, or when nothing is left. An idle core's
Complete step changes nothing (logs 16, 17). -/
def Obligations.StepTakesTheNextInput : Prop :=
  (∀ (s : State) (x : Txn) (rest : List Input), s.inbox = .bus x :: rest → step s = hostAccess x { s with inbox := rest }) ∧
  (∀ (s : State) (rest : List Input), s.inbox = .powerOn :: rest → step s = .next (powerOnReset { s with inbox := rest })) ∧
  (∀ (s : State) (rest : List Input), s.inbox = .complete :: rest → step s = completeStep { s with inbox := rest }) ∧
  (∀ s : State, s.inbox = [] → step s = completeStep s) ∧
  (∀ s : State, s.busy = false → completeStep s = .next s)

/-- The step at a running command is exec of the instruction that CMD decodes to: when no input is left, and when the next
input is the Complete step, which is then consumed (R172, R173; the inbox is the model's, log 1). -/
def Obligations.StepRunsTheDecodedCommand : Prop :=
  ∀ (s : State) (i : Instr), s.busy = true → decode s.cmd = .command i → i.wf →
    (s.inbox = [] → step s = exec i s) ∧
    (∀ rest, s.inbox = .complete :: rest → step s = exec i { s with inbox := rest })

/-- R170: a CMD write while BUSY = 0 is accepted, whatever the word, and nothing else of the core changes. -/
def Obligations.CommandWriteIsAccepted : Prop :=
  ∀ (s : State) (w : Word), s.busy = false →
    TakesTo { dir := .write, window := .reg, offset := 0x00C, width := 4, data := w } s
      { s with cmd := w, busy := true, done := false, err := false, errCode := 0#8, lastOp := w.extractLsb' 0 8 }

/-- R145: an illegal word is accepted, sets BUSY, records LAST_OP and CMD, and then completes with error 1 and no other
effect. -/
def Obligations.IllegalWordCompletesWithBadOpcode : Prop :=
  ∀ (s : State) (w : Word), s.busy = false →
    (w.extractLsb' 8 24 ≠ 0#24 ∨ 0x0A ≤ (w.extractLsb' 0 8).toNat) →
    ∃ t, hostAccess (wrTxn .cmd w) s = .next t ∧ t.busy = true ∧ t.lastOp = w.extractLsb' 0 8 ∧ t.cmd = w ∧
      completeStep t = .next
        { s with
          cmd := w, busy := false, done := true, err := true, errCode := 1#8, lastOp := w.extractLsb' 0 8, cmdDone := true
          outLen := 0#32, outBits := 0#32, reply := t.reply }

/-- R173, R175, R177: every command that goes on ends with BUSY = 0, DONE = 1 and CMD_DONE = 1; it writes no operand
register but BWT_IDX and USIZE, and an error leaves the state as it was, plus the record, with a code from 1 to 10. -/
def Obligations.CompletionIsOkOrPreciseError : Prop :=
  ∀ (i : Instr) (s t : State), exec i s = .next t →
    (∃ c, t = errState s c ∧ 1 ≤ t.errCode.toNat ∧ t.errCode.toNat ≤ 10) ∨
    t = { okState s t.outLen t.outBits with mem := t.mem, bwtIdx := t.bwtIdx, usize := t.usize, tree := t.tree, freq := t.freq }

/-- A command whose input region has been written goes on, in every state: it stops on no operand value, mode or model.
Resting on log 3 (DESIGN CHOICE), which makes only the reading of an unwritten byte a stop. -/
def Obligations.EveryCommandGoesOnOverWrittenInput : Prop :=
  ∀ (i : Instr) (s : State), s.mem.Written (inputRegion i s).1 (inputRegion i s).2 → GoesOn (exec i s)

/-- R174, R142: Exec is a function of what the command reads: two states that agree there complete with one verdict. -/
def Obligations.CommandDependsOnlyOnWhatItReads : Prop :=
  ∀ (i : Instr) (s s' : State), ReadsAgree i s s' → ∃ v, exec i s = completeWith v s ∧ exec i s' = completeWith v s'

/-- R178: while a command runs, no host transaction changes CMD, an operand, the model, a result or MEM, and only a soft
reset ends the command. -/
def Obligations.RunningCommandKeepsItsOperands : Prop :=
  ∀ (s t : State) (x : Txn), s.busy = true → hostAccess x s = .next t → ¬ IsSoftReset x →
    t = { s with reply := t.reply, irqEn := t.irqEn, cmdDone := t.cmdDone, wbusy := t.wbusy, mbusy := t.mbusy }

/-- R172, R65, R375: whatever transactions other than soft resets the host sends while a command runs, the command
completes with the results it would have had at once; only events, IRQ_EN and the bus response tell the runs apart. The
order is given by the inbox (log 1). -/
def Obligations.CompletionIsAtomicUnderInterleaving : Prop :=
  ∀ (s u : State) (xs : List Txn), s.busy = true →
    (∀ x ∈ xs, InWindow s.params x ∧ ¬ IsSoftReset x) →
    step { s with inbox := [] } = .next u →
    ∃ t, Host.Core.run Sys2Proof.core (xs.length + 1) { s with inbox := xs.map .bus } = .next t ∧
      t = { u with reply := t.reply, irqEn := t.irqEn, wbusy := t.wbusy, mbusy := t.mbusy } ∧ t.cmdDone = true

/-- R380, R57: IRQ is IRQ_EN and CMD_DONE in every state, after any Complete step it shows IRQ_EN, and it follows every write to
CTRL and to EVENTS in the same step; a reset, soft (CTRL bit 1) or power-on, deasserts it. -/
def Obligations.InterruptFollowsEnableAndCompletion : Prop :=
  (∀ s : State, s.irq = (s.irqEn && s.cmdDone)) ∧
  (∀ (s t : State), s.busy = true → completeStep s = .next t → t.cmdDone = true ∧ t.irq = s.irqEn) ∧
  (∀ (s : State) (v : Word), v.getLsbD 1 = false →
    ∃ t, hostAccess (wrTxn .ctrl v) s = .next t ∧ t.irqEn = v.getLsbD 0 ∧ t.cmdDone = s.cmdDone ∧
      t.irq = (v.getLsbD 0 && s.cmdDone)) ∧
  (∀ (s : State) (v : Word), v.getLsbD 1 = true → ∃ t, hostAccess (wrTxn .ctrl v) s = .next t ∧ t.irq = false) ∧
  (∀ (s : State) (v : Word),
    ∃ t, hostAccess (wrTxn .events v) s = .next t ∧ t.irqEn = s.irqEn ∧ t.cmdDone = (s.cmdDone && !v.getLsbD 0) ∧
      t.irq = (s.irq && !v.getLsbD 0)) ∧
  (∀ s, (powerOnReset s).irq = false)

/-! ### Host interface -/

/-- R33, R34, R52: what a read at each offset of the register window returns; the offset of each named register, and no other
offset is named; the constants cannot be written. What LEAF_COUNT, CODEQ_LEN and CODEQ_BITSk hold stands in
`CodeQueryReportsTheCode`, the fields of CTRL, STATUS and EVENTS in `StatusWordsHoldTheirFields`. -/
def Obligations.RegisterMapIsAsTabulated : Prop :=
  (∀ s : State,
    ReadsAs s 0x000 0x424D4843#32 ∧ ReadsAs s 0x004 0x00000001#32 ∧ ReadsAs s 0x008 s.ctrlWord ∧ ReadsAs s 0x00C s.cmd ∧
    ReadsAs s 0x010 s.statusWord ∧ ReadsAs s 0x014 s.eventsWord ∧ ReadsAs s 0x018 s.src ∧ ReadsAs s 0x01C s.len ∧
    ReadsAs s 0x020 s.dst ∧ ReadsAs s 0x024 s.dstCap ∧ ReadsAs s 0x028 s.bwtIdx ∧ ReadsAs s 0x02C s.usize ∧
    ReadsAs s 0x030 s.outLen ∧ ReadsAs s 0x034 s.outBits ∧ ReadsAs s 0x038 (regRead s .leafCount) ∧
    ReadsAs s 0x03C (s.codeqSym.setWidth 32) ∧ ReadsAs s 0x040 (regRead s .codeqLen) ∧
    ReadsAs s 0x044 (s.freq.at s.codeqSym) ∧ (∀ k : Fin 8, ReadsAs s (0x048 + 4 * k.val) (regRead s (.codeqBits k))) ∧
    ReadsAs s 0x068 (BitVec.ofNat 32 s.params.memSize) ∧ ReadsAs s 0x06C (BitVec.ofNat 32 s.params.bwtMaxLen)) ∧
  (let table : List (Reg × Nat) :=
      [(.id, 0x000), (.version, 0x004), (.ctrl, 0x008), (.cmd, 0x00C), (.status, 0x010), (.events, 0x014), (.src, 0x018),
        (.len, 0x01C), (.dst, 0x020), (.dstCap, 0x024), (.bwtIdx, 0x028), (.usize, 0x02C), (.outLen, 0x030),
        (.outBits, 0x034), (.leafCount, 0x038), (.codeqSym, 0x03C), (.codeqLen, 0x040), (.codeqFreq, 0x044),
        (.codeqBits 0, 0x048), (.codeqBits 1, 0x04C), (.codeqBits 2, 0x050), (.codeqBits 3, 0x054), (.codeqBits 4, 0x058),
        (.codeqBits 5, 0x05C), (.codeqBits 6, 0x060), (.codeqBits 7, 0x064), (.memSizeR, 0x068), (.bwtMaxR, 0x06C)]
    ∀ (off : Nat) (r : Reg), ((r, off) ∈ table ↔ r.offset = off) ∧ (Reg.ofOffset off = some r ↔ r.offset = off)) ∧
  (∀ (s : State) (off : Nat) (v : Word), s.busy = false → off ∈ [0x000, 0x004, 0x068, 0x06C] →
    TakesTo { dir := .write, window := .reg, offset := off, width := 4, data := v } s s)

/-- R56: a register read returns the current value and has no side effect, and acceptance changes no register but CMD and
STATUS, so while a command runs a read returns the value from before the command. -/
def Obligations.RegisterReadHasNoSideEffect : Prop :=
  (∀ (s : State) (r : Reg), hostAccess (rdTxn r) s = .next { s with reply := some (.data (regRead s r)) }) ∧
  (∀ (s : State) (w : Word) (r : Reg), r ≠ .cmd → r ≠ .status → regRead (accept w s) r = regRead s r)

/-- R53: at a reserved offset a read returns 0 and a write has no effect at all, BUSY or not. -/
def Obligations.ReservedOffsetsReadZeroAndIgnoreWrites : Prop :=
  ∀ (s : State) (off : Nat) (v : Word), 0x070 ≤ off → off ≤ 0xFFC → off % 4 = 0 →
    hostAccess { dir := .read, window := .reg, offset := off, width := 4 } s = .next { s with reply := some (.data 0#32) } ∧
    TakesTo { dir := .write, window := .reg, offset := off, width := 4, data := v } s s

/-- R55, R171: writes while BUSY = 1. CTRL and EVENTS take effect as they always do; a write to any other named register, CMD
among them, is dropped and sets WBUSY. While BUSY = 0 a write to a read-only register is ignored and sets nothing. -/
def Obligations.RegisterWritesUnderLockout : Prop :=
  ∀ (s : State) (v : Word),
    (∀ r : Reg, s.busy = true → r ≠ .ctrl → r ≠ .events → TakesTo (wrTxn r v) s { s with wbusy := true }) ∧
    TakesTo (wrTxn .events v) s
      { s with cmdDone := s.cmdDone && !v.getLsbD 0, wbusy := s.wbusy && !v.getLsbD 1, mbusy := s.mbusy && !v.getLsbD 2 } ∧
    (v.getLsbD 1 = false → TakesTo (wrTxn .ctrl v) s { s with irqEn := v.getLsbD 0 }) ∧
    (v.getLsbD 1 = true → ∃ t, hostAccess (wrTxn .ctrl v) s = .next t ∧ t.busy = false ∧ t.cmd = 0#32 ∧ t.irqEn = false) ∧
    (∀ r : Reg, s.busy = false →
      r ∉ [.ctrl, .cmd, .events, .src, .len, .dst, .dstCap, .bwtIdx, .usize, .codeqSym] → TakesTo (wrTxn r v) s s)

/-- R39-R44, R48: an idle core stores a written operand register, all 32 bits, and the low 8 bits of CODEQ_SYM, and changes
nothing else. -/
def Obligations.IdleOperandWritesAreStored : Prop :=
  ∀ (s : State) (v : Word), s.busy = false →
    TakesTo (wrTxn .src v) s { s with src := v } ∧ TakesTo (wrTxn .len v) s { s with len := v } ∧
    TakesTo (wrTxn .dst v) s { s with dst := v } ∧ TakesTo (wrTxn .dstCap v) s { s with dstCap := v } ∧
    TakesTo (wrTxn .bwtIdx v) s { s with bwtIdx := v } ∧ TakesTo (wrTxn .usize v) s { s with usize := v } ∧
    TakesTo (wrTxn .codeqSym v) s { s with codeqSym := v.extractLsb' 0 8 }

/-- R37, R38, R35: the places of the fields in STATUS, EVENTS and CTRL; every unnamed bit reads 0 (R54). -/
def Obligations.StatusWordsHoldTheirFields : Prop :=
  ∀ s : State,
    (s.statusWord.getLsbD 0 = s.busy ∧ s.statusWord.getLsbD 1 = s.done ∧ s.statusWord.getLsbD 2 = s.err ∧
      (s.statusWord.getLsbD 3 = true ↔ s.tree ≠ .invalid) ∧ s.statusWord.extractLsb' 4 4 = 0#4 ∧
      s.statusWord.extractLsb' 8 8 = s.errCode ∧ s.statusWord.extractLsb' 16 8 = s.lastOp ∧
      s.statusWord.extractLsb' 24 8 = 0#8) ∧
    (s.eventsWord.getLsbD 0 = s.cmdDone ∧ s.eventsWord.getLsbD 1 = s.wbusy ∧ s.eventsWord.getLsbD 2 = s.mbusy ∧
      s.eventsWord.extractLsb' 3 29 = 0#29) ∧
    (s.ctrlWord.getLsbD 0 = s.irqEn ∧ s.ctrlWord.extractLsb' 1 31 = 0#31)

/-- R112: while BUSY = 1 an aligned MEM read of width w returns 0 and a write changes nothing, and both set MBUSY. -/
def Obligations.MemoryIsLockedWhileBusy : Prop :=
  ∀ (s : State) (a w : Nat) (v : Word), s.busy = true → (w = 1 ∨ w = 2 ∨ w = 4) → a % w = 0 → a + w ≤ s.params.memSize →
    hostAccess (mrTxn w a) s = .next { s with mbusy := true, reply := some (.data 0#32) } ∧
    TakesTo (mwTxn w a v) s { s with mbusy := true }

/-- R107, R108, R377: a misaligned or wrongly sized access inside a window gets a bus error and changes nothing, and whenever an
aligned access of a permitted width goes on, it is answered, and not with a bus error. That the bus error also comes before
the lockout while BUSY = 1 is the model's reading (DEDUCED, log 8). -/
def Obligations.MisalignedAccessIsBusError : Prop :=
  (∀ (s : State) (x : Txn), x.offset < windowSize s.params x.window → ¬ x.wf →
    hostAccess x s = .next { s with reply := some .busError }) ∧
  (∀ (s t : State) (x : Txn), x.wf → hostAccess x s = .next t → t.reply ≠ none ∧ t.reply ≠ some .busError)

/-- R103(a): an idle core stores a written value little-endian, and every other byte reads as before. -/
def Obligations.HostWriteStoresLittleEndianLanes : Prop :=
  ∀ (s : State) (a w : Nat) (v : Word), s.busy = false → (w = 1 ∨ w = 2 ∨ w = 4) → a % w = 0 → a + w ≤ s.params.memSize →
    ∃ t, hostAccess (mwTxn w a v) s = .next t ∧ (∀ k, k < w → t.mem.read (a + k) = some (v.extractLsb' (8 * k) 8)) ∧
      s.mem.SameOutside t.mem a w ∧ t = { s with mem := t.mem, reply := t.reply }

/-- R103(a), R110: an idle core returns the little-endian value of the bytes, and the read changes nothing. -/
def Obligations.HostReadReturnsLittleEndianLanes : Prop :=
  ∀ (s : State) (a w : Nat) (lane : Nat → Byte), s.busy = false → (w = 1 ∨ w = 2 ∨ w = 4) → a % w = 0 →
    a + w ≤ s.params.memSize → (∀ k, k < w → s.mem.read (a + k) = some (lane k)) →
    ∃ v : Word, hostAccess (mrTxn w a) s = .next { s with reply := some (.data v) } ∧ v.toNat < 256 ^ w ∧
      ∀ k, k < w → v.extractLsb' (8 * k) 8 = lane k

/-- R47, R49, R50, R51: the code-query registers, for a legal tree: PRESENT exactly for a leaf, the code's length, its bits
MSB-first with 0 past the end; the symbol's FREQ; and the leaf count. -/
def Obligations.CodeQueryReportsTheCode : Prop :=
  ∀ s : State, s.tree.wf →
    ((regRead s .codeqLen).getLsbD 31 = true ↔ s.codeqSym ∈ s.tree.leaves) ∧
    (regRead s .leafCount).toNat = s.tree.leaves.length ∧ regRead s .codeqFreq = s.freq.at s.codeqSym ∧
    (s.codeqSym ∉ s.tree.leaves → regRead s .codeqLen = 0#32 ∧ ∀ k, regRead s (.codeqBits k) = 0#32) ∧
    (∀ p, s.tree.code s.codeqSym = some p →
      (regRead s .codeqLen).toNat = 2 ^ 31 + p.length ∧
      ∀ j (h : j / 32 < 8), (regRead s (.codeqBits ⟨j / 32, h⟩)).getLsbD (31 - j % 32) = p.getD j false)

/-! ### Resets -/

/-- R411: the reset value of every stored register, what the registers then read as, and that reset starts no command. -/
def Obligations.ResetLeavesTheTabulatedValues : Prop :=
  State.reset.irqEn = false ∧ State.reset.cmd = 0#32 ∧ State.reset.busy = false ∧ State.reset.done = false ∧
  State.reset.err = false ∧ State.reset.errCode = 0#8 ∧ State.reset.lastOp = 0#8 ∧ State.reset.cmdDone = false ∧
  State.reset.wbusy = false ∧ State.reset.mbusy = false ∧ State.reset.src = 0#32 ∧ State.reset.len = 0#32 ∧
  State.reset.dst = 0#32 ∧ State.reset.dstCap = 0#32 ∧ State.reset.bwtIdx = 0xFFFFFFFF#32 ∧ State.reset.usize = 0#32 ∧
  State.reset.outLen = 0#32 ∧ State.reset.outBits = 0#32 ∧ State.reset.codeqSym = 0#8 ∧ State.reset.tree = .invalid ∧
  (∀ b, State.reset.freq.at b = 0#32) ∧
  regRead State.reset .status = 0#32 ∧ regRead State.reset .events = 0#32 ∧ State.reset.irq = false ∧
  regRead State.reset .ctrl = 0#32 ∧ regRead State.reset .id = 0x424D4843#32 ∧ regRead State.reset .version = 1#32 ∧
  regRead State.reset .memSizeR = 0x00010000#32 ∧ regRead State.reset .bwtMaxR = 0x000003E7#32 ∧
  regRead State.reset .leafCount = 0#32 ∧ regRead State.reset .codeqLen = 0#32 ∧ regRead State.reset .codeqFreq = 0#32 ∧
  (∀ k, regRead State.reset (.codeqBits k) = 0#32) ∧ step State.reset = .next State.reset

/-- R414: a soft reset at any time: registers, TREE and FREQ at their reset values whatever bit 0 is, no completion; the
running command's footprint inside MEM holds any value per byte, and every other byte reads as before. -/
def Obligations.SoftResetAbortsAndResets : Prop :=
  ∀ (s : State) (v : Word), v.getLsbD 1 = true →
    ∃ t, hostAccess (wrTxn .ctrl v) s = .next t ∧
      t = { State.reset with params := s.params, mem := t.mem, inbox := s.inbox, reply := t.reply, draws := t.draws } ∧
      (s.busy = false → t.mem = s.mem) ∧
      (decode s.cmd = .badOpcode → t.mem = s.mem) ∧
      (∀ i, s.busy = true → decode s.cmd = .command i →
        (∀ a, (footprint i s).1 ≤ a → a < (footprint i s).1 + (footprint i s).2 → a < s.params.memSize →
          ∃ b, t.mem.read a = some b) ∧
        (∀ a, a < (footprint i s).1 ∨ (footprint i s).1 + (footprint i s).2 ≤ a ∨ s.params.memSize ≤ a →
          t.mem.read a = s.mem.read a))

/-- R410, R411, R412: power-on reset gives the reset state, with nothing in MEM; the parameters, the inbox and the count of
draws are the model's own and stay (log 13, DESIGN CHOICE). -/
def Obligations.PowerOnGivesTheResetState : Prop :=
  ∀ s : State, powerOnReset s = { State.reset with params := s.params, inbox := s.inbox, draws := s.draws }

/-! ### NOP -/

/-- R181: NOP sets OUT_LEN and OUT_BITS to 0 and completes; only the word 0 encodes it; from reset it leaves STATUS = 2 and
EVENTS = 1. -/
def Obligations.NopCompletes : Prop :=
  (∀ s : State, exec .nop s = .next (okState s 0#32 0#32)) ∧
  (∀ w, decode w = .command .nop ↔ w = 0x00000000#32) ∧ decode 0x00000100#32 = .badOpcode ∧
  ∃ t u, hostAccess (wrTxn .cmd 0#32) State.reset = .next t ∧ completeStep t = .next u ∧
    regRead u .status = 0x00000002#32 ∧ regRead u .events = 0x1#32

/-! ### BWT -/

/-- R203, R204, R205, R206: BWT_FWD writes at DST the last byte of each rotation in sorted order, and the rank of the
original to BWT_IDX; p is the sorted list of start indices. Everything else is unchanged. -/
def Obligations.BwtFwdWritesTheSortedLastColumn : Prop :=
  ∀ (s : State) (x : List Byte), s.len.toNat ≤ s.params.bwtMaxLen → BlockOperands s →
    x.length = s.len.toNat → s.mem.Holds s.src.toNat x →
    ∃ (t : State) (p : List Nat), exec .bwtFwd s = .next t ∧
      p.Perm (List.range x.length) ∧ p.Pairwise (RotationBefore x) ∧
      (∀ k, k < x.length → ∃ i, p[k]? = some i ∧ t.mem.read (s.dst.toNat + k) = x[(i + x.length - 1) % x.length]?) ∧
      (0 < x.length → p[t.bwtIdx.toNat]? = some 0) ∧ (x.length = 0 → t.bwtIdx = 0#32) ∧
      s.mem.SameOutside t.mem s.dst.toNat s.len.toNat ∧
      t = { okState s s.len 0#32 with mem := t.mem, bwtIdx := t.bwtIdx }

/-- R209, R211, R212: BWT_INV writes row BWT_IDX of the matrix for every y, with no error for a y no BWT_FWD produced, and
every other byte reads as before. -/
def Obligations.BwtInvWritesTheMatrixRow : Prop :=
  ∀ (s : State) (y : List Byte), s.len.toNat ≤ s.params.bwtMaxLen → BlockOperands s →
    (0 < s.len.toNat → s.bwtIdx.toNat < s.len.toNat) → y.length = s.len.toNat → s.mem.Holds s.src.toNat y →
    ∃ t z, exec .bwtInv s = .next t ∧ MatrixRow y s.bwtIdx.toNat z ∧ t.mem.Holds s.dst.toNat z ∧
      s.mem.SameOutside t.mem s.dst.toNat s.len.toNat ∧ t = { okState s s.len 0#32 with mem := t.mem }

/-- R210: for every y and idx, the row of the matrix that R209 defines is what the closed form gives: s lists the positions
of y in stable order of their bytes, and byte k is y at the (k+1)-th position of the walk along s from idx; with the example
that excludes the backwards walk. -/
def Obligations.MatrixInverseEqualsClosedForm : Prop :=
  (∀ (y z : List Byte) (s : List Nat) (idx : Nat), idx < y.length → s.Perm (List.range y.length) →
    (s.Pairwise fun i j =>
      (y.getD i 0#8).toNat < (y.getD j 0#8).toNat ∨ (y.getD i 0#8).toNat = (y.getD j 0#8).toNat ∧ i < j) →
    MatrixRow y idx z →
    ∃ j : Nat → Nat, j 0 = idx ∧ ∀ k, k < y.length → s[j k]? = some (j (k + 1)) ∧ z[k]? = y[j (k + 1)]?) ∧
  (∀ z, MatrixRow [0x61#8, 0x62#8, 0x61#8] 1 z → z = [0x61#8, 0x62#8, 0x61#8])

/-- R213: BWT_FWD and then BWT_INV on its output writes the input back, and the output is a permutation of the input. -/
def Obligations.BwtRoundTrip : Prop :=
  ∀ (s t : State) (x : List Byte) (d : Word), s.len.toNat ≤ s.params.bwtMaxLen → BlockOperands s →
    x.length = s.len.toNat → s.mem.Holds s.src.toNat x → exec .bwtFwd s = .next t →
    BlockOperands { t with src := s.dst, dst := d } →
    (∃ y, y.Perm x ∧ t.mem.Holds s.dst.toNat y) ∧
    ∃ u, exec .bwtInv { t with src := s.dst, dst := d } = .next u ∧ u.err = s.err ∧ u.mem.Holds d.toNat x

/-- R201, R208: the operand errors of the BWT commands, each command's in their order: LEN_RANGE, ADDR_RANGE, OVERLAP, and
for BWT_INV IDX_RANGE. The words are those of R143. -/
def Obligations.BwtErrorsInOrder : Prop :=
  decode 0x00000001#32 = .command .bwtFwd ∧ decode 0x00000002#32 = .command .bwtInv ∧
  ∀ s : State,
    (s.params.bwtMaxLen < s.len.toNat →
      exec .bwtFwd s = .next (errState s .lenRange) ∧ exec .bwtInv s = .next (errState s .lenRange)) ∧
    (s.len.toNat ≤ s.params.bwtMaxLen → ¬ (InMem s s.src.toNat s.len.toNat ∧ InMem s s.dst.toNat s.len.toNat) →
      exec .bwtFwd s = .next (errState s .addrRange) ∧ exec .bwtInv s = .next (errState s .addrRange)) ∧
    (s.len.toNat ≤ s.params.bwtMaxLen → InMem s s.src.toNat s.len.toNat → InMem s s.dst.toNat s.len.toNat →
      ¬ Apart s.src.toNat s.len.toNat s.dst.toNat s.len.toNat → s.src ≠ s.dst →
      exec .bwtFwd s = .next (errState s .overlap) ∧ exec .bwtInv s = .next (errState s .overlap)) ∧
    (s.len.toNat ≤ s.params.bwtMaxLen → BlockOperands s → 0 < s.len.toNat → s.len.toNat ≤ s.bwtIdx.toNat →
      exec .bwtInv s = .next (errState s .idxRange))

/-! ### MTF -/

/-- R230, R231, R232: the MTF commands. Their errors in order; and over readable operands MTF_ENC writes the ranks of the
input bytes, MTF_DEC the bytes whose ranks the input is, LEN bytes at DST; everything else is unchanged. -/
def Obligations.MtfCommandsComplete : Prop :=
  decode 0x00000003#32 = .command .mtfEnc ∧ decode 0x00000004#32 = .command .mtfDec ∧
  ∀ s : State,
    (¬ (InMem s s.src.toNat s.len.toNat ∧ InMem s s.dst.toNat s.len.toNat) →
      exec .mtfEnc s = .next (errState s .addrRange) ∧ exec .mtfDec s = .next (errState s .addrRange)) ∧
    (InMem s s.src.toNat s.len.toNat → InMem s s.dst.toNat s.len.toNat →
      ¬ Apart s.src.toNat s.len.toNat s.dst.toNat s.len.toNat → s.src ≠ s.dst →
      exec .mtfEnc s = .next (errState s .overlap) ∧ exec .mtfDec s = .next (errState s .overlap)) ∧
    (∀ x : List Byte, BlockOperands s → x.length = s.len.toNat → s.mem.Holds s.src.toNat x →
      (∃ t y, exec .mtfEnc s = .next t ∧ MtfRelated y x ∧ t.mem.Holds s.dst.toNat y ∧
        s.mem.SameOutside t.mem s.dst.toNat s.len.toNat ∧ t = { okState s s.len 0#32 with mem := t.mem }) ∧
      (∃ t y, exec .mtfDec s = .next t ∧ MtfRelated x y ∧ t.mem.Holds s.dst.toNat y ∧
        s.mem.SameOutside t.mem s.dst.toNat s.len.toNat ∧ t = { okState s s.len 0#32 with mem := t.mem }))

/-- R233: MTF_DEC applied to the output of MTF_ENC on b writes b, for every byte list b. -/
def Obligations.MtfInvolution : Prop :=
  ∀ (s t : State) (b : List Byte) (d : Word), BlockOperands s → b.length = s.len.toNat → s.mem.Holds s.src.toNat b →
    exec .mtfEnc s = .next t → BlockOperands { t with src := s.dst, dst := d } →
    ∃ u, exec .mtfDec { t with src := s.dst, dst := d } = .next u ∧ u.err = s.err ∧ u.mem.Holds d.toNat b

/-! ### HUF_BUILD -/

/-- R250, R251, R259, R60: HUF_BUILD's one error; and over a readable input it counts every byte value, builds a model whose
leaves are exactly the byte values that occur, each once, sets USIZE and predicts the output size; it writes no MEM byte, and
nothing else changes. -/
def Obligations.HufBuildBuildsTheModel : Prop :=
  decode 0x00000005#32 = .command .hufBuild ∧
  ∀ s : State,
    (¬ InMem s s.src.toNat s.len.toNat → exec .hufBuild s = .next (errState s .addrRange)) ∧
    (∀ x : List Byte, InMem s s.src.toNat s.len.toNat → x.length = s.len.toNat → s.mem.Holds s.src.toNat x →
      ∃ t, exec .hufBuild s = .next t ∧ (∀ b, (t.freq.at b).toNat = x.count b) ∧
        t.tree ≠ .invalid ∧ (t.tree = .empty ↔ x = []) ∧ t.tree.leaves.Nodup ∧ (∀ b, b ∈ t.tree.leaves ↔ b ∈ x) ∧
        t = { okState s (BitVec.ofNat 32 (ceil8 (predictedBits t.tree x))) (BitVec.ofNat 32 (predictedBits t.tree x)) with
              tree := t.tree, freq := t.freq, usize := s.len })

/-- R252, R257, R258: HUF_BUILD starts from one entry for each byte value that occurs, ascending, merges while two entries
are left, and loads the last entry's tree; one distinct value gives its leaf, no input the empty model. -/
def Obligations.HufBuildMergesToTheRoot : Prop :=
  ∀ (s t : State) (x : List Byte), InMem s s.src.toNat s.len.toNat → x.length = s.len.toNat → s.mem.Holds s.src.toNat x →
    exec .hufBuild s = .next t →
    (x = [] → t.tree = .empty) ∧
    (∀ c, x ≠ [] → (∀ b ∈ x, b = c) → t.tree = .tree (.leaf c)) ∧
    (x ≠ [] → ∃ (E : Nat → List Occurrence) (k : Nat) (e : Occurrence),
      E 0 = (((List.range 256).map (BitVec.ofNat 8)).filter (· ∈ x)).map (fun b => ⟨x.count b, [b], .leaf b⟩) ∧
      (∀ j, j < k → 2 ≤ (E j).length ∧ E (j + 1) = mergeOnce (E j)) ∧ E k = [e] ∧ t.tree = .tree e.tree)

/-- R253: selection takes the lowest index among the entries with the smallest count, leaving out the entry already
selected. -/
def Obligations.SelectionTakesTheLowestLeastCount : Prop :=
  ∀ (E : List Occurrence) (skip : Option Nat), (∃ i, i < E.length ∧ some i ≠ skip) →
    leastIndex skip E < E.length ∧ some (leastIndex skip E) ≠ skip ∧
    ∀ (i : Nat) (e a : Occurrence), some i ≠ skip → E[i]? = some e → E[leastIndex skip E]? = some a →
      a.count ≤ e.count ∧ (i < leastIndex skip E → a.count < e.count)

/-- R254, R255: one merge, entry by entry: the merged entry with the first selected as left child at position a, the last
entry moved to position b, one entry fewer. -/
def Obligations.MergePutsEveryEntryInItsPlace : Prop :=
  ∀ (E : List Occurrence) (a b : Nat) (ea eb : Occurrence), 2 ≤ E.length → a = leastIndex none E →
    b = leastIndex (some a) E → E[a]? = some ea → E[b]? = some eb →
    (mergeOnce E).length = E.length - 1 ∧
    ∀ i, i < E.length - 1 →
      (mergeOnce E)[i]? =
        if i = b then
          (if a = E.length - 1 then some ⟨ea.count + eb.count, ea.symbols ++ eb.symbols, .node ea.tree eb.tree⟩
            else E[E.length - 1]?)
        else if i = a then some ⟨ea.count + eb.count, ea.symbols ++ eb.symbols, .node ea.tree eb.tree⟩
        else E[i]?

/-- R260: HUF_BUILD reports the sum over the symbols of FREQ[s] * len(code(s)), and that is the number of bits ENT_ENC writes
for the same input. -/
def Obligations.PredictedSizeIsExact : Prop :=
  ∀ (s t : State) (x : List Byte), s.params.legal → InMem s s.src.toNat s.len.toNat → x.length = s.len.toNat →
    s.mem.Holds s.src.toNat x → exec .hufBuild s = .next t →
    t.outBits.toNat =
      ((List.range 256).map fun n => (t.freq.at (BitVec.ofNat 8 n)).toNat * codeLength t.tree (BitVec.ofNat 8 n)).sum ∧
    t.outLen.toNat = ceil8 t.outBits.toNat ∧
    ∀ d cap : Word, CoderOperands { t with dst := d, dstCap := cap } → t.outLen.toNat ≤ cap.toNat →
      ∃ u, exec .entEnc { t with dst := d, dstCap := cap } = .next u ∧ u.err = s.err ∧
        u.outLen = t.outLen ∧ u.outBits = t.outBits

/-! ### Codes -/

/-- R262, R16: the code of a leaf is the bit list from the root to it, 0 into a left child and 1 into a right child, empty
for a single leaf; a symbol that is no leaf has no code, nor has any symbol when TREE is EMPTY or INVALID. And R264(a): no
symbol's code is a prefix of another's. -/
def Obligations.CodeIsThePathToTheLeaf : Prop :=
  (∀ s : Byte, TreeState.invalid.code s = none ∧ TreeState.empty.code s = none) ∧
  (∀ c s : Byte, (TreeState.tree (.leaf c)).code s = if c = s then some [] else none) ∧
  (∀ (l r : CodeTree) (s : Byte) (b : Bool) (p : List Bool), (CodeTree.node l r).leaves.Nodup →
    ((TreeState.tree (.node l r)).code s = some (b :: p) ↔ (TreeState.tree (if b then r else l)).code s = some p) ∧
    (TreeState.tree (.node l r)).code s ≠ some []) ∧
  ∀ t : CodeTree, t.leaves.Nodup →
    (∀ s, (∃ p, (TreeState.tree t).code s = some p) ↔ s ∈ t.leaves) ∧
    (∀ a b p q, a ≠ b → (TreeState.tree t).code a = some p → (TreeState.tree t).code b = some q → ¬ p <+: q)

/-- R264, R260, R378(e): the codes of the model HUF_BUILD loads are prefix-free, a more frequent byte never has the longer
code, no prefix code on the input's bytes takes fewer bits than OUT_BITS reports, so at most 8 a byte, and no code is longer
than LEAF_COUNT - 1. -/
def Obligations.HuffmanCodesAreOptimal : Prop :=
  ∀ (s t : State) (x : List Byte), s.params.legal → InMem s s.src.toNat s.len.toNat → x.length = s.len.toNat →
    s.mem.Holds s.src.toNat x → exec .hufBuild s = .next t →
    (∀ a b p q, a ≠ b → t.tree.code a = some p → t.tree.code b = some q → ¬ p <+: q) ∧
    (∀ a ∈ x, ∀ b ∈ x, x.count a < x.count b → codeLength t.tree b ≤ codeLength t.tree a) ∧
    t.outBits.toNat = (x.map (codeLength t.tree)).sum ∧
    (∀ code, PrefixCode x code → t.outBits.toNat ≤ (x.map fun b => (code b).length).sum) ∧
    t.outBits.toNat ≤ 8 * s.len.toNat ∧
    (∀ a p, t.tree.code a = some p → p.length ≤ t.tree.leaves.length - 1 ∧ p.length ≤ 255)

/-! ### Tree codec -/

/-- R310, R313: TREE_SER writes the side channel: I, U, L and B little-endian, the leaves, the shape bits packed; every
other byte reads as before, and nothing else changes. -/
def Obligations.TreeSerWritesTheSideChannel : Prop :=
  ∀ s : State, InMem s s.dst.toNat s.dstCap.toNat → s.tree ≠ .invalid →
    12 + s.tree.leaves.length + ceil8 s.tree.shape.length ≤ s.dstCap.toNat →
    ∃ t, exec .treeSer s = .next t ∧
      t.mem.Holds s.dst.toNat
        (le32 s.bwtIdx ++ le32 s.usize ++ le16 s.tree.leaves.length ++ le16 s.tree.shape.length ++ s.tree.leaves
          ++ packBits s.tree.shape) ∧
      s.mem.SameOutside t.mem s.dst.toNat (12 + s.tree.leaves.length + ceil8 s.tree.shape.length) ∧
      t = { okState s (BitVec.ofNat 32 (12 + s.tree.leaves.length + ceil8 s.tree.shape.length))
              (BitVec.ofNat 32 s.tree.shape.length) with mem := t.mem }

/-- R312: the word of TREE_SER and its errors, in their order. -/
def Obligations.TreeSerErrorsInOrder : Prop :=
  decode 0x00000006#32 = .command .treeSer ∧
  ∀ s : State,
    (¬ InMem s s.dst.toNat s.dstCap.toNat → exec .treeSer s = .next (errState s .addrRange)) ∧
    (InMem s s.dst.toNat s.dstCap.toNat → s.tree = .invalid → exec .treeSer s = .next (errState s .noTree)) ∧
    (InMem s s.dst.toNat s.dstCap.toNat → s.tree ≠ .invalid →
      s.dstCap.toNat < 12 + s.tree.leaves.length + ceil8 s.tree.shape.length →
      exec .treeSer s = .next (errState s .capOverflow))

/-- R311, R11: the shape and the leaves of a tree in pre-order, 1 for a node and 0 for a leaf, so a tree with L leaves has
2L - 1 shape bits; a stream is read MSB-first, and packing puts bit k at position 7 - (k mod 8) of byte k div 8, with zero
pad, in ceil8 bytes. -/
def Obligations.ShapeBitsAndPacking : Prop :=
  (∀ c, (CodeTree.leaf c).shape = [false] ∧ (CodeTree.leaf c).leaves = [c]) ∧
  (∀ l r : CodeTree, (CodeTree.node l r).shape = true :: (l.shape ++ r.shape) ∧
    (CodeTree.node l r).leaves = l.leaves ++ r.leaves) ∧
  (TreeState.empty.shape = [] ∧ TreeState.empty.leaves = []) ∧
  (∀ t : CodeTree, t.shape.length = 2 * t.leaves.length - 1) ∧
  (∀ (bytes : List Byte) (n k : Nat), k < n →
    (streamBits bytes n)[k]? = some ((bytes.getD (k / 8) 0#8).getLsbD (7 - k % 8))) ∧
  (∀ bits : List Bool, (packBits bits).length = ceil8 bits.length ∧
    ∀ k, k < 8 * ceil8 bits.length → ((packBits bits).getD (k / 8) 0#8).getLsbD (7 - k % 8) = bits.getD k false)

/-- R317: a shape and a leaf list parse to T exactly when they are T's shape and leaves. -/
def Obligations.ShapeParseInvertsTheShape : Prop :=
  ∀ (bits : List Bool) (lv : List Byte) (t : CodeTree),
    treeOfShape bits lv = some t ↔ t.shape = bits ∧ t.leaves = lv

/-- R318, R316, R321: TREE_DES of any side channel of a legal model loads it, whatever the pad bits are and whatever follows,
written or not; it writes no MEM byte, and nothing else changes. After an error the model and the registers are the old
ones. That the bytes which follow may be unwritten is the model's reading (DEDUCED, log 10): R316 begins with
MemRead(SRC, LEN). -/
def Obligations.TreeDesLoadsAnyWellFormedSideChannel : Prop :=
  (∀ (s : State) (ts : TreeState) (idx usize : Word) (pad : List Byte), InMem s s.src.toNat s.len.toNat → ts ≠ .invalid →
    ts.wf → pad.length = ceil8 ts.shape.length → streamBits pad ts.shape.length = ts.shape →
    12 + ts.leaves.length + ceil8 ts.shape.length ≤ s.len.toNat →
    s.mem.Holds s.src.toNat
      (le32 idx ++ le32 usize ++ le16 ts.leaves.length ++ le16 ts.shape.length ++ ts.leaves ++ pad) →
    exec .treeDes s = .next
      { okState s (BitVec.ofNat 32 (12 + ts.leaves.length + ceil8 ts.shape.length)) (BitVec.ofNat 32 ts.shape.length) with
        tree := ts, freq := FreqTable.zero, bwtIdx := idx, usize := usize }) ∧
  (∀ b, FreqTable.zero.at b = 0#32) ∧
  (∀ s t : State, s.err = false → exec .treeDes s = .next t → t.err = true →
    t.tree = s.tree ∧ t.freq = s.freq ∧ t.bwtIdx = s.bwtIdx ∧ t.usize = s.usize ∧ t.mem = s.mem)

/-- R315, R316: a region outside MEM is ADDR_RANGE, and each format failure is TREE_FORMAT: no complete header; counts that do
not agree; a truncated body; two equal leaves; a shape that no tree with these leaves has. h is the header, lv the leaf
bytes and sh the shape bytes. That bytes which no check consults may be unwritten is the model's reading (DEDUCED, log 10):
R316 begins with MemRead(SRC, LEN). -/
def Obligations.TreeDesRejectsMalformedSideChannels : Prop :=
  decode 0x00000007#32 = .command .treeDes ∧
  ∀ (s : State) (h lv sh : List Byte) (L B : Nat),
    (¬ InMem s s.src.toNat s.len.toNat → exec .treeDes s = .next (errState s .addrRange)) ∧
    (InMem s s.src.toNat s.len.toNat → s.len.toNat < 12 → exec .treeDes s = .next (errState s .treeFormat)) ∧
    (InMem s s.src.toNat s.len.toNat → 12 ≤ s.len.toNat → h.length = 12 → s.mem.Holds s.src.toNat h →
      L = (h.getD 8 0#8).toNat + 256 * (h.getD 9 0#8).toNat → B = (h.getD 10 0#8).toNat + 256 * (h.getD 11 0#8).toNat →
      (256 < L ∨ (L = 0 ∧ B ≠ 0) ∨ (1 ≤ L ∧ B ≠ 2 * L - 1) ∨ s.len.toNat < 12 + L + ceil8 B →
        exec .treeDes s = .next (errState s .treeFormat)) ∧
      (lv.length = L → sh.length = ceil8 B → s.mem.Holds (s.src.toNat + 12) (lv ++ sh) →
        12 + L + ceil8 B ≤ s.len.toNat →
        (¬ lv.Nodup ∨ (1 ≤ L ∧ ∀ t : CodeTree, ¬ (t.shape = streamBits sh B ∧ t.leaves = lv))) →
        exec .treeDes s = .next (errState s .treeFormat)))

/-- R319: TREE_SER and then TREE_DES of its output bytes succeeds and restores TREE, BWT_IDX and USIZE, whatever model and
registers stood in between. -/
def Obligations.SideChannelRoundTrip : Prop :=
  ∀ (s t : State) (ts : TreeState) (f : FreqTable) (i u : Word), InMem s s.dst.toNat s.dstCap.toNat → s.tree ≠ .invalid →
    s.tree.wf → s.err = false → exec .treeSer s = .next t → t.err = false →
    ∃ v, exec .treeDes { t with src := s.dst, len := t.outLen, tree := ts, freq := f, bwtIdx := i, usize := u } = .next v ∧
      v.err = false ∧ v.tree = s.tree ∧ v.bwtIdx = s.bwtIdx ∧ v.usize = s.usize ∧ (∀ b, v.freq.at b = 0#32)

/-! ### Entropy coder -/

/-- R341: ENT_ENC writes the packed codes of its input, one after the other; every other byte reads as before, and nothing
else changes. code b is the code of byte b. -/
def Obligations.EntEncWritesThePackedCodes : Prop :=
  ∀ (s : State) (x : List Byte) (code : Byte → List Bool), CoderOperands s → s.tree ≠ .invalid → x.length = s.len.toNat →
    s.mem.Holds s.src.toNat x → (∀ b ∈ x, s.tree.code b = some (code b)) → ceil8 (x.flatMap code).length ≤ s.dstCap.toNat →
    ∃ t, exec .entEnc s = .next t ∧ t.mem.Holds s.dst.toNat (packBits (x.flatMap code)) ∧
      s.mem.SameOutside t.mem s.dst.toNat (ceil8 (x.flatMap code).length) ∧
      t = { okState s (BitVec.ofNat 32 (ceil8 (x.flatMap code).length)) (BitVec.ofNat 32 (x.flatMap code).length) with
            mem := t.mem }

/-- R350, R345: when the stream at SRC begins with the codes of x, one after the other, ENT_DEC with USIZE = len(x) writes x
and reports the bits consumed, whatever bits and bytes follow; every other byte reads as before, nothing else changes. -/
def Obligations.EntDecDecodesTheCodes : Prop :=
  ∀ (s : State) (x stream : List Byte) (code : Byte → List Bool), CoderOperands s → s.tree ≠ .invalid → s.tree.wf →
    s.usize.toNat = x.length → x.length ≤ s.dstCap.toNat → (∀ b ∈ x, s.tree.code b = some (code b)) →
    stream.length = ceil8 (x.flatMap code).length → stream.length ≤ s.len.toNat → s.mem.Holds s.src.toNat stream →
    streamBits stream (x.flatMap code).length = x.flatMap code →
    ∃ t, exec .entDec s = .next t ∧ t.mem.Holds s.dst.toNat x ∧ s.mem.SameOutside t.mem s.dst.toNat x.length ∧
      t = { okState s s.usize (BitVec.ofNat 32 (x.flatMap code).length) with mem := t.mem }

/-- R350: ENT_ENC of x, and then ENT_DEC, in any state that holds its output bytes at SRC with LEN their count, USIZE = len(x)
and the same TREE, writes x and reports the bits that ENT_ENC reported: right after it, or after TREE_SER and TREE_DES have
carried TREE. -/
def Obligations.EntropyRoundTrip : Prop :=
  ∀ (s t v : State) (x : List Byte), CoderOperands s → s.tree ≠ .invalid → s.tree.wf → s.err = false →
    x.length = s.len.toNat → s.mem.Holds s.src.toNat x → exec .entEnc s = .next t → t.err = false →
    CoderOperands v → v.tree = s.tree → v.usize = s.len → v.len = t.outLen → x.length ≤ v.dstCap.toNat →
    (∀ k, k < t.outLen.toNat → v.mem.read (v.src.toNat + k) = t.mem.read (s.dst.toNat + k)) →
    ∃ u, exec .entDec v = .next u ∧ u.err = v.err ∧ u.mem.Holds v.dst.toNat x ∧ u.outBits = t.outBits

/-- R346, R347: with a single-leaf tree ENT_DEC reads no bit and writes USIZE copies of the leaf, and with USIZE = 0 it writes
nothing for any TREE other than INVALID, whatever LEN is and whatever stands at SRC. -/
def Obligations.EntDecWhereNoBitIsRead : Prop :=
  (∀ (s : State) (c : Byte), CoderOperands s → s.tree = .tree (.leaf c) → s.usize.toNat ≤ s.dstCap.toNat →
    ∃ t, exec .entDec s = .next t ∧ t.mem.Holds s.dst.toNat (List.replicate s.usize.toNat c) ∧
      s.mem.SameOutside t.mem s.dst.toNat s.usize.toNat ∧ t = { okState s s.usize 0#32 with mem := t.mem }) ∧
  (∀ s : State, CoderOperands s → s.tree ≠ .invalid → s.usize = 0#32 → exec .entDec s = .next (okState s 0#32 0#32))

/-- R349: at success ENT_DEC has written exactly USIZE bytes, each a leaf of TREE, and OUT_BITS is the sum of the lengths of
their codes, at most 8 * LEN. -/
def Obligations.EntDecCountsItsBits : Prop :=
  ∀ (s t : State), s.tree.wf → s.params.legal → s.err = false → exec .entDec s = .next t → t.err = false →
    ∃ y : List Byte, y.length = s.usize.toNat ∧ t.mem.Holds s.dst.toNat y ∧
      s.mem.SameOutside t.mem s.dst.toNat s.usize.toNat ∧ (∀ b ∈ y, b ∈ s.tree.leaves) ∧
      t.outLen = s.usize ∧ t.outBits.toNat = (y.map (codeLength s.tree)).sum ∧ t.outBits.toNat ≤ 8 * s.len.toNat

/-- R340, R344: the errors of the entropy coder, each command's in their order. The walk of R345 fails exactly where no USIZE
symbols have their codes, one after the other, at the front of the 8 * LEN stream bits. -/
def Obligations.EntropyCoderErrorsInOrder : Prop :=
  decode 0x00000008#32 = .command .entEnc ∧ decode 0x00000009#32 = .command .entDec ∧
  ∀ (s : State) (x : List Byte) (code : Byte → List Bool),
    (¬ (InMem s s.src.toNat s.len.toNat ∧ InMem s s.dst.toNat s.dstCap.toNat) →
      exec .entEnc s = .next (errState s .addrRange) ∧ exec .entDec s = .next (errState s .addrRange)) ∧
    (InMem s s.src.toNat s.len.toNat → InMem s s.dst.toNat s.dstCap.toNat →
      ¬ Apart s.src.toNat s.len.toNat s.dst.toNat s.dstCap.toNat →
      exec .entEnc s = .next (errState s .overlap) ∧ exec .entDec s = .next (errState s .overlap)) ∧
    (CoderOperands s → s.tree = .invalid →
      exec .entEnc s = .next (errState s .noTree) ∧ exec .entDec s = .next (errState s .noTree)) ∧
    (CoderOperands s → s.tree ≠ .invalid → x.length = s.len.toNat → s.mem.Holds s.src.toNat x →
      ((∃ b ∈ x, s.tree.code b = none) → exec .entEnc s = .next (errState s .symAbsent)) ∧
      ((∀ b ∈ x, s.tree.code b = some (code b)) → s.dstCap.toNat < ceil8 (x.flatMap code).length →
        exec .entEnc s = .next (errState s .capOverflow))) ∧
    (CoderOperands s → s.tree ≠ .invalid → s.dstCap.toNat < s.usize.toNat →
      exec .entDec s = .next (errState s .capOverflow)) ∧
    (CoderOperands s → s.usize.toNat ≤ s.dstCap.toNat → s.tree = .empty → 0 < s.usize.toNat →
      exec .entDec s = .next (errState s .decodeFail)) ∧
    (∀ l r, CoderOperands s → s.usize.toNat ≤ s.dstCap.toNat → s.tree = .tree (.node l r) → s.tree.wf →
      x.length = s.len.toNat → s.mem.Holds s.src.toNat x →
      (∀ y : List Byte, y.length = s.usize.toNat → (∀ b ∈ y, s.tree.code b = some (code b)) →
        ¬ y.flatMap code <+: streamBits x (8 * s.len.toNat)) →
      (∀ b ∈ s.tree.leaves, s.tree.code b = some (code b)) →
      exec .entDec s = .next (errState s .decodeFail))

/-! ### The machine as a whole -/

/-- The invariant holds at reset. -/
def Obligations.InvariantHoldsAtReset : Prop := MachineInv State.reset

/-- Every step keeps the invariant, from every state that has it. -/
def Obligations.EveryStepKeepsTheInvariant : Prop :=
  ∀ s t : State, MachineInv s → step s = .next t → MachineInv t

/-- R60, R61: only HUF_BUILD, TREE_DES and a reset write TREE and FREQ: in any other step both stay. -/
def Obligations.OnlyModelCommandsAndResetsWriteTheModel : Prop :=
  ∀ s t : State, step s = .next t → (t.tree ≠ s.tree ∨ t.freq ≠ s.freq) →
    (s.busy = true ∧ (s.inbox = [] ∨ s.inbox.head? = some .complete) ∧
      (decode s.cmd = .command .hufBuild ∨ decode s.cmd = .command .treeDes)) ∨
    s.inbox.head? = some .powerOn ∨ ∃ x, s.inbox.head? = some (.bus x) ∧ IsSoftReset x

/-- R175, R179: a successful command writes exactly the bytes [DST, DST + OUT_LEN), and HUF_BUILD, TREE_DES, NOP and every
error write none; every other byte of MEM reads as before. -/
def Obligations.CommandsWriteOnlyTheirOutput : Prop :=
  ∀ (i : Instr) (s t : State), exec i s = .next t →
    (i ∈ [.nop, .hufBuild, .treeDes] → t.mem = s.mem) ∧
    (s.err = false → t.err = true → t.mem = s.mem) ∧
    (i ∉ [.nop, .hufBuild, .treeDes] → s.err = false → t.err = false →
      s.mem.SameOutside t.mem s.dst.toNat t.outLen.toNat ∧ t.mem.Written s.dst.toNat t.outLen.toNat)

/-- The model's stops, by name. A command whose operand checks pass stops at the first byte that it consults and that nothing has
written: the first such byte of its input; for TREE_DES of the header, and once the header's counts agree, of the leaf and
shape bytes; for ENT_DEC with an internal node the byte x.length, when the bits of the written bytes x before it hold no
USIZE codes. A host read of an idle core stops there too. R413, R384 and U1 recommend the fault; which bytes are consulted
is the model's reading (log 3, DESIGN CHOICE; logs 10, 11, 12, DEDUCED). A transaction that starts outside its window, or
that is aligned and runs past MEM_SIZE, stops by name, BUSY or not (R101; log 7, DESIGN CHOICE). -/
def Obligations.UnwrittenAndUndecodedAccessesStop : Prop :=
  (∀ (s : State) (k : Nat), k < s.len.toNat → s.mem.Written s.src.toNat k → s.mem.read (s.src.toNat + k) = none →
    (s.len.toNat ≤ s.params.bwtMaxLen → BlockOperands s →
      exec .bwtFwd s = .fault (.unwrittenRead (s.src.toNat + k)) ∧
      (s.bwtIdx.toNat < s.len.toNat → exec .bwtInv s = .fault (.unwrittenRead (s.src.toNat + k)))) ∧
    (BlockOperands s →
      exec .mtfEnc s = .fault (.unwrittenRead (s.src.toNat + k)) ∧
      exec .mtfDec s = .fault (.unwrittenRead (s.src.toNat + k))) ∧
    (InMem s s.src.toNat s.len.toNat → exec .hufBuild s = .fault (.unwrittenRead (s.src.toNat + k))) ∧
    (CoderOperands s → s.tree ≠ .invalid → s.tree ≠ .empty →
      exec .entEnc s = .fault (.unwrittenRead (s.src.toNat + k))) ∧
    (InMem s s.src.toNat s.len.toNat → 12 ≤ s.len.toNat → k < 12 →
      exec .treeDes s = .fault (.unwrittenRead (s.src.toNat + k))) ∧
    (∀ (h : List Byte) (L B : Nat), InMem s s.src.toNat s.len.toNat → h.length = 12 → s.mem.Holds s.src.toNat h →
      L = (h.getD 8 0#8).toNat + 256 * (h.getD 9 0#8).toNat → B = (h.getD 10 0#8).toNat + 256 * (h.getD 11 0#8).toNat →
      L ≤ 256 → ((L = 0 ∧ B = 0) ∨ (1 ≤ L ∧ B = 2 * L - 1)) → 12 + L + ceil8 B ≤ s.len.toNat →
      k < 12 + L + ceil8 B → exec .treeDes s = .fault (.unwrittenRead (s.src.toNat + k)))) ∧
  (∀ (s : State) (l r : CodeTree) (x : List Byte) (code : Byte → List Bool), CoderOperands s →
    s.usize.toNat ≤ s.dstCap.toNat → s.tree = .tree (.node l r) → s.tree.wf →
    (∀ b ∈ s.tree.leaves, s.tree.code b = some (code b)) → x.length < s.len.toNat → s.mem.Holds s.src.toNat x →
    s.mem.read (s.src.toNat + x.length) = none →
    (∀ y : List Byte, y.length = s.usize.toNat → (∀ b ∈ y, s.tree.code b = some (code b)) →
      ¬ y.flatMap code <+: streamBits x (8 * x.length)) →
    exec .entDec s = .fault (.unwrittenRead (s.src.toNat + x.length))) ∧
  (∀ (s : State) (a w k : Nat), s.busy = false → (w = 1 ∨ w = 2 ∨ w = 4) → a % w = 0 → a + w ≤ s.params.memSize → k < w →
    s.mem.Written a k → s.mem.read (a + k) = none → hostAccess (mrTxn w a) s = .fault (.unwrittenRead (a + k))) ∧
  (∀ (s : State) (x : Txn), windowSize s.params x.window ≤ x.offset →
    hostAccess x s = .fault (.outsideWindow x.window x.offset)) ∧
  (∀ (s : State) (x : Txn), x.window = .mem → x.wf → x.offset < s.params.memSize →
    s.params.memSize < x.offset + x.width → hostAccess x s = .fault (.outsideWindow .mem s.params.memSize))
end

