-- ==== Sys2Proof/Laws/Memory.lean ====
section
/-! SUPPORT. What the operations over MEM do: one byte, byte lists, and that every operation keeps the canonical form. -/

namespace Sys2Proof.Machine

@[simp] theorem Memory.read_nil (a : Nat) : Memory.read [] a = none := rfl

/-! ### One byte -/

/-- A byte written reads back. -/
@[simp] theorem Memory.read_write_same (m : Memory) (a : Nat) (b : Byte) : (m.write a b).read a = some b := by
  induction m with
  | nil => simp [Memory.write, Memory.read]
  | cons c rest ih =>
    obtain ⟨k, v⟩ := c
    simp only [Memory.write]
    split
    · simp [Memory.read]
    · split
      · simp [Memory.read]
      · rename_i h1 h2
        simp [Memory.read, Ne.symm h2, ih]

/-- A write leaves every other byte alone. -/
theorem Memory.read_write_ne (m : Memory) (a c : Nat) (b : Byte) (h : c ≠ a) : (m.write a b).read c = m.read c := by
  induction m with
  | nil => simp [Memory.write, Memory.read, Ne.symm h, Memory.unlisted]
  | cons d rest ih =>
    obtain ⟨k, v⟩ := d
    simp only [Memory.write]
    split
    · simp [Memory.read, Ne.symm h]
    · split
      · rename_i h2
        simp [Memory.read, Ne.symm h, ← h2]
      · simp only [Memory.read, ih]

/-- The entries of a written memory. -/
theorem Memory.mem_write {m : Memory} {a : Nat} {b : Byte} {c : Host.Cell} (h : c ∈ m.write a b) : c = (a, b) ∨ c ∈ m := by
  induction m with
  | nil => simpa [Memory.write] using h
  | cons d rest ih =>
    obtain ⟨k, v⟩ := d
    simp only [Memory.write] at h
    split at h
    · simpa using h
    · split at h
      · simp only [List.mem_cons] at h ⊢
        tauto
      · simp only [List.mem_cons] at h ⊢
        rcases h with h | h
        · exact .inr (.inl h)
        · rcases ih h with h | h
          · exact .inl h
          · exact .inr (.inr h)

/-- A write keeps the canonical form. -/
theorem Memory.write_wf {m : Memory} (a : Nat) (b : Byte) (h : m.wf) : (m.write a b).wf := by
  induction m with
  | nil => simp [Memory.write, Memory.wf]
  | cons d rest ih =>
    obtain ⟨k, v⟩ := d
    obtain ⟨h1, h2⟩ := List.pairwise_cons.mp h
    simp only [Memory.write]
    split
    · rename_i hk
      refine List.pairwise_cons.mpr ⟨?_, h⟩
      intro c hc
      rcases List.mem_cons.mp hc with rfl | hc
      · exact hk
      · exact hk.trans (h1 c hc)
    · split
      · rename_i hk
        exact List.pairwise_cons.mpr ⟨fun c hc => by simpa [hk] using h1 c hc, h2⟩
      · refine List.pairwise_cons.mpr ⟨fun c hc => ?_, ih h2⟩
        rcases Memory.mem_write hc with rfl | hc
        · simp only; omega
        · exact h1 c hc

/-- In a canonical memory an entry is what its address reads as. -/
theorem Memory.read_of_mem {m : Memory} (h : m.wf) {a : Nat} {b : Byte} (hc : (a, b) ∈ m) : m.read a = some b := by
  induction m with
  | nil => cases hc
  | cons d rest ih =>
    obtain ⟨k, v⟩ := d
    obtain ⟨h1, h2⟩ := List.pairwise_cons.mp h
    rcases List.mem_cons.mp hc with e | hc
    · cases e; simp [Memory.read]
    · have : k < a := h1 _ hc
      simp [Memory.read, Nat.ne_of_lt this, ih h2 hc]

/-- A byte that reads as a value is listed. -/
theorem Memory.mem_of_read {m : Memory} {a : Nat} {b : Byte} (h : m.read a = some b) : (a, b) ∈ m := by
  induction m with
  | nil => simp at h
  | cons d rest ih =>
    obtain ⟨k, v⟩ := d
    simp only [Memory.read] at h
    split at h
    · rename_i hk; subst hk; cases h; simp
    · exact List.mem_cons_of_mem _ (ih h)

/-! ### Byte lists -/

@[simp] theorem Memory.writeBytes_nil (m : Memory) (a : Nat) : m.writeBytes a [] = m := rfl

/-- A byte-list write leaves every byte outside its region alone. -/
theorem Memory.read_writeBytes_outside (m : Memory) (a c : Nat) (bs : List Byte) (h : c < a ∨ a + bs.length ≤ c) :
    (m.writeBytes a bs).read c = m.read c := by
  induction bs generalizing m a with
  | nil => rfl
  | cons b bs ih =>
    simp only [List.length_cons] at h
    rw [Memory.writeBytes, ih _ _ (by omega), Memory.read_write_ne _ _ _ _ (by omega)]

/-- A byte list written reads back. -/
theorem Memory.holds_writeBytes (m : Memory) (a : Nat) (bs : List Byte) : (m.writeBytes a bs).Holds a bs := by
  induction bs generalizing m a with
  | nil => intro k hk; simp at hk
  | cons b bs ih =>
    intro k hk
    cases k with
    | zero =>
      rw [Memory.writeBytes, Memory.read_writeBytes_outside _ _ _ _ (by omega), Nat.add_zero, Memory.read_write_same]
      rfl
    | succ k =>
      simp only [List.length_cons, Nat.add_lt_add_iff_right] at hk
      have := ih (m.write a b) (a + 1) k hk
      rw [Memory.writeBytes, List.getElem?_cons_succ, ← this]
      congr 1; omega

/-- A byte-list write leaves the bytes outside its region alone, in the words of the claims. -/
theorem Memory.sameOutside_writeBytes (m : Memory) (a n : Nat) (bs : List Byte) (h : bs.length ≤ n) :
    m.SameOutside (m.writeBytes a bs) a n :=
  fun c hc => Memory.read_writeBytes_outside m a c bs (by omega)

/-- A byte-list write keeps the canonical form. -/
theorem Memory.writeBytes_wf {m : Memory} (a : Nat) (bs : List Byte) (h : m.wf) : (m.writeBytes a bs).wf := by
  induction bs generalizing m a with
  | nil => exact h
  | cons b bs ih => exact ih _ (Memory.write_wf a b h)

/-- The entries of a memory after a byte-list write. -/
theorem Memory.mem_writeBytes {m : Memory} {a : Nat} {bs : List Byte} {c : Host.Cell} (h : c ∈ m.writeBytes a bs) :
    (a ≤ c.1 ∧ c.1 < a + bs.length) ∨ c ∈ m := by
  induction bs generalizing m a with
  | nil => exact .inr h
  | cons b bs ih =>
    simp only [List.length_cons]
    rcases ih h with h | h
    · left; omega
    · rcases Memory.mem_write h with rfl | h
      · left; simp only; omega
      · exact .inr h

/-- Every byte of MEM[a ..] that holds a byte list has been written. -/
theorem Memory.Holds.written {m : Memory} {a : Nat} {x : List Byte} (h : m.Holds a x) : m.Written a x.length := by
  intro k hk
  rw [h k hk, List.getElem?_eq_getElem hk]
  simp

/-- Only the bytes of the region matter to what it holds. -/
theorem Memory.Holds.congr {m m' : Memory} {a : Nat} {x : List Byte} (h : m.Holds a x)
    (e : ∀ k, k < x.length → m'.read (a + k) = m.read (a + k)) : m'.Holds a x :=
  fun k hk => (e k hk).trans (h k hk)

/-- What MEM holds is determined: two lists of one length held at one place are equal. -/
theorem Memory.Holds.unique {m : Memory} {a : Nat} {x y : List Byte} (hx : m.Holds a x) (hy : m.Holds a y)
    (h : x.length = y.length) : x = y := by
  apply List.ext_getElem? ; intro k
  by_cases hk : k < x.length
  · rw [← hx k hk, ← hy k (h ▸ hk)]
  · rw [List.getElem?_eq_none (by omega), List.getElem?_eq_none (by omega)]

/-- MEM holds a concatenation exactly when it holds the parts, one after the other. -/
theorem Memory.holds_append {m : Memory} {a : Nat} {x y : List Byte} :
    m.Holds a (x ++ y) ↔ m.Holds a x ∧ m.Holds (a + x.length) y := by
  constructor
  · intro h
    refine ⟨fun k hk => ?_, fun k hk => ?_⟩
    · rw [h k (by simp; omega), List.getElem?_append_left hk]
    · rw [Nat.add_assoc, h (x.length + k) (by simp; omega), List.getElem?_append_right (by omega)]
      congr 1; omega
  · rintro ⟨h1, h2⟩ k hk
    by_cases hx : k < x.length
    · rw [h1 k hx, List.getElem?_append_left hx]
    · have := h2 (k - x.length) (by simp at hk; omega)
      rw [List.getElem?_append_right (by omega), ← this]
      congr 1; omega

/-- A read of a byte list that MEM holds. -/
theorem Memory.readBytes_of_holds {m : Memory} {a n : Nat} {x : List Byte} (h : m.Holds a x) (hn : x.length = n) :
    m.readBytes a n = .ok x := by
  induction x generalizing a n with
  | nil => subst hn; rfl
  | cons b x ih =>
    subst hn
    have h0 := h 0 (by simp)
    simp only [Nat.add_zero, List.getElem?_cons_zero] at h0
    have h1 : m.Holds (a + 1) x := fun k hk => by
      have := h (k + 1) (by simpa using hk)
      rw [List.getElem?_cons_succ] at this
      rw [← this]; congr 1; omega
    simp only [List.length_cons, Memory.readBytes, h0, ih h1 rfl]

/-- What a read answers, MEM holds. -/
theorem Memory.holds_of_readBytes {m : Memory} {a n : Nat} {x : List Byte} (h : m.readBytes a n = .ok x) :
    x.length = n ∧ m.Holds a x := by
  induction n generalizing a x with
  | zero => cases h; exact ⟨rfl, fun k hk => by simp at hk⟩
  | succ n ih =>
    simp only [Memory.readBytes] at h
    split at h
    · cases h
    · rename_i b hb
      split at h
      · rename_i bs hbs
        cases h
        obtain ⟨h1, h2⟩ := ih hbs
        refine ⟨by simp [h1], fun k hk => ?_⟩
        cases k with
        | zero => simpa using hb
        | succ k =>
          rw [List.getElem?_cons_succ, ← h2 k (by simpa using hk)]
          congr 1; omega
      · cases h

/-- A read that fails names the first byte of the region that nothing has written. -/
theorem Memory.readBytes_error_iff {m : Memory} {a n e : Nat} :
    m.readBytes a n = .error e ↔ ∃ k, k < n ∧ e = a + k ∧ m.Written a k ∧ m.read (a + k) = none := by
  induction n generalizing a with
  | zero => simp [Memory.readBytes]
  | succ n ih =>
    simp only [Memory.readBytes]
    cases hb : m.read a with
    | none =>
      simp only [Except.error.injEq]
      constructor
      · rintro rfl; exact ⟨0, by omega, rfl, fun k hk => absurd hk (by omega), hb⟩
      · rintro ⟨k, _, rfl, hw, _⟩
        cases k with
        | zero => rfl
        | succ k => exact absurd hb (hw 0 (by omega))
    | some b =>
      have key : (∃ k, k < n + 1 ∧ e = a + k ∧ m.Written a k ∧ m.read (a + k) = none) ↔
          ∃ k, k < n ∧ e = a + 1 + k ∧ m.Written (a + 1) k ∧ m.read (a + 1 + k) = none := by
        constructor
        · rintro ⟨k, hk, rfl, hw, hn⟩
          cases k with
          | zero => simp [hb] at hn
          | succ k =>
            refine ⟨k, by omega, by omega, fun j hj => ?_, by rw [← hn]; congr 1; omega⟩
            have := hw (j + 1) (by omega)
            rwa [show a + 1 + j = a + (j + 1) by omega]
        · rintro ⟨k, hk, rfl, hw, hn⟩
          refine ⟨k + 1, by omega, by omega, fun j hj => ?_, by rw [← hn]; congr 1; omega⟩
          cases j with
          | zero => simp [hb]
          | succ j =>
            have := hw j (by omega)
            rwa [show a + (j + 1) = a + 1 + j by omega]
      rw [key, ← ih]
      cases h : m.readBytes (a + 1) n <;> simp

/-- A region that has been written reads as some byte list. -/
theorem Memory.readBytes_of_written {m : Memory} {a n : Nat} (h : m.Written a n) :
    ∃ x, m.readBytes a n = .ok x ∧ x.length = n ∧ m.Holds a x := by
  cases hr : m.readBytes a n with
  | ok x => exact ⟨x, rfl, Memory.holds_of_readBytes hr⟩
  | error e =>
    obtain ⟨k, hk, _, _, hn⟩ := Memory.readBytes_error_iff.mp hr
    exact absurd hn (h k hk)

/-- A read depends only on the bytes of its region. -/
theorem Memory.readBytes_congr {m m' : Memory} {a n : Nat} (h : ∀ k, k < n → m.read (a + k) = m'.read (a + k)) :
    m.readBytes a n = m'.readBytes a n := by
  induction n generalizing a with
  | zero => rfl
  | succ n ih =>
    have h0 := h 0 (by omega)
    have h1 : m.readBytes (a + 1) n = m'.readBytes (a + 1) n := ih fun k hk => by
      have := h (k + 1) (by omega)
      rwa [show a + 1 + k = a + (k + 1) by omega]
    simp only [Nat.add_zero] at h0
    simp only [Memory.readBytes, h0, h1]

@[simp] theorem freeBytes_length (k n : Nat) : (freeBytes k n).length = n := by simp [freeBytes]

/-- The memory of the reset state has the canonical form. -/
theorem State.reset_mem_wf : State.reset.mem.wf := List.Pairwise.nil

end Sys2Proof.Machine
end

