-- ==== Sys2Proof/Laws/State.lean ====
section
/-! SUPPORT. For every update of the state, one lemma per field: what the update writes, and that it keeps every other field. A
proof about an update cites these and never unfolds a record update. -/

namespace Sys2Proof.Machine

/-! The effects of a success (R175). -/

@[simp] theorem applyOk_params (e : Effects) (s : State) : (applyOk e s).params = s.params := rfl
@[simp] theorem applyOk_irqEn (e : Effects) (s : State) : (applyOk e s).irqEn = s.irqEn := rfl
@[simp] theorem applyOk_cmd (e : Effects) (s : State) : (applyOk e s).cmd = s.cmd := rfl
@[simp] theorem applyOk_busy (e : Effects) (s : State) : (applyOk e s).busy = s.busy := rfl
@[simp] theorem applyOk_done (e : Effects) (s : State) : (applyOk e s).done = s.done := rfl
@[simp] theorem applyOk_err (e : Effects) (s : State) : (applyOk e s).err = s.err := rfl
@[simp] theorem applyOk_errCode (e : Effects) (s : State) : (applyOk e s).errCode = s.errCode := rfl
@[simp] theorem applyOk_lastOp (e : Effects) (s : State) : (applyOk e s).lastOp = s.lastOp := rfl
@[simp] theorem applyOk_cmdDone (e : Effects) (s : State) : (applyOk e s).cmdDone = s.cmdDone := rfl
@[simp] theorem applyOk_wbusy (e : Effects) (s : State) : (applyOk e s).wbusy = s.wbusy := rfl
@[simp] theorem applyOk_mbusy (e : Effects) (s : State) : (applyOk e s).mbusy = s.mbusy := rfl
@[simp] theorem applyOk_src (e : Effects) (s : State) : (applyOk e s).src = s.src := rfl
@[simp] theorem applyOk_len (e : Effects) (s : State) : (applyOk e s).len = s.len := rfl
@[simp] theorem applyOk_dst (e : Effects) (s : State) : (applyOk e s).dst = s.dst := rfl
@[simp] theorem applyOk_dstCap (e : Effects) (s : State) : (applyOk e s).dstCap = s.dstCap := rfl
@[simp] theorem applyOk_bwtIdx (e : Effects) (s : State) : (applyOk e s).bwtIdx = updateWord s.bwtIdx e.bwtIdx := rfl
@[simp] theorem applyOk_usize (e : Effects) (s : State) : (applyOk e s).usize = updateWord s.usize e.usize := rfl
@[simp] theorem applyOk_outLen (e : Effects) (s : State) : (applyOk e s).outLen = BitVec.ofNat 32 e.outLen := rfl
@[simp] theorem applyOk_outBits (e : Effects) (s : State) : (applyOk e s).outBits = BitVec.ofNat 32 e.outBits := rfl
@[simp] theorem applyOk_codeqSym (e : Effects) (s : State) : (applyOk e s).codeqSym = s.codeqSym := rfl
@[simp] theorem applyOk_tree (e : Effects) (s : State) : (applyOk e s).tree = (e.model.map Prod.fst).getD s.tree := rfl
@[simp] theorem applyOk_freq (e : Effects) (s : State) : (applyOk e s).freq = (e.model.map Prod.snd).getD s.freq := rfl
@[simp] theorem applyOk_mem (e : Effects) (s : State) : (applyOk e s).mem = s.mem.writeBytes e.dst e.out := rfl
@[simp] theorem applyOk_inbox (e : Effects) (s : State) : (applyOk e s).inbox = s.inbox := rfl
@[simp] theorem applyOk_reply (e : Effects) (s : State) : (applyOk e s).reply = s.reply := rfl
@[simp] theorem applyOk_draws (e : Effects) (s : State) : (applyOk e s).draws = s.draws := rfl

/-! The effects of an error (R177). -/

@[simp] theorem applyError_params (c : ErrCode) (s : State) : (applyError c s).params = s.params := rfl
@[simp] theorem applyError_irqEn (c : ErrCode) (s : State) : (applyError c s).irqEn = s.irqEn := rfl
@[simp] theorem applyError_cmd (c : ErrCode) (s : State) : (applyError c s).cmd = s.cmd := rfl
@[simp] theorem applyError_busy (c : ErrCode) (s : State) : (applyError c s).busy = s.busy := rfl
@[simp] theorem applyError_done (c : ErrCode) (s : State) : (applyError c s).done = s.done := rfl
@[simp] theorem applyError_err (c : ErrCode) (s : State) : (applyError c s).err = true := rfl
@[simp] theorem applyError_errCode (c : ErrCode) (s : State) : (applyError c s).errCode = c.number := rfl
@[simp] theorem applyError_lastOp (c : ErrCode) (s : State) : (applyError c s).lastOp = s.lastOp := rfl
@[simp] theorem applyError_cmdDone (c : ErrCode) (s : State) : (applyError c s).cmdDone = s.cmdDone := rfl
@[simp] theorem applyError_wbusy (c : ErrCode) (s : State) : (applyError c s).wbusy = s.wbusy := rfl
@[simp] theorem applyError_mbusy (c : ErrCode) (s : State) : (applyError c s).mbusy = s.mbusy := rfl
@[simp] theorem applyError_src (c : ErrCode) (s : State) : (applyError c s).src = s.src := rfl
@[simp] theorem applyError_len (c : ErrCode) (s : State) : (applyError c s).len = s.len := rfl
@[simp] theorem applyError_dst (c : ErrCode) (s : State) : (applyError c s).dst = s.dst := rfl
@[simp] theorem applyError_dstCap (c : ErrCode) (s : State) : (applyError c s).dstCap = s.dstCap := rfl
@[simp] theorem applyError_bwtIdx (c : ErrCode) (s : State) : (applyError c s).bwtIdx = s.bwtIdx := rfl
@[simp] theorem applyError_usize (c : ErrCode) (s : State) : (applyError c s).usize = s.usize := rfl
@[simp] theorem applyError_outLen (c : ErrCode) (s : State) : (applyError c s).outLen = 0#32 := rfl
@[simp] theorem applyError_outBits (c : ErrCode) (s : State) : (applyError c s).outBits = 0#32 := rfl
@[simp] theorem applyError_codeqSym (c : ErrCode) (s : State) : (applyError c s).codeqSym = s.codeqSym := rfl
@[simp] theorem applyError_tree (c : ErrCode) (s : State) : (applyError c s).tree = s.tree := rfl
@[simp] theorem applyError_freq (c : ErrCode) (s : State) : (applyError c s).freq = s.freq := rfl
@[simp] theorem applyError_mem (c : ErrCode) (s : State) : (applyError c s).mem = s.mem := rfl
@[simp] theorem applyError_inbox (c : ErrCode) (s : State) : (applyError c s).inbox = s.inbox := rfl
@[simp] theorem applyError_reply (c : ErrCode) (s : State) : (applyError c s).reply = s.reply := rfl
@[simp] theorem applyError_draws (c : ErrCode) (s : State) : (applyError c s).draws = s.draws := rfl

/-! The end of the Complete step (R173). -/

@[simp] theorem finish_params (s : State) : (finish s).params = s.params := rfl
@[simp] theorem finish_irqEn (s : State) : (finish s).irqEn = s.irqEn := rfl
@[simp] theorem finish_cmd (s : State) : (finish s).cmd = s.cmd := rfl
@[simp] theorem finish_busy (s : State) : (finish s).busy = false := rfl
@[simp] theorem finish_done (s : State) : (finish s).done = true := rfl
@[simp] theorem finish_err (s : State) : (finish s).err = s.err := rfl
@[simp] theorem finish_errCode (s : State) : (finish s).errCode = s.errCode := rfl
@[simp] theorem finish_lastOp (s : State) : (finish s).lastOp = s.lastOp := rfl
@[simp] theorem finish_cmdDone (s : State) : (finish s).cmdDone = true := rfl
@[simp] theorem finish_wbusy (s : State) : (finish s).wbusy = s.wbusy := rfl
@[simp] theorem finish_mbusy (s : State) : (finish s).mbusy = s.mbusy := rfl
@[simp] theorem finish_src (s : State) : (finish s).src = s.src := rfl
@[simp] theorem finish_len (s : State) : (finish s).len = s.len := rfl
@[simp] theorem finish_dst (s : State) : (finish s).dst = s.dst := rfl
@[simp] theorem finish_dstCap (s : State) : (finish s).dstCap = s.dstCap := rfl
@[simp] theorem finish_bwtIdx (s : State) : (finish s).bwtIdx = s.bwtIdx := rfl
@[simp] theorem finish_usize (s : State) : (finish s).usize = s.usize := rfl
@[simp] theorem finish_outLen (s : State) : (finish s).outLen = s.outLen := rfl
@[simp] theorem finish_outBits (s : State) : (finish s).outBits = s.outBits := rfl
@[simp] theorem finish_codeqSym (s : State) : (finish s).codeqSym = s.codeqSym := rfl
@[simp] theorem finish_tree (s : State) : (finish s).tree = s.tree := rfl
@[simp] theorem finish_freq (s : State) : (finish s).freq = s.freq := rfl
@[simp] theorem finish_mem (s : State) : (finish s).mem = s.mem := rfl
@[simp] theorem finish_inbox (s : State) : (finish s).inbox = s.inbox := rfl
@[simp] theorem finish_reply (s : State) : (finish s).reply = s.reply := rfl
@[simp] theorem finish_draws (s : State) : (finish s).draws = s.draws := rfl

/-! The record of a success (R173, R175). -/

@[simp] theorem okState_params (s : State) (a b : Word) : (okState s a b).params = s.params := rfl
@[simp] theorem okState_irqEn (s : State) (a b : Word) : (okState s a b).irqEn = s.irqEn := rfl
@[simp] theorem okState_cmd (s : State) (a b : Word) : (okState s a b).cmd = s.cmd := rfl
@[simp] theorem okState_busy (s : State) (a b : Word) : (okState s a b).busy = false := rfl
@[simp] theorem okState_done (s : State) (a b : Word) : (okState s a b).done = true := rfl
@[simp] theorem okState_err (s : State) (a b : Word) : (okState s a b).err = s.err := rfl
@[simp] theorem okState_errCode (s : State) (a b : Word) : (okState s a b).errCode = s.errCode := rfl
@[simp] theorem okState_lastOp (s : State) (a b : Word) : (okState s a b).lastOp = s.lastOp := rfl
@[simp] theorem okState_cmdDone (s : State) (a b : Word) : (okState s a b).cmdDone = true := rfl
@[simp] theorem okState_wbusy (s : State) (a b : Word) : (okState s a b).wbusy = s.wbusy := rfl
@[simp] theorem okState_mbusy (s : State) (a b : Word) : (okState s a b).mbusy = s.mbusy := rfl
@[simp] theorem okState_src (s : State) (a b : Word) : (okState s a b).src = s.src := rfl
@[simp] theorem okState_len (s : State) (a b : Word) : (okState s a b).len = s.len := rfl
@[simp] theorem okState_dst (s : State) (a b : Word) : (okState s a b).dst = s.dst := rfl
@[simp] theorem okState_dstCap (s : State) (a b : Word) : (okState s a b).dstCap = s.dstCap := rfl
@[simp] theorem okState_bwtIdx (s : State) (a b : Word) : (okState s a b).bwtIdx = s.bwtIdx := rfl
@[simp] theorem okState_usize (s : State) (a b : Word) : (okState s a b).usize = s.usize := rfl
@[simp] theorem okState_outLen (s : State) (a b : Word) : (okState s a b).outLen = a := rfl
@[simp] theorem okState_outBits (s : State) (a b : Word) : (okState s a b).outBits = b := rfl
@[simp] theorem okState_codeqSym (s : State) (a b : Word) : (okState s a b).codeqSym = s.codeqSym := rfl
@[simp] theorem okState_tree (s : State) (a b : Word) : (okState s a b).tree = s.tree := rfl
@[simp] theorem okState_freq (s : State) (a b : Word) : (okState s a b).freq = s.freq := rfl
@[simp] theorem okState_mem (s : State) (a b : Word) : (okState s a b).mem = s.mem := rfl
@[simp] theorem okState_inbox (s : State) (a b : Word) : (okState s a b).inbox = s.inbox := rfl
@[simp] theorem okState_reply (s : State) (a b : Word) : (okState s a b).reply = s.reply := rfl
@[simp] theorem okState_draws (s : State) (a b : Word) : (okState s a b).draws = s.draws := rfl

/-! The record of an error (R372). -/

@[simp] theorem errState_params (s : State) (c : ErrCode) : (errState s c).params = s.params := rfl
@[simp] theorem errState_irqEn (s : State) (c : ErrCode) : (errState s c).irqEn = s.irqEn := rfl
@[simp] theorem errState_cmd (s : State) (c : ErrCode) : (errState s c).cmd = s.cmd := rfl
@[simp] theorem errState_busy (s : State) (c : ErrCode) : (errState s c).busy = false := rfl
@[simp] theorem errState_done (s : State) (c : ErrCode) : (errState s c).done = true := rfl
@[simp] theorem errState_err (s : State) (c : ErrCode) : (errState s c).err = true := rfl
@[simp] theorem errState_errCode (s : State) (c : ErrCode) : (errState s c).errCode = c.number := rfl
@[simp] theorem errState_lastOp (s : State) (c : ErrCode) : (errState s c).lastOp = s.lastOp := rfl
@[simp] theorem errState_cmdDone (s : State) (c : ErrCode) : (errState s c).cmdDone = true := rfl
@[simp] theorem errState_wbusy (s : State) (c : ErrCode) : (errState s c).wbusy = s.wbusy := rfl
@[simp] theorem errState_mbusy (s : State) (c : ErrCode) : (errState s c).mbusy = s.mbusy := rfl
@[simp] theorem errState_src (s : State) (c : ErrCode) : (errState s c).src = s.src := rfl
@[simp] theorem errState_len (s : State) (c : ErrCode) : (errState s c).len = s.len := rfl
@[simp] theorem errState_dst (s : State) (c : ErrCode) : (errState s c).dst = s.dst := rfl
@[simp] theorem errState_dstCap (s : State) (c : ErrCode) : (errState s c).dstCap = s.dstCap := rfl
@[simp] theorem errState_bwtIdx (s : State) (c : ErrCode) : (errState s c).bwtIdx = s.bwtIdx := rfl
@[simp] theorem errState_usize (s : State) (c : ErrCode) : (errState s c).usize = s.usize := rfl
@[simp] theorem errState_outLen (s : State) (c : ErrCode) : (errState s c).outLen = 0#32 := rfl
@[simp] theorem errState_outBits (s : State) (c : ErrCode) : (errState s c).outBits = 0#32 := rfl
@[simp] theorem errState_codeqSym (s : State) (c : ErrCode) : (errState s c).codeqSym = s.codeqSym := rfl
@[simp] theorem errState_tree (s : State) (c : ErrCode) : (errState s c).tree = s.tree := rfl
@[simp] theorem errState_freq (s : State) (c : ErrCode) : (errState s c).freq = s.freq := rfl
@[simp] theorem errState_mem (s : State) (c : ErrCode) : (errState s c).mem = s.mem := rfl
@[simp] theorem errState_inbox (s : State) (c : ErrCode) : (errState s c).inbox = s.inbox := rfl
@[simp] theorem errState_reply (s : State) (c : ErrCode) : (errState s c).reply = s.reply := rfl
@[simp] theorem errState_draws (s : State) (c : ErrCode) : (errState s c).draws = s.draws := rfl

/-! Acceptance (R170). -/

@[simp] theorem accept_params (w : Word) (s : State) : (accept w s).params = s.params := rfl
@[simp] theorem accept_irqEn (w : Word) (s : State) : (accept w s).irqEn = s.irqEn := rfl
@[simp] theorem accept_cmd (w : Word) (s : State) : (accept w s).cmd = w := rfl
@[simp] theorem accept_busy (w : Word) (s : State) : (accept w s).busy = true := rfl
@[simp] theorem accept_done (w : Word) (s : State) : (accept w s).done = false := rfl
@[simp] theorem accept_err (w : Word) (s : State) : (accept w s).err = false := rfl
@[simp] theorem accept_errCode (w : Word) (s : State) : (accept w s).errCode = 0#8 := rfl
@[simp] theorem accept_lastOp (w : Word) (s : State) : (accept w s).lastOp = w.extractLsb' 0 8 := rfl
@[simp] theorem accept_cmdDone (w : Word) (s : State) : (accept w s).cmdDone = s.cmdDone := rfl
@[simp] theorem accept_wbusy (w : Word) (s : State) : (accept w s).wbusy = s.wbusy := rfl
@[simp] theorem accept_mbusy (w : Word) (s : State) : (accept w s).mbusy = s.mbusy := rfl
@[simp] theorem accept_src (w : Word) (s : State) : (accept w s).src = s.src := rfl
@[simp] theorem accept_len (w : Word) (s : State) : (accept w s).len = s.len := rfl
@[simp] theorem accept_dst (w : Word) (s : State) : (accept w s).dst = s.dst := rfl
@[simp] theorem accept_dstCap (w : Word) (s : State) : (accept w s).dstCap = s.dstCap := rfl
@[simp] theorem accept_bwtIdx (w : Word) (s : State) : (accept w s).bwtIdx = s.bwtIdx := rfl
@[simp] theorem accept_usize (w : Word) (s : State) : (accept w s).usize = s.usize := rfl
@[simp] theorem accept_outLen (w : Word) (s : State) : (accept w s).outLen = s.outLen := rfl
@[simp] theorem accept_outBits (w : Word) (s : State) : (accept w s).outBits = s.outBits := rfl
@[simp] theorem accept_codeqSym (w : Word) (s : State) : (accept w s).codeqSym = s.codeqSym := rfl
@[simp] theorem accept_tree (w : Word) (s : State) : (accept w s).tree = s.tree := rfl
@[simp] theorem accept_freq (w : Word) (s : State) : (accept w s).freq = s.freq := rfl
@[simp] theorem accept_mem (w : Word) (s : State) : (accept w s).mem = s.mem := rfl
@[simp] theorem accept_inbox (w : Word) (s : State) : (accept w s).inbox = s.inbox := rfl
@[simp] theorem accept_reply (w : Word) (s : State) : (accept w s).reply = s.reply := rfl
@[simp] theorem accept_draws (w : Word) (s : State) : (accept w s).draws = s.draws := rfl

/-! A write to EVENTS (R38). -/

@[simp] theorem clearEvents_params (v : Word) (s : State) : (clearEvents v s).params = s.params := rfl
@[simp] theorem clearEvents_irqEn (v : Word) (s : State) : (clearEvents v s).irqEn = s.irqEn := rfl
@[simp] theorem clearEvents_cmd (v : Word) (s : State) : (clearEvents v s).cmd = s.cmd := rfl
@[simp] theorem clearEvents_busy (v : Word) (s : State) : (clearEvents v s).busy = s.busy := rfl
@[simp] theorem clearEvents_done (v : Word) (s : State) : (clearEvents v s).done = s.done := rfl
@[simp] theorem clearEvents_err (v : Word) (s : State) : (clearEvents v s).err = s.err := rfl
@[simp] theorem clearEvents_errCode (v : Word) (s : State) : (clearEvents v s).errCode = s.errCode := rfl
@[simp] theorem clearEvents_lastOp (v : Word) (s : State) : (clearEvents v s).lastOp = s.lastOp := rfl
@[simp] theorem clearEvents_cmdDone (v : Word) (s : State) : (clearEvents v s).cmdDone = (s.cmdDone && !v.getLsbD 0) := rfl
@[simp] theorem clearEvents_wbusy (v : Word) (s : State) : (clearEvents v s).wbusy = (s.wbusy && !v.getLsbD 1) := rfl
@[simp] theorem clearEvents_mbusy (v : Word) (s : State) : (clearEvents v s).mbusy = (s.mbusy && !v.getLsbD 2) := rfl
@[simp] theorem clearEvents_src (v : Word) (s : State) : (clearEvents v s).src = s.src := rfl
@[simp] theorem clearEvents_len (v : Word) (s : State) : (clearEvents v s).len = s.len := rfl
@[simp] theorem clearEvents_dst (v : Word) (s : State) : (clearEvents v s).dst = s.dst := rfl
@[simp] theorem clearEvents_dstCap (v : Word) (s : State) : (clearEvents v s).dstCap = s.dstCap := rfl
@[simp] theorem clearEvents_bwtIdx (v : Word) (s : State) : (clearEvents v s).bwtIdx = s.bwtIdx := rfl
@[simp] theorem clearEvents_usize (v : Word) (s : State) : (clearEvents v s).usize = s.usize := rfl
@[simp] theorem clearEvents_outLen (v : Word) (s : State) : (clearEvents v s).outLen = s.outLen := rfl
@[simp] theorem clearEvents_outBits (v : Word) (s : State) : (clearEvents v s).outBits = s.outBits := rfl
@[simp] theorem clearEvents_codeqSym (v : Word) (s : State) : (clearEvents v s).codeqSym = s.codeqSym := rfl
@[simp] theorem clearEvents_tree (v : Word) (s : State) : (clearEvents v s).tree = s.tree := rfl
@[simp] theorem clearEvents_freq (v : Word) (s : State) : (clearEvents v s).freq = s.freq := rfl
@[simp] theorem clearEvents_mem (v : Word) (s : State) : (clearEvents v s).mem = s.mem := rfl
@[simp] theorem clearEvents_inbox (v : Word) (s : State) : (clearEvents v s).inbox = s.inbox := rfl
@[simp] theorem clearEvents_reply (v : Word) (s : State) : (clearEvents v s).reply = s.reply := rfl
@[simp] theorem clearEvents_draws (v : Word) (s : State) : (clearEvents v s).draws = s.draws := rfl

/-! A dropped register write (R55). -/

@[simp] theorem refuseWrite_params (s : State) : (refuseWrite s).params = s.params := rfl
@[simp] theorem refuseWrite_irqEn (s : State) : (refuseWrite s).irqEn = s.irqEn := rfl
@[simp] theorem refuseWrite_cmd (s : State) : (refuseWrite s).cmd = s.cmd := rfl
@[simp] theorem refuseWrite_busy (s : State) : (refuseWrite s).busy = s.busy := rfl
@[simp] theorem refuseWrite_done (s : State) : (refuseWrite s).done = s.done := rfl
@[simp] theorem refuseWrite_err (s : State) : (refuseWrite s).err = s.err := rfl
@[simp] theorem refuseWrite_errCode (s : State) : (refuseWrite s).errCode = s.errCode := rfl
@[simp] theorem refuseWrite_lastOp (s : State) : (refuseWrite s).lastOp = s.lastOp := rfl
@[simp] theorem refuseWrite_cmdDone (s : State) : (refuseWrite s).cmdDone = s.cmdDone := rfl
@[simp] theorem refuseWrite_wbusy (s : State) : (refuseWrite s).wbusy = true := rfl
@[simp] theorem refuseWrite_mbusy (s : State) : (refuseWrite s).mbusy = s.mbusy := rfl
@[simp] theorem refuseWrite_src (s : State) : (refuseWrite s).src = s.src := rfl
@[simp] theorem refuseWrite_len (s : State) : (refuseWrite s).len = s.len := rfl
@[simp] theorem refuseWrite_dst (s : State) : (refuseWrite s).dst = s.dst := rfl
@[simp] theorem refuseWrite_dstCap (s : State) : (refuseWrite s).dstCap = s.dstCap := rfl
@[simp] theorem refuseWrite_bwtIdx (s : State) : (refuseWrite s).bwtIdx = s.bwtIdx := rfl
@[simp] theorem refuseWrite_usize (s : State) : (refuseWrite s).usize = s.usize := rfl
@[simp] theorem refuseWrite_outLen (s : State) : (refuseWrite s).outLen = s.outLen := rfl
@[simp] theorem refuseWrite_outBits (s : State) : (refuseWrite s).outBits = s.outBits := rfl
@[simp] theorem refuseWrite_codeqSym (s : State) : (refuseWrite s).codeqSym = s.codeqSym := rfl
@[simp] theorem refuseWrite_tree (s : State) : (refuseWrite s).tree = s.tree := rfl
@[simp] theorem refuseWrite_freq (s : State) : (refuseWrite s).freq = s.freq := rfl
@[simp] theorem refuseWrite_mem (s : State) : (refuseWrite s).mem = s.mem := rfl
@[simp] theorem refuseWrite_inbox (s : State) : (refuseWrite s).inbox = s.inbox := rfl
@[simp] theorem refuseWrite_reply (s : State) : (refuseWrite s).reply = s.reply := rfl
@[simp] theorem refuseWrite_draws (s : State) : (refuseWrite s).draws = s.draws := rfl

/-! The bus response (log 9). -/

@[simp] theorem answer_params (r : Reply) (s : State) : (answer r s).params = s.params := rfl
@[simp] theorem answer_irqEn (r : Reply) (s : State) : (answer r s).irqEn = s.irqEn := rfl
@[simp] theorem answer_cmd (r : Reply) (s : State) : (answer r s).cmd = s.cmd := rfl
@[simp] theorem answer_busy (r : Reply) (s : State) : (answer r s).busy = s.busy := rfl
@[simp] theorem answer_done (r : Reply) (s : State) : (answer r s).done = s.done := rfl
@[simp] theorem answer_err (r : Reply) (s : State) : (answer r s).err = s.err := rfl
@[simp] theorem answer_errCode (r : Reply) (s : State) : (answer r s).errCode = s.errCode := rfl
@[simp] theorem answer_lastOp (r : Reply) (s : State) : (answer r s).lastOp = s.lastOp := rfl
@[simp] theorem answer_cmdDone (r : Reply) (s : State) : (answer r s).cmdDone = s.cmdDone := rfl
@[simp] theorem answer_wbusy (r : Reply) (s : State) : (answer r s).wbusy = s.wbusy := rfl
@[simp] theorem answer_mbusy (r : Reply) (s : State) : (answer r s).mbusy = s.mbusy := rfl
@[simp] theorem answer_src (r : Reply) (s : State) : (answer r s).src = s.src := rfl
@[simp] theorem answer_len (r : Reply) (s : State) : (answer r s).len = s.len := rfl
@[simp] theorem answer_dst (r : Reply) (s : State) : (answer r s).dst = s.dst := rfl
@[simp] theorem answer_dstCap (r : Reply) (s : State) : (answer r s).dstCap = s.dstCap := rfl
@[simp] theorem answer_bwtIdx (r : Reply) (s : State) : (answer r s).bwtIdx = s.bwtIdx := rfl
@[simp] theorem answer_usize (r : Reply) (s : State) : (answer r s).usize = s.usize := rfl
@[simp] theorem answer_outLen (r : Reply) (s : State) : (answer r s).outLen = s.outLen := rfl
@[simp] theorem answer_outBits (r : Reply) (s : State) : (answer r s).outBits = s.outBits := rfl
@[simp] theorem answer_codeqSym (r : Reply) (s : State) : (answer r s).codeqSym = s.codeqSym := rfl
@[simp] theorem answer_tree (r : Reply) (s : State) : (answer r s).tree = s.tree := rfl
@[simp] theorem answer_freq (r : Reply) (s : State) : (answer r s).freq = s.freq := rfl
@[simp] theorem answer_mem (r : Reply) (s : State) : (answer r s).mem = s.mem := rfl
@[simp] theorem answer_inbox (r : Reply) (s : State) : (answer r s).inbox = s.inbox := rfl
@[simp] theorem answer_reply (r : Reply) (s : State) : (answer r s).reply = some r := rfl
@[simp] theorem answer_draws (r : Reply) (s : State) : (answer r s).draws = s.draws := rfl

/-! Every stored register at reset (R411, R412). -/

@[simp] theorem resetRegisters_params (m : Memory) (s : State) : (resetRegisters m s).params = s.params := rfl
@[simp] theorem resetRegisters_irqEn (m : Memory) (s : State) : (resetRegisters m s).irqEn = State.reset.irqEn := rfl
@[simp] theorem resetRegisters_cmd (m : Memory) (s : State) : (resetRegisters m s).cmd = State.reset.cmd := rfl
@[simp] theorem resetRegisters_busy (m : Memory) (s : State) : (resetRegisters m s).busy = State.reset.busy := rfl
@[simp] theorem resetRegisters_done (m : Memory) (s : State) : (resetRegisters m s).done = State.reset.done := rfl
@[simp] theorem resetRegisters_err (m : Memory) (s : State) : (resetRegisters m s).err = State.reset.err := rfl
@[simp] theorem resetRegisters_errCode (m : Memory) (s : State) : (resetRegisters m s).errCode = State.reset.errCode := rfl
@[simp] theorem resetRegisters_lastOp (m : Memory) (s : State) : (resetRegisters m s).lastOp = State.reset.lastOp := rfl
@[simp] theorem resetRegisters_cmdDone (m : Memory) (s : State) : (resetRegisters m s).cmdDone = State.reset.cmdDone := rfl
@[simp] theorem resetRegisters_wbusy (m : Memory) (s : State) : (resetRegisters m s).wbusy = State.reset.wbusy := rfl
@[simp] theorem resetRegisters_mbusy (m : Memory) (s : State) : (resetRegisters m s).mbusy = State.reset.mbusy := rfl
@[simp] theorem resetRegisters_src (m : Memory) (s : State) : (resetRegisters m s).src = State.reset.src := rfl
@[simp] theorem resetRegisters_len (m : Memory) (s : State) : (resetRegisters m s).len = State.reset.len := rfl
@[simp] theorem resetRegisters_dst (m : Memory) (s : State) : (resetRegisters m s).dst = State.reset.dst := rfl
@[simp] theorem resetRegisters_dstCap (m : Memory) (s : State) : (resetRegisters m s).dstCap = State.reset.dstCap := rfl
@[simp] theorem resetRegisters_bwtIdx (m : Memory) (s : State) : (resetRegisters m s).bwtIdx = State.reset.bwtIdx := rfl
@[simp] theorem resetRegisters_usize (m : Memory) (s : State) : (resetRegisters m s).usize = State.reset.usize := rfl
@[simp] theorem resetRegisters_outLen (m : Memory) (s : State) : (resetRegisters m s).outLen = State.reset.outLen := rfl
@[simp] theorem resetRegisters_outBits (m : Memory) (s : State) : (resetRegisters m s).outBits = State.reset.outBits := rfl
@[simp] theorem resetRegisters_codeqSym (m : Memory) (s : State) : (resetRegisters m s).codeqSym = State.reset.codeqSym := rfl
@[simp] theorem resetRegisters_tree (m : Memory) (s : State) : (resetRegisters m s).tree = State.reset.tree := rfl
@[simp] theorem resetRegisters_freq (m : Memory) (s : State) : (resetRegisters m s).freq = State.reset.freq := rfl
@[simp] theorem resetRegisters_mem (m : Memory) (s : State) : (resetRegisters m s).mem = m := rfl
@[simp] theorem resetRegisters_inbox (m : Memory) (s : State) : (resetRegisters m s).inbox = s.inbox := rfl
@[simp] theorem resetRegisters_reply (m : Memory) (s : State) : (resetRegisters m s).reply = s.reply := rfl
@[simp] theorem resetRegisters_draws (m : Memory) (s : State) : (resetRegisters m s).draws = s.draws := rfl

end Sys2Proof.Machine
end

