-- ==== Sys2Proof/Laws/Ops.lean ====
section
/-! SUPPORT. What the shared operations can do: the operand checks, the read of an input, and the end of a command. A proof
about a command cites these and never unfolds them. -/

namespace Sys2Proof.Machine

/-! ### Operand checks -/

theorem regionValid_iff (p : Params) (a l : Nat) : regionValid p a l = true ↔ l = 0 ∨ a + l ≤ p.memSize := by
  simp [regionValid]

theorem regionsOverlap_iff (a la b lb : Nat) : regionsOverlap a la b lb = true ↔ ¬ Apart a la b lb := by
  simp only [regionsOverlap, decide_eq_true_eq, Apart]; omega

theorem blockLenOk_iff (s : State) : blockLenOk s = true ↔ s.len.toNat ≤ s.params.bwtMaxLen := by simp [blockLenOk]

theorem blockIdxOk_iff (s : State) : blockIdxOk s = true ↔ (0 < s.len.toNat → s.bwtIdx.toNat < s.len.toNat) := by
  simp only [blockIdxOk, Bool.not_eq_true', decide_eq_false_iff_not]; omega

/-- A command with its checks over operands holding goes on to what it computes. -/
theorem checked_of_none {i : Instr} {s : State} {k : Verdict} (h : firstFailing (operandChecks i s) = none) :
    checked i s k = k := by simp [checked, h]

/-- A command whose operand checks fail answers the first failing check. -/
theorem checked_of_some {i : Instr} {s : State} {k : Verdict} {c : ErrCode} (h : firstFailing (operandChecks i s) = some c) :
    checked i s k = .err c := by simp [checked, h]

/-- What `checked` can answer. -/
theorem checked_cases (i : Instr) (s : State) (k : Verdict) :
    (firstFailing (operandChecks i s) = none ∧ checked i s k = k) ∨
      ∃ c, firstFailing (operandChecks i s) = some c ∧ checked i s k = .err c := by
  cases h : firstFailing (operandChecks i s) with
  | none => exact .inl ⟨rfl, checked_of_none h⟩
  | some c => exact .inr ⟨c, rfl, checked_of_some h⟩

/-- A command that succeeds passed its operand checks. -/
theorem checked_eq_ok {i : Instr} {s : State} {k : Verdict} {e : Effects} (h : checked i s k = .ok e) :
    firstFailing (operandChecks i s) = none ∧ k = .ok e := by
  rcases checked_cases i s k with ⟨h1, h2⟩ | ⟨c, _, h2⟩ <;> rw [h2] at h
  · exact ⟨h1, h⟩
  · cases h

/-- A command that consults an unwritten byte passed its operand checks. -/
theorem checked_eq_unwritten {i : Instr} {s : State} {k : Verdict} {a : Nat} (h : checked i s k = .unwritten a) :
    firstFailing (operandChecks i s) = none ∧ k = .unwritten a := by
  rcases checked_cases i s k with ⟨h1, h2⟩ | ⟨c, _, h2⟩ <;> rw [h2] at h
  · exact ⟨h1, h⟩
  · cases h

@[simp] theorem firstFailing_nil : firstFailing [] = none := rfl

@[simp] theorem firstFailing_cons (b : Bool) (c : ErrCode) (l : List (Bool × ErrCode)) :
    firstFailing ((b, c) :: l) = if b then firstFailing l else some c := rfl

/-- The operand checks all hold exactly when none fails. -/
theorem firstFailing_eq_none_iff (l : List (Bool × ErrCode)) : firstFailing l = none ↔ ∀ e ∈ l, e.1 = true := by
  induction l with
  | nil => simp
  | cons e l ih =>
    obtain ⟨b, c⟩ := e
    cases b <;> simp [ih]

theorem overlapPermitted_block_iff {i : Instr} (s : State) (h : i ∈ [.bwtFwd, .bwtInv, .mtfEnc, .mtfDec]) :
    overlapPermitted i s = true ↔
      (Apart s.src.toNat s.len.toNat s.dst.toNat s.len.toNat ∨ s.src = s.dst) := by
  have e : overlapPermitted i s = (!regionsOverlap s.src.toNat s.len.toNat s.dst.toNat s.len.toNat || s.src == s.dst) := by
    simp only [List.mem_cons, List.not_mem_nil, or_false] at h
    rcases h with rfl | rfl | rfl | rfl <;> rfl
  rw [e, Bool.or_eq_true, Bool.not_eq_true', ← Bool.not_eq_true, regionsOverlap_iff, not_not, beq_iff_eq]

theorem overlapPermitted_coder_iff {i : Instr} (s : State) (h : i ∈ [.entEnc, .entDec]) :
    overlapPermitted i s = true ↔ Apart s.src.toNat s.len.toNat s.dst.toNat s.dstCap.toNat := by
  have e : overlapPermitted i s = !regionsOverlap s.src.toNat s.len.toNat s.dst.toNat s.dstCap.toNat := by
    simp only [List.mem_cons, List.not_mem_nil, or_false] at h
    rcases h with rfl | rfl <;> rfl
  rw [e, Bool.not_eq_true', ← Bool.not_eq_true, regionsOverlap_iff, not_not]

theorem inputOk_iff (i : Instr) (s : State) : inputOk i s = true ↔ InMem s (inputRegion i s).1 (inputRegion i s).2 :=
  regionValid_iff _ _ _

theorem footprintOk_iff (i : Instr) (s : State) : footprintOk i s = true ↔ InMem s (footprint i s).1 (footprint i s).2 :=
  regionValid_iff _ _ _

/-- BWT_FWD's operand checks (R201). -/
theorem operandChecks_bwtFwd_none_iff (s : State) :
    firstFailing (operandChecks .bwtFwd s) = none ↔ s.len.toNat ≤ s.params.bwtMaxLen ∧ BlockOperands s := by
  simp only [firstFailing_eq_none_iff, operandChecks, List.forall_mem_cons, List.not_mem_nil, false_imp_iff, implies_true,
    and_true, blockLenOk_iff, inputOk_iff, footprintOk_iff, overlapPermitted_block_iff s (i := .bwtFwd) (by simp), inputRegion,
    footprint, BlockOperands]

/-- BWT_INV's operand checks (R208). -/
theorem operandChecks_bwtInv_none_iff (s : State) :
    firstFailing (operandChecks .bwtInv s) = none ↔
      s.len.toNat ≤ s.params.bwtMaxLen ∧ BlockOperands s ∧ (0 < s.len.toNat → s.bwtIdx.toNat < s.len.toNat) := by
  simp only [firstFailing_eq_none_iff, operandChecks, List.forall_mem_cons, List.not_mem_nil, false_imp_iff, implies_true,
    and_true, blockLenOk_iff, inputOk_iff, footprintOk_iff, overlapPermitted_block_iff s (i := .bwtInv) (by simp), inputRegion,
    footprint, BlockOperands, blockIdxOk_iff, and_assoc]

/-- MTF_ENC's operand checks (R231). -/
theorem operandChecks_mtfEnc_none_iff (s : State) :
    firstFailing (operandChecks .mtfEnc s) = none ↔ BlockOperands s := by
  simp only [firstFailing_eq_none_iff, operandChecks, List.forall_mem_cons, List.not_mem_nil, false_imp_iff, implies_true,
    and_true, inputOk_iff, footprintOk_iff, overlapPermitted_block_iff s (i := .mtfEnc) (by simp), inputRegion, footprint,
    BlockOperands]

/-- MTF_DEC's operand checks (R232). -/
theorem operandChecks_mtfDec_none_iff (s : State) :
    firstFailing (operandChecks .mtfDec s) = none ↔ BlockOperands s := by
  simp only [firstFailing_eq_none_iff, operandChecks, List.forall_mem_cons, List.not_mem_nil, false_imp_iff, implies_true,
    and_true, inputOk_iff, footprintOk_iff, overlapPermitted_block_iff s (i := .mtfDec) (by simp), inputRegion, footprint,
    BlockOperands]

/-- HUF_BUILD's operand check (R250). -/
theorem operandChecks_hufBuild_none_iff (s : State) :
    firstFailing (operandChecks .hufBuild s) = none ↔ InMem s s.src.toNat s.len.toNat := by
  simp only [firstFailing_eq_none_iff, operandChecks, List.forall_mem_cons, List.not_mem_nil, false_imp_iff, implies_true,
    and_true, inputOk_iff, inputRegion]

/-- TREE_DES's operand check (R315). -/
theorem operandChecks_treeDes_none_iff (s : State) :
    firstFailing (operandChecks .treeDes s) = none ↔ InMem s s.src.toNat s.len.toNat := by
  simp only [firstFailing_eq_none_iff, operandChecks, List.forall_mem_cons, List.not_mem_nil, false_imp_iff, implies_true,
    and_true, inputOk_iff, inputRegion]

/-- STATUS.TREE_VALID (R37). -/
theorem TreeState.valid_iff (ts : TreeState) : ts.valid = true ↔ ts ≠ .invalid := by cases ts <;> simp [TreeState.valid]

/-- TREE_SER's operand checks (R312). -/
theorem operandChecks_treeSer_none_iff (s : State) :
    firstFailing (operandChecks .treeSer s) = none ↔ InMem s s.dst.toNat s.dstCap.toNat ∧ s.tree ≠ .invalid := by
  simp only [firstFailing_eq_none_iff, operandChecks, List.forall_mem_cons, List.not_mem_nil, false_imp_iff, implies_true,
    and_true, footprintOk_iff, footprint, TreeState.valid_iff]

/-- ENT_ENC's operand checks (R340). -/
theorem operandChecks_entEnc_none_iff (s : State) :
    firstFailing (operandChecks .entEnc s) = none ↔ CoderOperands s ∧ s.tree ≠ .invalid := by
  simp only [firstFailing_eq_none_iff, operandChecks, List.forall_mem_cons, List.not_mem_nil, false_imp_iff, implies_true,
    and_true, inputOk_iff, footprintOk_iff, overlapPermitted_coder_iff s (i := .entEnc) (by simp), inputRegion, footprint,
    TreeState.valid_iff, CoderOperands, and_assoc]

/-- ENT_DEC's operand checks (R344). -/
theorem operandChecks_entDec_none_iff (s : State) :
    firstFailing (operandChecks .entDec s) = none ↔
      CoderOperands s ∧ s.tree ≠ .invalid ∧ s.usize.toNat ≤ s.dstCap.toNat := by
  simp only [firstFailing_eq_none_iff, operandChecks, List.forall_mem_cons, List.not_mem_nil, false_imp_iff, implies_true,
    and_true, inputOk_iff, footprintOk_iff, overlapPermitted_coder_iff s (i := .entDec) (by simp), inputRegion, footprint,
    TreeState.valid_iff, CoderOperands, and_assoc, decide_eq_true_eq]

/-! ### The input of a command -/

/-- A command goes on with the bytes that MEM holds. -/
theorem Verdict.withInput_of_holds {m : Memory} {a n : Nat} {x : List Byte} {k : List Byte → Verdict} (h : m.Holds a x)
    (hn : x.length = n) : Verdict.withInput m a n k = k x := by
  simp [Verdict.withInput, Memory.readBytes_of_holds h hn]

/-- What a command with an input can answer. -/
theorem Verdict.withInput_cases (m : Memory) (a n : Nat) (k : List Byte → Verdict) :
    (∃ x, x.length = n ∧ m.Holds a x ∧ Verdict.withInput m a n k = k x) ∨
      ∃ j, j < n ∧ m.Written a j ∧ m.read (a + j) = none ∧ Verdict.withInput m a n k = .unwritten (a + j) := by
  cases h : m.readBytes a n with
  | ok x =>
    obtain ⟨h1, h2⟩ := Memory.holds_of_readBytes h
    exact .inl ⟨x, h1, h2, by simp [Verdict.withInput, h]⟩
  | error e =>
    obtain ⟨j, hj, rfl, hw, hn⟩ := Memory.readBytes_error_iff.mp h
    exact .inr ⟨j, hj, hw, hn, by simp [Verdict.withInput, h]⟩

/-- A command with an input that succeeds read it whole. -/
theorem Verdict.withInput_eq_ok {m : Memory} {a n : Nat} {k : List Byte → Verdict} {e : Effects}
    (h : Verdict.withInput m a n k = .ok e) : ∃ x, x.length = n ∧ m.Holds a x ∧ k x = .ok e := by
  rcases Verdict.withInput_cases m a n k with ⟨x, h1, h2, h3⟩ | ⟨j, _, _, _, h3⟩ <;> rw [h3] at h
  · exact ⟨x, h1, h2, h⟩
  · cases h

/-- An input with a byte that nothing has written stops at the first such byte. -/
theorem Verdict.withInput_of_unwritten {m : Memory} {a n j : Nat} {k : List Byte → Verdict} (hj : j < n)
    (hw : m.Written a j) (hn : m.read (a + j) = none) : Verdict.withInput m a n k = .unwritten (a + j) := by
  simp [Verdict.withInput, Memory.readBytes_error_iff.mpr ⟨j, hj, rfl, hw, hn⟩]

/-- Two memories that agree on the input region give one answer. -/
theorem Verdict.withInput_congr {m m' : Memory} {a n : Nat} (h : ∀ k, k < n → m.read (a + k) = m'.read (a + k))
    (k : List Byte → Verdict) : Verdict.withInput m a n k = Verdict.withInput m' a n k := by
  simp [Verdict.withInput, Memory.readBytes_congr h]

/-! ### The end of a command -/

@[simp] theorem completeWith_ok (e : Effects) (s : State) : completeWith (.ok e) s = .next (finish (applyOk e s)) := rfl

@[simp] theorem completeWith_err (c : ErrCode) (s : State) : completeWith (.err c) s = .next (errState s c) := rfl

@[simp] theorem completeWith_unwritten (a : Nat) (s : State) : completeWith (.unwritten a) s = .fault (.unwrittenRead a) := rfl

/-- A completion is a success with its effects, or the precise error record (R173, R372). -/
theorem completeWith_next_iff {v : Verdict} {s t : State} :
    completeWith v s = .next t ↔ (∃ e, v = .ok e ∧ t = finish (applyOk e s)) ∨ ∃ c, v = .err c ∧ t = errState s c := by
  cases v <;> simp [eq_comm]

/-- The record of a success is `okState` with what the effects write (R173, R175). -/
theorem finish_applyOk (e : Effects) (s : State) :
    finish (applyOk e s) =
      { okState s (BitVec.ofNat 32 e.outLen) (BitVec.ofNat 32 e.outBits) with
        mem := s.mem.writeBytes e.dst e.out
        bwtIdx := updateWord s.bwtIdx e.bwtIdx
        usize := updateWord s.usize e.usize
        tree := (e.model.map Prod.fst).getD s.tree
        freq := (e.model.map Prod.snd).getD s.freq } := rfl

/-- An error code is one of 1 to 10 (R371). -/
theorem ErrCode.number_bounds (c : ErrCode) : 1 ≤ c.number.toNat ∧ c.number.toNat ≤ 10 := by cases c <;> decide

/-- A stored 32-bit value is unchanged by storing it again. -/
@[simp] theorem ofNat_toNat_word (w : Word) : BitVec.ofNat 32 w.toNat = w := by simp

/-- The verdict of a command (R174). -/
def verdictOf (i : Instr) (s : State) : Verdict :=
  match i with
  | .nop => nopVerdict
  | .bwtFwd => bwtFwdVerdict s
  | .bwtInv => bwtInvVerdict s
  | .mtfEnc => mtfEncVerdict s
  | .mtfDec => mtfDecVerdict s
  | .hufBuild => hufBuildVerdict s
  | .treeSer => treeSerVerdict s
  | .treeDes => treeDesVerdict s
  | .entEnc => entEncVerdict s
  | .entDec => entDecVerdict s

/-- Every command ends through the one completion (R173). -/
theorem exec_eq (i : Instr) (s : State) : exec i s = completeWith (verdictOf i s) s := by cases i <;> rfl

end Sys2Proof.Machine
end

