-- ==== Sys2Proof/Laws/Codec.lean ====
section
/-! SUPPORT. The pure parts of the commands: how many bytes each writes, what the bit streams hold, the paths of a tree, and what
the tree walker answers. -/

namespace Sys2Proof.Machine

/-! ### Bits and fields -/

@[simp] theorem le32_length (v : Word) : (le32 v).length = 4 := rfl

@[simp] theorem le16_length (v : Nat) : (le16 v).length = 2 := rfl

@[simp] theorem packBits_length (bits : List Bool) : (packBits bits).length = ceil8 bits.length := by simp [packBits]

@[simp] theorem streamBits_length (bytes : List Byte) (n : Nat) : (streamBits bytes n).length = n := by simp [streamBits]

@[simp] theorem packBits_nil : packBits [] = [] := rfl

@[simp] theorem ceil8_zero : ceil8 0 = 0 := rfl

theorem le_ceil8 (n : Nat) : n ≤ 8 * ceil8 n := by simp only [ceil8]; omega

/-- Bit j of a packed byte stands at position 7 - j (R11). -/
theorem byteOfBits_getLsbD (bits : List Bool) {j : Nat} (h : j < 8) :
    (byteOfBits bits).getLsbD (7 - j) = bits.getD j false := by
  simp only [byteOfBits, BitVec.getLsbD_append, BitVec.getLsbD_ofBool]
  rcases j with _ | _ | _ | _ | _ | _ | _ | _ | j
  all_goals first | omega | simp

/-- Bit k of the stream that `packBits` stores is bit k of the list, and 0 past its end (R11). -/
theorem streamBit_packBits (bits : List Bool) {k : Nat} (h : k < 8 * ceil8 bits.length) :
    streamBit (packBits bits) k = bits.getD k false := by
  have hk : k / 8 < ceil8 bits.length := by omega
  simp only [streamBit, bitOfByte, packBits, List.getD_eq_getElem?_getD, List.getElem?_map, List.getElem?_range, hk,
    Option.map_some, Option.getD_some]
  rw [byteOfBits_getLsbD _ (by omega)]
  simp only [List.getD_eq_getElem?_getD, List.getElem?_take, List.getElem?_drop, Nat.mod_lt, Nat.ofNat_pos,
    if_true]
  rw [Nat.div_add_mod]

/-- Packing and reading back the same number of bits gives the bits (R11). -/
@[simp] theorem streamBits_packBits (bits : List Bool) : streamBits (packBits bits) bits.length = bits := by
  apply List.ext_getElem?
  intro k
  by_cases hk : k < bits.length
  · have := le_ceil8 bits.length
    simp only [streamBits, List.getElem?_map, List.getElem?_range, hk, Option.map_some]
    rw [streamBit_packBits bits (by omega)]
    simp [List.getD_eq_getElem?_getD, hk]
  · rw [List.getElem?_eq_none (by simpa using hk), List.getElem?_eq_none (by omega)]

/-- A little-endian 32-bit field reads back (R103). -/
@[simp] theorem ofLe_le32 (v : Word) : ofLe (le32 v) = v.toNat := by
  simp only [le32, ofLe, BitVec.extractLsb'_toNat, Nat.shiftRight_eq_div_pow]
  have := v.isLt
  omega

/-- A little-endian 16-bit field reads back (R103). -/
theorem ofLe_le16 {v : Nat} (h : v < 65536) : ofLe (le16 v) = v := by
  simp only [le16, ofLe, BitVec.toNat_ofNat]
  omega

/-! ### Lengths of what the commands write -/

@[simp] theorem bwtLastColumn_length (x : List Byte) : (bwtLastColumn x).length = x.length := by
  simp [bwtLastColumn, sortedRotations]

@[simp] theorem bwtMatrix_length (y : List Byte) (r : Nat) : (bwtMatrix y r).length = y.length := by
  induction r with
  | zero => simp [bwtMatrix]
  | succ r ih => simp [bwtMatrix, matrixRound, ih]

/-- Each round makes every row one byte longer (R209). -/
theorem bwtMatrix_row_length (y : List Byte) (r : Nat) : ∀ row ∈ bwtMatrix y r, row.length = r := by
  induction r with
  | zero => intro row h; simp only [bwtMatrix, List.mem_replicate] at h; simp [h.2]
  | succ r ih =>
    intro row h
    simp only [bwtMatrix, matrixRound, List.mem_insertionSort] at h
    rw [List.zipWith_eq_zipWith_take_min] at h
    rw [← List.map_uncurry_zip_eq_zipWith, List.mem_map] at h
    obtain ⟨⟨b, row'⟩, hm, rfl⟩ := h
    have := ih row' (List.mem_of_mem_take (List.of_mem_zip hm).2)
    simp [Function.uncurry, this]

/-- BWT_INV writes as many bytes as it reads (R209). -/
theorem bwtInverse_length {y : List Byte} {idx : Nat} (h : 0 < y.length → idx < y.length) :
    (bwtInverse y idx).length = y.length := by
  by_cases hy : y.length = 0
  · have : bwtMatrix y y.length = [] := List.length_eq_zero_iff.mp (by simp [hy])
    rw [bwtInverse, this, List.getD_nil, hy]; rfl
  · have hi : idx < (bwtMatrix y y.length).length := by rw [bwtMatrix_length]; exact h (by omega)
    rw [bwtInverse, List.getD_eq_getElem?_getD, List.getElem?_eq_getElem hi, Option.getD_some]
    exact bwtMatrix_row_length _ _ _ (List.getElem_mem hi)

@[simp] theorem mtfEncodeFrom_length (P x : List Byte) : (mtfEncodeFrom P x).length = x.length := by
  induction x generalizing P with
  | nil => rfl
  | cons b x ih => simp [mtfEncodeFrom, ih]

@[simp] theorem mtfDecodeFrom_length (P x : List Byte) : (mtfDecodeFrom P x).length = x.length := by
  induction x generalizing P with
  | nil => rfl
  | cons b x ih => simp [mtfDecodeFrom, ih]

@[simp] theorem mtfEncode_length (x : List Byte) : (mtfEncode x).length = x.length := mtfEncodeFrom_length _ _

@[simp] theorem mtfDecode_length (x : List Byte) : (mtfDecode x).length = x.length := mtfDecodeFrom_length _ _

@[simp] theorem sideChannel_length (ts : TreeState) (i u : Word) :
    (sideChannel ts i u).length = sideChannelSize ts.leaves.length ts.shape.length := by
  simp [sideChannel, sideChannelSize]; omega

/-! ### Trees -/

@[simp] theorem leaves_invalid : TreeState.leaves .invalid = [] := rfl

@[simp] theorem leaves_empty : TreeState.leaves .empty = [] := rfl

@[simp] theorem leaves_tree (t : CodeTree) : TreeState.leaves (.tree t) = t.leaves := rfl

@[simp] theorem shape_invalid : TreeState.shape .invalid = [] := rfl

@[simp] theorem shape_empty : TreeState.shape .empty = [] := rfl

@[simp] theorem shape_tree (t : CodeTree) : TreeState.shape (.tree t) = t.shape := rfl

theorem leaves_length_pos (t : CodeTree) : 0 < t.leaves.length := by
  induction t with
  | leaf c => simp [CodeTree.leaves]
  | node l r ih1 ih2 => simp [CodeTree.leaves]; omega

/-- A list of distinct bytes has at most 256 entries (R8). -/
theorem nodup_bytes_length {l : List Byte} (h : l.Nodup) : l.length ≤ 256 := by
  have h1 : (l.map BitVec.toFin).Nodup := h.map (fun a b e => BitVec.eq_of_toFin_eq e)
  simpa using h1.length_le_card

/-- A symbol has a path exactly when it is a leaf (R262). -/
theorem pathTo_isSome_iff (s : Byte) (t : CodeTree) : (t.pathTo s).isSome ↔ s ∈ t.leaves := by
  induction t with
  | leaf c =>
    simp only [CodeTree.pathTo, CodeTree.leaves, List.mem_singleton]
    by_cases h : c = s
    · simp [h]
    · simp [h, Ne.symm h]
  | node l r ih1 ih2 =>
    simp only [CodeTree.pathTo, CodeTree.leaves, List.mem_append, ← ih1, ← ih2]
    cases l.pathTo s <;> simp

/-- A symbol without a path is no leaf (R262). -/
theorem pathTo_eq_none_iff (s : Byte) (t : CodeTree) : t.pathTo s = none ↔ s ∉ t.leaves := by
  rw [← pathTo_isSome_iff]; cases t.pathTo s <;> simp

/-- A path has fewer bits than the tree has leaves (R8). -/
theorem pathTo_length_lt {s : Byte} {t : CodeTree} {p : List Bool} (h : t.pathTo s = some p) : p.length < t.leaves.length := by
  induction t generalizing p with
  | leaf c =>
    simp only [CodeTree.pathTo] at h
    split at h
    · cases h; simp [CodeTree.leaves]
    · cases h
  | node l r ih1 ih2 =>
    have := leaves_length_pos l
    have := leaves_length_pos r
    simp only [CodeTree.pathTo] at h
    simp only [CodeTree.leaves, List.length_append]
    cases hl : l.pathTo s with
    | some q =>
      simp only [hl, Option.some.injEq] at h; subst h
      have := ih1 hl
      simp; omega
    | none =>
      simp only [hl, Option.map_eq_some_iff] at h
      obtain ⟨q, hq, rfl⟩ := h
      have := ih2 hq
      simp; omega

/-- The path to a symbol leads to its leaf (R16, R345). -/
theorem follow_pathTo {s : Byte} {t : CodeTree} {p : List Bool} (h : t.pathTo s = some p) : t.follow p = .leaf s := by
  induction t generalizing p with
  | leaf c =>
    simp only [CodeTree.pathTo] at h
    split at h
    · rename_i e; cases h; rw [e]; rfl
    · cases h
  | node l r ih1 ih2 =>
    simp only [CodeTree.pathTo] at h
    cases hl : l.pathTo s with
    | some q => simp only [hl, Option.some.injEq] at h; subst h; exact ih1 hl
    | none =>
      simp only [hl, Option.map_eq_some_iff] at h
      obtain ⟨q, hq, rfl⟩ := h
      exact ih2 hq

/-- Following bits one after the other. -/
theorem follow_append (t : CodeTree) (p q : List Bool) : t.follow (p ++ q) = (t.follow p).follow q := by
  simp [CodeTree.follow, List.foldl_append]

/-- A leaf has no children: following bits from it stays there. -/
theorem follow_leaf (c : Byte) (p : List Bool) : (CodeTree.leaf c).follow p = .leaf c := by
  induction p with
  | nil => rfl
  | cons b p ih => exact ih

/-- A code of a symbol, in a tree state (R62, R262). -/
theorem code_eq_some_iff {ts : TreeState} {s : Byte} {p : List Bool} :
    ts.code s = some p ↔ ∃ t, ts = .tree t ∧ t.pathTo s = some p := by
  cases ts <;> simp [TreeState.code]

/-- A symbol without a code is no leaf (R62, R262). -/
theorem code_eq_none_iff {ts : TreeState} {s : Byte} : ts.code s = none ↔ s ∉ ts.leaves := by
  cases ts <;> simp [TreeState.code, TreeState.leaves, pathTo_eq_none_iff]

/-- A tree with L leaves has 2L - 1 shape bits (R311). -/
theorem shape_length (t : CodeTree) : t.shape.length + 1 = 2 * t.leaves.length := by
  induction t with
  | leaf c => rfl
  | node l r ih1 ih2 => simp [CodeTree.shape, CodeTree.leaves]; omega

/-! ### The tree walker -/

/-- A walk that ends has emitted as many symbols as were to go (R345, R349). -/
theorem walkTree_done_length {root : CodeTree} {m : Memory} {base fuel : Nat} {node : CodeTree} {pos todo : Nat}
    {out : List Byte} {q : Nat} (h : walkTree root m base fuel node pos todo = .done out q) : out.length = todo := by
  induction fuel generalizing node pos todo out with
  | zero => cases todo <;> simp only [walkTree] at h <;> cases h; rfl
  | succ fuel ih =>
    cases todo with
    | zero => simp only [walkTree] at h; cases h; rfl
    | succ todo =>
      simp only [walkTree] at h
      split at h
      · cases h
      · split at h
        · cases hw : walkTree root m base fuel root (pos + 1) todo with
          | done o q' => rw [hw] at h; cases h; simp [ih hw]
          | exhausted => rw [hw] at h; cases h
          | unwritten a => rw [hw] at h; cases h
        · exact ih h

/-- A walk whose stream has a first unwritten byte ends before it, or stops at it (log 11). -/
theorem walkTree_of_unwritten {root : CodeTree} {m : Memory} {base n : Nat} (hw : m.Written base n)
    (hn : m.read (base + n) = none) {fuel : Nat} {node : CodeTree} {pos todo : Nat} (hf : 8 * n < pos + fuel)
    (hp : pos ≤ 8 * n) :
    (∃ out q, walkTree root m base fuel node pos todo = .done out q) ∨
      walkTree root m base fuel node pos todo = .unwritten (base + n) := by
  induction fuel generalizing node pos todo with
  | zero => omega
  | succ fuel ih =>
    cases todo with
    | zero => exact .inl ⟨[], pos, by simp [walkTree]⟩
    | succ todo =>
      by_cases he : pos / 8 = n
      · exact .inr (by simp [walkTree, he, hn])
      · simp only [walkTree]
        split
        · rename_i h; exact absurd h (hw _ (by omega))
        · split
          · rcases ih (node := root) (pos := pos + 1) (todo := todo) (by omega) (by omega) with ⟨o, q, e⟩ | e <;> rw [e]
            · exact .inl ⟨_, _, rfl⟩
            · exact .inr rfl
          · exact ih (by omega) (by omega)

end Sys2Proof.Machine
end

