-- ==== Sys2Proof/Laws/Host.lean ====
section
/-! SUPPORT. What the host interface answers: every named register is reached at its offset, and a MEM access inside the window
reaches MEM. -/

namespace Sys2Proof.Machine

/-- A named register is found at its offset (R33). -/
@[simp] theorem ofOffset_offset (r : Reg) : Reg.ofOffset r.offset = some r := by
  cases r <;> try rfl
  rename_i k; revert k; decide

/-- A named register stands at a multiple of 4 below 0x070 (R33). -/
theorem offset_bounds (r : Reg) : r.offset < 0x070 ∧ r.offset % 4 = 0 := by
  cases r <;> first | decide | (rename_i k; simp only [Reg.offset]; omega)

/-- A register found at an offset stands there (R33). -/
theorem offset_of_ofOffset {off : Nat} {r : Reg} (h : Reg.ofOffset off = some r) : r.offset = off := by
  have := List.find?_some h
  simpa using this

/-- At a reserved offset there is no register (R53). -/
theorem ofOffset_reserved {off : Nat} (h : 0x070 ≤ off) : Reg.ofOffset off = none := by
  cases hr : Reg.ofOffset off with
  | none => rfl
  | some r =>
    have h1 := offset_of_ofOffset hr
    have h2 := (offset_bounds r).1
    omega

/-- A well-formed register transaction is answered by `regAccess`. -/
theorem hostAccess_reg {x : Txn} {s : State} (hw : x.window = .reg) (h1 : x.offset < 4096) (h2 : x.width = 4)
    (h3 : x.offset % 4 = 0) : hostAccess x s = .next (regAccess x s) := by
  have hwf : x.wf := .inl ⟨hw, h2, h3⟩
  have hlt : ¬ windowSize s.params x.window ≤ x.offset := by
    rw [hw]; simpa [windowSize, Config.regWindow] using h1
  unfold hostAccess
  rw [if_neg hlt, if_neg (not_not.mpr hwf)]
  simp only [hw]

/-- A host write to a named register (R147). -/
@[simp] theorem hostAccess_wrTxn (r : Reg) (v : Word) (s : State) :
    hostAccess (wrTxn r v) s = .next (answer .written (regWrite r v s)) := by
  obtain ⟨h1, h2⟩ := offset_bounds r
  rw [hostAccess_reg rfl (by simp only [wrTxn]; omega) rfl h2]
  simp [regAccess, wrTxn]

/-- A host read of a named register (R147). -/
@[simp] theorem hostAccess_rdTxn (r : Reg) (s : State) :
    hostAccess (rdTxn r) s = .next (answer (.data (regRead s r)) s) := by
  obtain ⟨h1, h2⟩ := offset_bounds r
  rw [hostAccess_reg rfl (by simp only [rdTxn]; omega) rfl h2]
  simp [regAccess, rdTxn]

/-- A well-formed MEM transaction inside MEM is answered by `memAccess`. -/
theorem hostAccess_mem {x : Txn} {s : State} (hw : x.window = .mem) (h1 : x.wf) (h2 : x.offset + x.width ≤ s.params.memSize) :
    hostAccess x s = memAccess x s := by
  have hpos : 0 < x.width := by
    rcases h1 with h1 | h1
    · simp [hw] at h1
    · omega
  have hlt : ¬ windowSize s.params x.window ≤ x.offset := by
    simp only [hw, windowSize]; omega
  unfold hostAccess
  rw [if_neg hlt, if_neg (not_not.mpr h1)]
  simp only [hw, if_neg (Nat.not_lt.mpr h2)]

/-- Everything a transaction can do: stop by name, a bus error, a register access, or a MEM access. -/
theorem hostAccess_cases (x : Txn) (s : State) :
    (∃ w o, hostAccess x s = .fault (.outsideWindow w o)) ∨
    (¬ x.wf ∧ hostAccess x s = .next (answer .busError s)) ∨
    (x.wf ∧ x.window = .reg ∧ hostAccess x s = .next (regAccess x s)) ∨
    (x.wf ∧ x.window = .mem ∧ x.offset + x.width ≤ s.params.memSize ∧ hostAccess x s = memAccess x s) := by
  unfold hostAccess
  split
  · exact .inl ⟨_, _, rfl⟩
  · split
    · rename_i h; exact .inr (.inl ⟨h, rfl⟩)
    · rename_i h
      rw [not_not] at h
      cases hw : x.window with
      | reg => exact .inr (.inr (.inl ⟨h, rfl, rfl⟩))
      | mem =>
        dsimp only
        split
        · exact .inl ⟨_, _, rfl⟩
        · exact .inr (.inr (.inr ⟨h, rfl, by omega, rfl⟩))

/-- Everything a well-formed register transaction can do. -/
theorem regAccess_cases (x : Txn) (s : State) :
    (∃ r, regAccess x s = answer r s) ∨
    ∃ r, x.dir = .write ∧ Reg.ofOffset x.offset = some r ∧ regAccess x s = answer .written (regWrite r x.data s) := by
  unfold regAccess
  cases x.dir <;> cases Reg.ofOffset x.offset
  · exact .inl ⟨_, rfl⟩
  · exact .inl ⟨_, rfl⟩
  · exact .inl ⟨_, rfl⟩
  · exact .inr ⟨_, rfl, rfl, rfl⟩

/-- Everything a well-formed MEM transaction inside MEM can do. -/
theorem memAccess_next_cases {x : Txn} {s t : State} (h : memAccess x s = .next t) :
    (s.busy = true ∧ ∃ r, t = answer r { s with mbusy := true }) ∨
    (s.busy = false ∧ x.dir = .read ∧ ∃ r, t = answer r s) ∨
    (s.busy = false ∧ x.dir = .write ∧
      t = answer .written { s with mem := s.mem.writeBytes x.offset ((le32 x.data).take x.width) }) := by
  unfold memAccess at h
  cases hb : s.busy <;> cases hd : x.dir <;> simp only [hd, hb, if_true, Bool.false_eq_true, if_false] at h
  · right; left
    split at h
    · exact ⟨rfl, rfl, _, (Host.Outcome.next.inj h).symm⟩
    · cases h
  · right; right; exact ⟨rfl, rfl, (Host.Outcome.next.inj h).symm⟩
  · left; exact ⟨rfl, _, (Host.Outcome.next.inj h).symm⟩
  · left; exact ⟨rfl, _, (Host.Outcome.next.inj h).symm⟩

/-- A write to a named register: a soft reset, or a change of other registers than TREE, FREQ and MEM. -/
theorem regWrite_cases (r : Reg) (v : Word) (s : State) :
    (r = .ctrl ∧ v.getLsbD 1 = true ∧ regWrite r v s = softReset s) ∨
    ((regWrite r v s).tree = s.tree ∧ (regWrite r v s).freq = s.freq ∧ (regWrite r v s).mem = s.mem ∧
      (regWrite r v s).params = s.params ∧ (regWrite r v s).inbox = s.inbox ∧ (regWrite r v s).draws = s.draws) := by
  by_cases hc : r = .ctrl
  · subst hc
    by_cases h1 : v.getLsbD 1 = true
    · exact .inl ⟨rfl, h1, by rw [regWrite, writeCtrl, if_pos h1]⟩
    · refine .inr ?_
      rw [regWrite, writeCtrl, if_neg h1]; simp
  · refine .inr ?_
    cases r <;> first | exact absurd rfl hc | (cases hb : s.busy <;> simp [regWrite, whenIdle, hb])

end Sys2Proof.Machine
end

