-- ==== Sys2Proof/Laws/PerInstr.lean ====
section
/-! SUPPORT. What holds of every command as syntax, one lemma per constructor. -/

namespace Sys2Proof.Laws.OpcodeIsLowByte

/-- The command word has the opcode in bits 7:0 and zeros in bits 31:8 (R140). -/
def Statement (i : Instr) : Prop :=
  (encode i).extractLsb' 0 8 = i.opcode ∧ (encode i).extractLsb' 8 24 = 0#24

theorem nop : Statement .nop := by unfold Statement; decide

theorem bwtFwd : Statement .bwtFwd := by unfold Statement; decide

theorem bwtInv : Statement .bwtInv := by unfold Statement; decide

theorem mtfEnc : Statement .mtfEnc := by unfold Statement; decide

theorem mtfDec : Statement .mtfDec := by unfold Statement; decide

theorem hufBuild : Statement .hufBuild := by unfold Statement; decide

theorem treeSer : Statement .treeSer := by unfold Statement; decide

theorem treeDes : Statement .treeDes := by unfold Statement; decide

theorem entEnc : Statement .entEnc := by unfold Statement; decide

theorem entDec : Statement .entDec := by unfold Statement; decide

end Sys2Proof.Laws.OpcodeIsLowByte
end

