-- ==== Sys2Proof/Tests/Slice0.lean ====
section
/-! SUPPORT. Tests: command words written out from the opcode map (R143), ill-formed terms that each check refuses, one step of
each command on vectors of spec/95_test_vectors.md, and for every statement with hypotheses a concrete state that meets
them. -/

open Sys2Proof Sys2Proof.Machine

namespace Sys2Proof.Tests

set_option Elab.async false

/-! ### Helpers -/

/-- Bytes from numbers. -/
def bytes (l : List Nat) : List Byte := l.map (BitVec.ofNat 8)

/-- MEM with these bytes at a, and nothing else written. -/
def memOf (a : Nat) (l : List Nat) : Memory := Memory.writeBytes [] a (bytes l)

/-- "banana". -/
def banana : List Nat := [0x62, 0x61, 0x6E, 0x61, 0x6E, 0x61]

/-- The tree of "banana" (HB1). -/
def bananaTree : CodeTree := .node (.leaf 0x61) (.node (.leaf 0x62) (.leaf 0x6E))

/-- The codes of the tree of "banana" (HB1). -/
def bananaCode (b : Byte) : List Bool :=
  if b = 0x61 then [false] else if b = 0x62 then [true, false] else [true, true]

/-- A fresh core that holds l at 0 and runs a command over it, with its output at 0x100. -/
def running (l : List Nat) : State :=
  { State.reset with busy := true, mem := memOf 0 l, len := BitVec.ofNat 32 l.length, dst := 0x100, dstCap := 0x40 }

/-- The same with the model of "banana". -/
def withModel (l : List Nat) : State := { running l with tree := .tree bananaTree, usize := 6#32 }

/-- o goes on to a state that has p. -/
def goesTo (o : Host.Outcome State Fault Refusal) (p : State → Bool) : Bool :=
  match o with
  | .next t => p t
  | _ => false

/-- The n bytes at a, as numbers. -/
def outAt (s : State) (a n : Nat) : Option (List Nat) :=
  match s.mem.readBytes a n with
  | .ok l => some (l.map BitVec.toNat)
  | .error _ => none

theorem exists_next {o : Host.Outcome State Fault Refusal} {P : State → Prop} [DecidablePred P]
    (h : goesTo o (fun t => decide (P t)) = true) : ∃ t, o = .next t ∧ P t := by
  cases o with
  | next t => exact ⟨t, rfl, of_decide_eq_true h⟩
  | fault _ => cases h
  | refused _ => cases h

/-! ### Command words, each written out bit by bit from R140 and R143 -/

theorem test_word_nop : decode 0b00000000000000000000000000000000#32 = .command .nop := by decide

theorem test_word_bwtFwd : decode 0b00000000000000000000000000000001#32 = .command .bwtFwd := by decide

theorem test_word_bwtInv : decode 0b00000000000000000000000000000010#32 = .command .bwtInv := by decide

theorem test_word_mtfEnc : decode 0b00000000000000000000000000000011#32 = .command .mtfEnc := by decide

theorem test_word_mtfDec : decode 0b00000000000000000000000000000100#32 = .command .mtfDec := by decide

theorem test_word_hufBuild : decode 0b00000000000000000000000000000101#32 = .command .hufBuild := by decide

theorem test_word_treeSer : decode 0b00000000000000000000000000000110#32 = .command .treeSer := by decide

theorem test_word_treeDes : decode 0b00000000000000000000000000000111#32 = .command .treeDes := by decide

theorem test_word_entEnc : decode 0b00000000000000000000000000001000#32 = .command .entEnc := by decide

theorem test_word_entDec : decode 0b00000000000000000000000000001001#32 = .command .entDec := by decide

theorem test_word_illegal_opcode : decode 0b00000000000000000000000000001010#32 = .badOpcode := by decide

theorem test_word_reserved_bit : decode 0b10000000000000000000000000000001#32 = .badOpcode := by decide

theorem test_table_word : decodeTableWord 32 0x00000009 = some .entDec ∧ decodeTableWord 32 0x0000000A = none := by decide

/-! ### Ill-formed terms (R107, R108, R7) -/

theorem test_wf_refuses_register_width : ¬ Txn.wf { dir := .read, window := .reg, offset := 0x010, width := 2 } := by decide

theorem test_wf_refuses_register_offset : ¬ Txn.wf { dir := .read, window := .reg, offset := 0x012, width := 4 } := by decide

theorem test_wf_refuses_memory_width : ¬ Txn.wf { dir := .read, window := .mem, offset := 0, width := 3 } := by decide

theorem test_wf_refuses_memory_alignment : ¬ Txn.wf { dir := .write, window := .mem, offset := 1, width := 2 } := by decide

theorem test_legal_refuses_no_memory : ¬ Params.legal { memSize := 0, bwtMaxLen := 0 } := by decide

theorem test_legal_refuses_large_memory : ¬ Params.legal { memSize := 2 ^ 29 } := by decide

theorem test_legal_refuses_block_beyond_memory : ¬ Params.legal { memSize := 16, bwtMaxLen := 17 } := by decide

theorem test_pipeline_refuses_threshold : ¬ Params.servesPipeline { bwtMaxLen := 998 } := by decide

/-! ### One step of each command, on vectors of spec/95_test_vectors.md -/

theorem test_nop : goesTo (exec .nop { running [] with outLen := 5#32 }) (fun t => t.outLen = 0#32 ∧ t.statusWord = 0x2#32) := by
  decide +kernel

/-- BF1. -/
theorem test_bwtFwd_banana : goesTo (exec .bwtFwd (running banana)) (fun t =>
    t.bwtIdx = 3#32 ∧ t.outLen = 6#32 ∧ outAt t 0x100 6 = some [0x6E, 0x6E, 0x62, 0x61, 0x61, 0x61]) := by decide +kernel

/-- BF2: equal rotations, the index decides. -/
theorem test_bwtFwd_ties : goesTo (exec .bwtFwd (running [0x61, 0x62, 0x61, 0x62])) (fun t =>
    t.bwtIdx = 0#32 ∧ outAt t 0x100 4 = some [0x62, 0x62, 0x61, 0x61]) := by decide +kernel

/-- BI1. -/
theorem test_bwtInv_banana : goesTo
    (exec .bwtInv { running [0x6E, 0x6E, 0x62, 0x61, 0x61, 0x61] with bwtIdx := 3#32 }) (fun t =>
      outAt t 0x100 6 = some banana) := by decide +kernel

/-- BI13: the backwards walk would give 62 61 62. -/
theorem test_bwtInv_non_image : goesTo (exec .bwtInv { running [0x61, 0x62, 0x61] with bwtIdx := 1#32 }) (fun t =>
    outAt t 0x100 3 = some [0x61, 0x62, 0x61]) := by decide +kernel

/-- MT2. -/
theorem test_mtfEnc_banana : goesTo (exec .mtfEnc (running banana)) (fun t =>
    outAt t 0x100 6 = some [0x62, 0x62, 0x6E, 1, 1, 1]) := by decide +kernel

/-- MT4. -/
theorem test_mtfEnc_last_value : goesTo (exec .mtfEnc (running [0xFF, 0xFF, 0x00])) (fun t =>
    outAt t 0x100 3 = some [0xFF, 0, 1]) := by decide +kernel

/-- MT8. -/
theorem test_mtfDec_walks_down : goesTo (exec .mtfDec (running [0xFF, 0xFF, 0xFF])) (fun t =>
    outAt t 0x100 3 = some [0xFF, 0xFE, 0xFD]) := by decide +kernel

/-- MT11. -/
theorem test_mtfDec_banana : goesTo (exec .mtfDec (running [0x62, 0x62, 0x6E, 1, 1, 1])) (fun t =>
    outAt t 0x100 6 = some banana) := by decide +kernel

/-- HB1. -/
theorem test_hufBuild_banana : goesTo (exec .hufBuild (running banana)) (fun t =>
    t.tree = .tree bananaTree ∧ t.freq.at 0x6E = 2#32 ∧ t.outBits = 9#32 ∧ t.usize = 6#32) := by decide +kernel

/-- HB5: the removal swaps the last entry in. -/
theorem test_hufBuild_ties : goesTo (exec .hufBuild (running [0x61, 0x62, 0x63, 0x64])) (fun t =>
    t.tree = .tree (.node (.node (.leaf 0x61) (.leaf 0x62)) (.node (.leaf 0x64) (.leaf 0x63)))) := by decide +kernel

/-- TS1. -/
theorem test_treeSer_banana : goesTo (exec .treeSer (withModel [])) (fun t =>
    outAt t 0x100 16 = some [0xFF, 0xFF, 0xFF, 0xFF, 6, 0, 0, 0, 3, 0, 5, 0, 0x61, 0x62, 0x6E, 0xA0] ∧
      t.outLen = 16#32 ∧ t.outBits = 5#32) := by decide +kernel

/-- TS11: one byte short. -/
theorem test_treeSer_capacity : goesTo (exec .treeSer { withModel [] with dstCap := 15#32 }) (fun t =>
    t.statusWord = 0x0000080E#32 ∧ t.mem = []) := by decide +kernel

/-- TD3: pad bits and a byte after the end are ignored. -/
theorem test_treeDes_pad : goesTo
    (exec .treeDes (running [0xFF, 0xFF, 0xFF, 0xFF, 6, 0, 0, 0, 3, 0, 5, 0, 0x61, 0x62, 0x6E, 0xA7, 0x55])) (fun t =>
      t.tree = .tree bananaTree ∧ t.usize = 6#32 ∧ t.outLen = 16#32) := by decide +kernel

/-- TD12: two equal leaves. -/
theorem test_treeDes_equal_leaves : goesTo
    (exec .treeDes (running [0xFF, 0xFF, 0xFF, 0xFF, 6, 0, 0, 0, 3, 0, 5, 0, 0x61, 0x61, 0x6E, 0xA0])) (fun t =>
      t.errCode = 9#8 ∧ t.tree = .invalid) := by decide +kernel

/-- EE1. -/
theorem test_entEnc_banana : goesTo (exec .entEnc (withModel banana)) (fun t =>
    outAt t 0x100 2 = some [0x9B, 0x00] ∧ t.outBits = 9#32 ∧ t.outLen = 2#32) := by decide +kernel

/-- EE11: "bad" has a byte that is no leaf. -/
theorem test_entEnc_absent : goesTo (exec .entEnc (withModel [0x62, 0x61, 0x64])) (fun t =>
    t.statusWord = 0x0000070E#32) := by decide +kernel

/-- ED1. -/
theorem test_entDec_banana : goesTo (exec .entDec (withModel [0x9B, 0x00])) (fun t =>
    outAt t 0x100 6 = some banana ∧ t.outBits = 9#32) := by decide +kernel

/-- ED3: the seventh symbol comes from a pad bit. -/
theorem test_entDec_pad : goesTo (exec .entDec { withModel [0x9B, 0x00] with usize := 7#32 }) (fun t =>
    outAt t 0x100 7 = some (banana ++ [0x61]) ∧ t.outBits = 10#32) := by decide +kernel

/-- The word is the next step's command, from reset (log 2). -/
theorem test_withFetchWord : goesTo (step (State.reset.withFetchWord 32 0x00000005)) (fun t =>
    t.tree = .empty ∧ t.lastOp = 5#8 ∧ t.statusWord = 0x0005000A#32) := by decide +kernel

/-! ### Host sequences: the transactions that the tables of programs P1 and P2 list -/

/-- The direction, offset and written data of a 32-bit register transaction. -/
def regRow : Input → Option (Dir × Nat × Nat)
  | .bus t => if t.window = .reg ∧ t.width = 4 then some (t.dir, t.offset, t.data.toNat) else none
  | _ => none

/-- The buffers of programs P1 and P2. -/
def programBuffers : Buffers :=
  { input := 0x000, work := 0x400, side := 0x800, sideCap := 332, blob := 0xC00, blobCap := 0x100, output := 0x1400
    outCap := 0x100 }

/-- The two STATUS reads of `run ; check`: the final poll, and the read of `check`. -/
def pollAndCheck : List (Dir × Nat × Nat) := [(.read, 0x010, 0), (.read, 0x010, 0)]

/-- Rows 3 to 33 of program P1. -/
theorem test_compressSequence_P1 : (compressSequence {} programBuffers 6).filterMap regRow =
    [(.write, 0x018, 0), (.write, 0x01C, 6), (.write, 0x020, 0x400), (.write, 0x00C, 1)] ++ pollAndCheck
      ++ [(.write, 0x018, 0x400), (.write, 0x020, 0x400), (.write, 0x00C, 3)] ++ pollAndCheck
      ++ [(.write, 0x018, 0x400), (.write, 0x01C, 6), (.write, 0x00C, 5)] ++ pollAndCheck ++ [(.read, 0x030, 0)]
      ++ [(.write, 0x020, 0x800), (.write, 0x024, 0x14C), (.write, 0x00C, 6)] ++ pollAndCheck ++ [(.read, 0x030, 0)]
      ++ [(.write, 0x018, 0x400), (.write, 0x01C, 6), (.write, 0x020, 0xC00), (.write, 0x024, 0x100), (.write, 0x00C, 8)]
      ++ pollAndCheck ++ [(.read, 0x030, 0)] := by decide

/-- Rows 1 to 24 of program P2, whose work buffer is 0x1000. -/
theorem test_decompressSequence_P2 :
    (let b : Buffers := { programBuffers with work := 0x1000 };
      loadModelSequence b 0x10 ++ decodeSequence b 2 6 3).filterMap regRow =
    [(.write, 0x018, 0x800), (.write, 0x01C, 0x10), (.write, 0x00C, 7)] ++ pollAndCheck
      ++ [(.read, 0x02C, 0), (.read, 0x028, 0)]
      ++ [(.write, 0x018, 0xC00), (.write, 0x01C, 2), (.write, 0x020, 0x1000), (.write, 0x024, 0x100), (.write, 0x00C, 9)]
      ++ pollAndCheck
      ++ [(.write, 0x018, 0x1000), (.write, 0x01C, 6), (.write, 0x020, 0x1000), (.write, 0x00C, 4)] ++ pollAndCheck
      ++ [(.write, 0x020, 0x1400), (.write, 0x00C, 2)] ++ pollAndCheck := by decide

/-! ### Witnesses: states and operands that meet the hypotheses of the statements -/

/-- A running command at a full register set: BWT_FWD over 6 bytes. -/
def runningBwt : State := { running banana with cmd := 1#32, lastOp := 1#8 }

theorem witness_DecodeIsTheOpcodeMap :
    (0x00000100#32).extractLsb' 8 24 ≠ 0#24 ∧ (0x00000009#32).extractLsb' 8 24 = 0#24 ∧
      (0x0000000A#32).extractLsb' 8 24 = 0#24 := by decide

theorem witness_DecodeAndEncodeAgree : Instr.wf .entDec := by decide

theorem witness_StepTakesTheNextInput :
    ({ runningBwt with inbox := [.bus (rdTxn .src)] }).inbox = .bus (rdTxn .src) :: [] ∧
      ({ runningBwt with inbox := [.powerOn] }).inbox = .powerOn :: [] ∧
      ({ runningBwt with inbox := [.complete] }).inbox = .complete :: [] ∧ runningBwt.inbox = [] ∧
      State.reset.busy = false := by decide +kernel

theorem witness_StepRunsTheDecodedCommand :
    runningBwt.busy = true ∧ decode runningBwt.cmd = .command .bwtFwd ∧ Instr.wf .bwtFwd ∧ runningBwt.inbox = [] ∧
      ({ runningBwt with inbox := [.complete, .powerOn] }).inbox = .complete :: [.powerOn] := by decide +kernel

theorem witness_CommandWriteIsAccepted : State.reset.busy = false := by decide

theorem witness_IllegalWordCompletesWithBadOpcode :
    State.reset.busy = false ∧ (0x00000100#32).extractLsb' 8 24 ≠ 0#24 ∧ 0x0A ≤ ((0x0000000A#32).extractLsb' 0 8).toNat := by
  decide

theorem witness_CompletionIsOkOrPreciseError :
    (∃ t, exec .mtfEnc (running banana) = .next t ∧ t.err = false) ∧
      ∃ t, exec .treeSer (running banana) = .next t ∧ t.err = true :=
  ⟨exists_next (by decide +kernel), exists_next (by decide +kernel)⟩

theorem witness_EveryCommandGoesOnOverWrittenInput :
    (running banana).mem.Written (inputRegion .bwtFwd (running banana)).1 (inputRegion .bwtFwd (running banana)).2 := by
  decide +kernel

/-- The two states differ in USIZE, TREE and a byte outside the input. -/
theorem witness_CommandDependsOnlyOnWhatItReads :
    ReadsAgree .bwtFwd (running banana) { withModel banana with mem := memOf 0 (banana ++ [1]) } ∧
      running banana ≠ { withModel banana with mem := memOf 0 (banana ++ [1]) } :=
  ⟨⟨by decide +kernel, by decide +kernel, by decide +kernel, by decide +kernel, by decide +kernel⟩, by decide +kernel⟩

theorem witness_RunningCommandKeepsItsOperands :
    ∃ t, hostAccess (wrTxn .src 7#32) runningBwt = .next t ∧ runningBwt.busy = true ∧ ¬ IsSoftReset (wrTxn .src 7#32) :=
  exists_next (by decide +kernel)

theorem witness_CompletionIsAtomicUnderInterleaving :
    ∃ u, step { runningBwt with inbox := [] } = .next u ∧ runningBwt.busy = true ∧
      ∀ x ∈ [wrTxn .src 7#32, wrTxn .ctrl 1#32, mrTxn 4 0xFFFC],
        InWindow runningBwt.params x ∧ ¬ IsSoftReset x :=
  exists_next (by decide +kernel)

theorem witness_InterruptFollowsEnableAndCompletion :
    (∃ t, completeStep { runningBwt with irqEn := true } = .next t ∧ runningBwt.busy = true) ∧
      (0xFFFFFFFD#32).getLsbD 1 = false ∧ (0x3#32).getLsbD 1 = true :=
  ⟨exists_next (by decide +kernel), by decide, by decide⟩

theorem witness_RegisterMapIsAsTabulated :
    Reg.ofOffset 0x000 = some .id ∧ Reg.ofOffset 0x06C = some .bwtMaxR ∧ State.reset.busy = false ∧
      0x06C ∈ [0x000, 0x004, 0x068, 0x06C] := by decide

theorem witness_RegisterReadHasNoSideEffect : Reg.outLen ≠ .cmd ∧ Reg.outLen ≠ .status := by decide

theorem witness_ReservedOffsetsReadZeroAndIgnoreWrites :
    (0x070 ≤ 0x070 ∧ 0x070 ≤ 0xFFC ∧ 0x070 % 4 = 0) ∧ 0x070 ≤ 0xFFC ∧ 0xFFC ≤ 0xFFC ∧ 0xFFC % 4 = 0 := by decide

theorem witness_RegisterWritesUnderLockout :
    runningBwt.busy = true ∧ Reg.cmd ≠ .ctrl ∧ Reg.cmd ≠ .events ∧ (0x1#32).getLsbD 1 = false ∧ (0x3#32).getLsbD 1 = true ∧
      State.reset.busy = false ∧
      Reg.id ∉ [.ctrl, .cmd, .events, .src, .len, .dst, .dstCap, .bwtIdx, .usize, .codeqSym] := by decide +kernel

theorem witness_IdleOperandWritesAreStored : State.reset.busy = false := by decide

/-- The first byte, and the last word and byte of MEM. -/
theorem witness_MemoryIsLockedWhileBusy :
    runningBwt.busy = true ∧ (0 % 1 = 0 ∧ 0 + 1 ≤ runningBwt.params.memSize) ∧
      (65535 % 1 = 0 ∧ 65535 + 1 ≤ runningBwt.params.memSize) ∧ 65532 % 4 = 0 ∧
      65532 + 4 ≤ runningBwt.params.memSize := by decide +kernel

theorem witness_MisalignedAccessIsBusError :
    ((mrTxn 4 2).offset < windowSize State.reset.params .mem ∧ ¬ (mrTxn 4 2).wf ∧
        ¬ ({ dir := .write, window := .reg, offset := 0xFFF, width := 4 } : Txn).wf) ∧
      (∃ t, hostAccess (wrTxn .events 7#32) runningBwt = .next t ∧ (wrTxn .events 7#32).wf) ∧
      ∃ t, hostAccess (mrTxn 4 65532) runningBwt = .next t ∧ (mrTxn 4 65532).wf :=
  ⟨by decide +kernel, exists_next (by decide +kernel), exists_next (by decide +kernel)⟩

theorem witness_HostWriteStoresLittleEndianLanes :
    State.reset.busy = false ∧ (4 = 1 ∨ 4 = 2 ∨ 4 = 4) ∧ 65532 % 4 = 0 ∧ 65532 + 4 ≤ State.reset.params.memSize := by
  decide +kernel

theorem witness_HostReadReturnsLittleEndianLanes :
    ({ running [1, 2, 3, 4] with busy := false }).busy = false ∧ 0 % 4 = 0 ∧ 0 + 4 ≤ State.reset.params.memSize ∧
      ∀ k, k < 4 → (running [1, 2, 3, 4]).mem.read (0 + k) = some (BitVec.ofNat 8 (k + 1)) := by decide +kernel

theorem witness_CodeQueryReportsTheCode :
    (withModel []).tree.wf ∧ (0x63#8) ∉ (withModel []).tree.leaves ∧ (0x6E#8) ∈ (withModel []).tree.leaves ∧
      ({ withModel [] with codeqSym := 0x6E }).tree.code 0x6E = some [true, true] := by decide +kernel

theorem witness_SoftResetAbortsAndResets :
    (0x2#32).getLsbD 1 = true ∧ State.reset.busy = false ∧ decode 0x0000000A#32 = .badOpcode ∧ runningBwt.busy = true ∧
      decode runningBwt.cmd = .command .bwtFwd ∧
      ((footprint .bwtFwd runningBwt).1 ≤ 0x105 ∧ 0x105 < (footprint .bwtFwd runningBwt).1 + (footprint .bwtFwd runningBwt).2 ∧
        0x105 < runningBwt.params.memSize) ∧
      (footprint .bwtFwd runningBwt).1 + (footprint .bwtFwd runningBwt).2 ≤ 0x106 := by decide +kernel

/-- LEN = BWT_MAX_LEN, and the empty block. -/
theorem witness_BwtFwdWritesTheSortedLastColumn :
    (let s : State := { running banana with params := { bwtMaxLen := 6 } };
      s.len.toNat ≤ s.params.bwtMaxLen ∧ BlockOperands s ∧ (bytes banana).length = s.len.toNat ∧
        s.mem.Holds s.src.toNat (bytes banana)) ∧
      (running []).len.toNat ≤ (running []).params.bwtMaxLen ∧ BlockOperands (running []) ∧
      (bytes []).length = (running []).len.toNat ∧ (running []).mem.Holds (running []).src.toNat (bytes []) := by
  decide +kernel

theorem witness_BwtInvWritesTheMatrixRow :
    let s : State := { running banana with bwtIdx := 5#32 };
    s.len.toNat ≤ s.params.bwtMaxLen ∧ BlockOperands s ∧ (0 < s.len.toNat → s.bwtIdx.toNat < s.len.toNat) ∧
      (bytes banana).length = s.len.toNat ∧ s.mem.Holds s.src.toNat (bytes banana) := by decide +kernel

/-- BI13: y = 61 62 61, its positions in stable order 0, 2, 1, row 1. -/
theorem witness_MatrixInverseEqualsClosedForm :
    1 < (bytes [0x61, 0x62, 0x61]).length ∧ [0, 2, 1].Perm (List.range (bytes [0x61, 0x62, 0x61]).length) ∧
      ([0, 2, 1].Pairwise fun i j =>
        ((bytes [0x61, 0x62, 0x61]).getD i 0#8).toNat < ((bytes [0x61, 0x62, 0x61]).getD j 0#8).toNat ∨
          ((bytes [0x61, 0x62, 0x61]).getD i 0#8).toNat = ((bytes [0x61, 0x62, 0x61]).getD j 0#8).toNat ∧ i < j) ∧
      MatrixRow (bytes [0x61, 0x62, 0x61]) 1 (bytes [0x61, 0x62, 0x61]) :=
  ⟨by decide, by decide, by decide, by decide, bwtMatrix (bytes [0x61, 0x62, 0x61]), rfl, by decide, fun _ => by decide⟩

theorem witness_BwtRoundTrip :
    ∃ t, exec .bwtFwd (running banana) = .next t ∧ BlockOperands { t with src := (running banana).dst, dst := 0x200#32 } ∧
      (running banana).len.toNat ≤ (running banana).params.bwtMaxLen ∧ BlockOperands (running banana) ∧
      (bytes banana).length = (running banana).len.toNat ∧
      (running banana).mem.Holds (running banana).src.toNat (bytes banana) :=
  exists_next (by decide +kernel)

/-- One state for each check, at the first value that fails it (BF9, BF10, BF11, BI9). -/
theorem witness_BwtErrorsInOrder :
    (running []).params.bwtMaxLen < ({ running [] with len := 1000#32 }).len.toNat ∧
      (let s : State := { running [] with src := 0xFFFF#32, len := 2#32 };
        s.len.toNat ≤ s.params.bwtMaxLen ∧ ¬ (InMem s s.src.toNat s.len.toNat ∧ InMem s s.dst.toNat s.len.toNat)) ∧
      (let s : State := { running banana with dst := 5#32 };
        s.len.toNat ≤ s.params.bwtMaxLen ∧ InMem s s.src.toNat s.len.toNat ∧ InMem s s.dst.toNat s.len.toNat ∧
          ¬ Apart s.src.toNat s.len.toNat s.dst.toNat s.len.toNat ∧ s.src ≠ s.dst) ∧
      (let s : State := { running banana with bwtIdx := 6#32 };
        s.len.toNat ≤ s.params.bwtMaxLen ∧ BlockOperands s ∧ 0 < s.len.toNat ∧ s.len.toNat ≤ s.bwtIdx.toNat) := by
  decide +kernel

/-- Regions that touch, in place, ending at MEM_SIZE, and one byte too far (MT12-MT15). -/
theorem witness_MtfCommandsComplete :
    (let s : State := { running banana with dst := 6#32 };
      BlockOperands s ∧ (bytes banana).length = s.len.toNat ∧ s.mem.Holds s.src.toNat (bytes banana)) ∧
      BlockOperands { running banana with dst := 0#32 } ∧ BlockOperands { running banana with dst := 0xFFFA#32 } ∧
      (let s : State := { running banana with dst := 0xFFFB#32 };
        ¬ (InMem s s.src.toNat s.len.toNat ∧ InMem s s.dst.toNat s.len.toNat)) ∧
      (let s : State := { running banana with dst := 5#32 };
        InMem s s.src.toNat s.len.toNat ∧ InMem s s.dst.toNat s.len.toNat ∧
          ¬ Apart s.src.toNat s.len.toNat s.dst.toNat s.len.toNat ∧ s.src ≠ s.dst) := by decide +kernel

theorem witness_MtfInvolution :
    ∃ t, exec .mtfEnc (running banana) = .next t ∧ BlockOperands { t with src := (running banana).dst, dst := 0x200#32 } ∧
      BlockOperands (running banana) ∧ (bytes banana).length = (running banana).len.toNat ∧
      (running banana).mem.Holds (running banana).src.toNat (bytes banana) :=
  exists_next (by decide +kernel)

theorem witness_HufBuildBuildsTheModel :
    (let s := running banana;
      InMem s s.src.toNat s.len.toNat ∧ (bytes banana).length = s.len.toNat ∧ s.mem.Holds s.src.toNat (bytes banana)) ∧
      (let s : State := { running [] with src := 0xFFFF#32, len := 2#32 };
        ¬ InMem s s.src.toNat s.len.toNat) := by decide +kernel

/-- The empty input, one distinct value, and "banana". -/
theorem witness_HufBuildMergesToTheRoot :
    (∃ t, exec .hufBuild (running []) = .next t ∧ InMem (running []) 0 0 ∧
      (running []).mem.Holds (running []).src.toNat (bytes [])) ∧
      (∃ t, exec .hufBuild (running [7, 7]) = .next t ∧ bytes [7, 7] ≠ [] ∧ (∀ b ∈ bytes [7, 7], b = 7#8) ∧
        InMem (running [7, 7]) 0 2 ∧ (running [7, 7]).mem.Holds (running [7, 7]).src.toNat (bytes [7, 7])) ∧
      ∃ t, exec .hufBuild (running banana) = .next t ∧ bytes banana ≠ [] ∧ InMem (running banana) 0 6 ∧
        (running banana).mem.Holds (running banana).src.toNat (bytes banana) :=
  ⟨exists_next (by decide +kernel), exists_next (by decide +kernel), exists_next (by decide +kernel)⟩

/-- Two entries of equal count, as R253 orders them. -/
def twoEntries : List Occurrence := [⟨3, [0x61], .leaf 0x61⟩, ⟨3, [0x62], .leaf 0x62⟩]

theorem witness_SelectionTakesTheLowestLeastCount :
    (0 < twoEntries.length ∧ some 0 ≠ (none : Option Nat)) ∧ (1 < twoEntries.length ∧ some 1 ≠ some 0) ∧
      twoEntries[1]? = some ⟨3, [0x62], .leaf 0x62⟩ ∧
      twoEntries[leastIndex none twoEntries]? = some ⟨3, [0x61], .leaf 0x61⟩ := by decide

theorem witness_MergePutsEveryEntryInItsPlace :
    2 ≤ twoEntries.length ∧ leastIndex none twoEntries = 0 ∧ leastIndex (some 0) twoEntries = 1 ∧
      twoEntries[0]? = some ⟨3, [0x61], .leaf 0x61⟩ ∧ twoEntries[1]? = some ⟨3, [0x62], .leaf 0x62⟩ ∧
      0 < twoEntries.length - 1 := by decide

/-- A capacity of exactly the two bytes predicted. -/
theorem witness_PredictedSizeIsExact :
    ∃ t, exec .hufBuild (running banana) = .next t ∧ CoderOperands { t with dst := 0x100#32, dstCap := 2#32 } ∧
      t.outLen.toNat ≤ (2#32).toNat ∧ (running banana).params.legal ∧ InMem (running banana) 0 6 ∧
      (bytes banana).length = (running banana).len.toNat ∧
      (running banana).mem.Holds (running banana).src.toNat (bytes banana) :=
  exists_next (by decide +kernel)

theorem witness_CodeIsThePathToTheLeaf :
    bananaTree.leaves.Nodup ∧ (0x62#8) ≠ 0x6E#8 ∧ (TreeState.tree bananaTree).code 0x62 = some [true, false] ∧
      (TreeState.tree bananaTree).code 0x6E = some [true, true] := by decide

theorem witness_HuffmanCodesAreOptimal :
    (∃ t, exec .hufBuild (running banana) = .next t ∧ (running banana).params.legal ∧ InMem (running banana) 0 6 ∧
      (bytes banana).length = (running banana).len.toNat ∧
      (running banana).mem.Holds (running banana).src.toNat (bytes banana) ∧
      (bytes banana).count 0x62 < (bytes banana).count 0x61 ∧
      t.tree.code 0x62 = some [true, false] ∧ t.tree.code 0x6E = some [true, true]) ∧
      PrefixCode (bytes banana) bananaCode :=
  ⟨exists_next (by decide +kernel), by unfold PrefixCode; decide⟩

/-- A capacity of exactly the 16 bytes (TS12). -/
theorem witness_TreeSerWritesTheSideChannel :
    let s : State := { withModel [] with dstCap := 16#32 };
    InMem s s.dst.toNat s.dstCap.toNat ∧ s.tree ≠ .invalid ∧
      12 + s.tree.leaves.length + ceil8 s.tree.shape.length ≤ s.dstCap.toNat := by decide +kernel

/-- TS15, TS13, TS11. -/
theorem witness_TreeSerErrorsInOrder :
    (let s : State := { running [] with dst := 0xFFF8#32, dstCap := 16#32 };
      ¬ InMem s s.dst.toNat s.dstCap.toNat) ∧
      (let s := running [];
        InMem s s.dst.toNat s.dstCap.toNat ∧ s.tree = .invalid) ∧
      (let s : State := { withModel [] with dstCap := 15#32 };
        InMem s s.dst.toNat s.dstCap.toNat ∧ s.tree ≠ .invalid ∧
          s.dstCap.toNat < 12 + s.tree.leaves.length + ceil8 s.tree.shape.length) := by decide +kernel

theorem witness_ShapeBitsAndPacking : 15 < 8 * ceil8 9 := by decide

theorem witness_ShapeParseInvertsTheShape :
    bananaTree.shape = [true, false, true, false, false] ∧ bananaTree.leaves = [0x61, 0x62, 0x6E] := by decide

/-- TD3: pad bits 111 and a byte after the end. -/
def sideChannelBytes : List Nat := [0xFF, 0xFF, 0xFF, 0xFF, 6, 0, 0, 0, 3, 0, 5, 0, 0x61, 0x62, 0x6E, 0xA7, 0x55]

theorem witness_TreeDesLoadsAnyWellFormedSideChannel :
    let s := running sideChannelBytes;
    let ts := TreeState.tree bananaTree
    let pad := bytes [0xA7]
    InMem s s.src.toNat s.len.toNat ∧ ts ≠ .invalid ∧ ts.wf ∧ pad.length = ceil8 ts.shape.length ∧
      streamBits pad ts.shape.length = ts.shape ∧ 12 + ts.leaves.length + ceil8 ts.shape.length ≤ s.len.toNat ∧
      s.mem.Holds s.src.toNat
        (le32 0xFFFFFFFF#32 ++ le32 6#32 ++ le16 ts.leaves.length ++ le16 ts.shape.length ++ ts.leaves ++ pad) := by
  decide +kernel

/-- A header with L and B. -/
def headerOf (L B : Nat) : List Byte := bytes [0, 0, 0, 0, 0, 0, 0, 0] ++ le16 L ++ le16 B

/-- TD18, TD8, TD10, TD17, TD11, TD9: the region, the header, the counts and the length. -/
theorem witness_TreeDesRejectsMalformedHeaders :
    (let s : State := { running [] with src := 0xFFFC#32, len := 8#32 };
      ¬ InMem s s.src.toNat s.len.toNat) ∧
      (let s := running (sideChannelBytes.take 11);
        InMem s s.src.toNat s.len.toNat ∧ s.len.toNat < 12) ∧
      (let s := running ((headerOf 3 5).map BitVec.toNat);
        InMem s s.src.toNat s.len.toNat ∧ 12 ≤ s.len.toNat ∧ (headerOf 3 5).length = 12 ∧
          s.mem.Holds s.src.toNat (headerOf 3 5) ∧ s.len.toNat < 12 + 3 + ceil8 5) ∧
      (257 = ((headerOf 257 513).getD 8 0#8).toNat + 256 * ((headerOf 257 513).getD 9 0#8).toNat ∧ 256 < 257) ∧
      (0 = ((headerOf 0 1).getD 8 0#8).toNat + 256 * ((headerOf 0 1).getD 9 0#8).toNat ∧
        1 = ((headerOf 0 1).getD 10 0#8).toNat + 256 * ((headerOf 0 1).getD 11 0#8).toNat) ∧
      1 = ((headerOf 1 0).getD 8 0#8).toNat + 256 * ((headerOf 1 0).getD 9 0#8).toNat ∧
      0 = ((headerOf 1 0).getD 10 0#8).toNat + 256 * ((headerOf 1 0).getD 11 0#8).toNat := by decide +kernel

/-- TD12 and TD15: two equal leaves; and one leaf whose shape bit says that it is a node. -/
theorem witness_TreeDesRejectsMalformedBodies :
    (let s := running ((headerOf 3 5).map BitVec.toNat ++ [0x61, 0x61, 0x6E, 0xA0]);
      InMem s s.src.toNat s.len.toNat ∧ s.mem.Holds s.src.toNat (headerOf 3 5) ∧
        s.mem.Holds (s.src.toNat + 12) (bytes [0x61, 0x61, 0x6E] ++ bytes [0xA0]) ∧ 12 + 3 + ceil8 5 ≤ s.len.toNat ∧
        ¬ (bytes [0x61, 0x61, 0x6E]).Nodup) ∧
      (let s := running ((headerOf 1 1).map BitVec.toNat ++ [0x61, 0x80]);
        InMem s s.src.toNat s.len.toNat ∧ s.mem.Holds s.src.toNat (headerOf 1 1) ∧
          s.mem.Holds (s.src.toNat + 12) (bytes [0x61] ++ bytes [0x80]) ∧ 12 + 1 + ceil8 1 ≤ s.len.toNat) ∧
      ∀ t : CodeTree, ¬ (t.shape = streamBits (bytes [0x80]) 1 ∧ t.leaves = bytes [0x61]) := by
  refine ⟨by decide +kernel, by decide +kernel, fun t h => ?_⟩
  have hs : streamBits (bytes [0x80]) 1 = [true] := by decide
  cases t with
  | leaf c => rw [hs] at h; simp [CodeTree.shape] at h
  | node l r =>
    have hl : l.shape ≠ [] := by cases l <;> simp [CodeTree.shape]
    rw [hs] at h
    simp only [CodeTree.shape, List.cons.injEq, true_and, List.append_eq_nil_iff] at h
    exact hl h.1.1

theorem witness_SideChannelRoundTrip :
    ∃ t, exec .treeSer (withModel []) = .next t ∧ t.err = false ∧
      InMem (withModel []) (withModel []).dst.toNat (withModel []).dstCap.toNat ∧ (withModel []).tree ≠ .invalid ∧
      (withModel []).tree.wf ∧ (withModel []).err = false :=
  exists_next (by decide +kernel)

/-- A capacity of exactly the two bytes. -/
theorem witness_EntEncWritesThePackedCodes :
    let s : State := { withModel banana with dstCap := 2#32 };
    CoderOperands s ∧ s.tree ≠ .invalid ∧ (bytes banana).length = s.len.toNat ∧ s.mem.Holds s.src.toNat (bytes banana) ∧
      (∀ b ∈ bytes banana, s.tree.code b = some (bananaCode b)) ∧
      ceil8 ((bytes banana).flatMap bananaCode).length ≤ s.dstCap.toNat := by decide +kernel

/-- 9B 7F: other bits after the ninth; a capacity of exactly the six bytes. -/
theorem witness_EntDecDecodesTheCodes :
    let s : State := { withModel [0x9B, 0x7F] with dstCap := 6#32 };
    CoderOperands s ∧ s.tree ≠ .invalid ∧ s.tree.wf ∧ s.usize.toNat = (bytes banana).length ∧
      (bytes banana).length ≤ s.dstCap.toNat ∧ (∀ b ∈ bytes banana, s.tree.code b = some (bananaCode b)) ∧
      (bytes [0x9B, 0x7F]).length = ceil8 ((bytes banana).flatMap bananaCode).length ∧
      (bytes [0x9B, 0x7F]).length ≤ s.len.toNat ∧ s.mem.Holds s.src.toNat (bytes [0x9B, 0x7F]) ∧
      streamBits (bytes [0x9B, 0x7F]) ((bytes banana).flatMap bananaCode).length = (bytes banana).flatMap bananaCode := by
  decide +kernel

theorem witness_EntropyRoundTrip :
    ∃ t, exec .entEnc (withModel banana) = .next t ∧ t.err = false ∧ CoderOperands (withModel banana) ∧
      (withModel banana).tree ≠ .invalid ∧ (withModel banana).tree.wf ∧ (withModel banana).err = false ∧
      (bytes banana).length = (withModel banana).len.toNat ∧
      (withModel banana).mem.Holds (withModel banana).src.toNat (bytes banana) ∧
      CoderOperands (withModel [0x9B, 0x00]) ∧ (withModel [0x9B, 0x00]).tree = (withModel banana).tree ∧
      (withModel [0x9B, 0x00]).usize = (withModel banana).len ∧ (withModel [0x9B, 0x00]).len = t.outLen ∧
      (bytes banana).length ≤ (withModel [0x9B, 0x00]).dstCap.toNat ∧
      ∀ k, k < t.outLen.toNat → (withModel [0x9B, 0x00]).mem.read ((withModel [0x9B, 0x00]).src.toNat + k) =
        t.mem.read ((withModel banana).dst.toNat + k) :=
  exists_next (by decide +kernel)

theorem witness_EntDecWhereNoBitIsRead :
    (let s : State := { running [] with tree := .tree (.leaf 0x61), usize := 0x40#32 };
      CoderOperands s ∧ s.tree = .tree (.leaf 0x61) ∧ s.usize.toNat ≤ s.dstCap.toNat) ∧
      (let s : State := { running [] with tree := .empty };
        CoderOperands s ∧ s.tree ≠ .invalid ∧ s.usize = 0#32) := by decide +kernel

theorem witness_EntDecCountsItsBits :
    ∃ t, exec .entDec (withModel [0x9B, 0x00]) = .next t ∧ t.err = false ∧ (withModel [0x9B, 0x00]).tree.wf ∧
      (withModel [0x9B, 0x00]).params.legal ∧ (withModel [0x9B, 0x00]).err = false :=
  exists_next (by decide +kernel)

/-- The operand checks, one state each, in the order of the statement's clauses. -/
theorem witness_EntropyCoderErrorsInOrder :
    (let s : State := { withModel banana with dst := 0xFFF1#32, dstCap := 16#32 };
      ¬ (InMem s s.src.toNat s.len.toNat ∧ InMem s s.dst.toNat s.dstCap.toNat)) ∧
      (let s : State := { withModel banana with dst := 5#32 };
        InMem s s.src.toNat s.len.toNat ∧ InMem s s.dst.toNat s.dstCap.toNat ∧
          ¬ Apart s.src.toNat s.len.toNat s.dst.toNat s.dstCap.toNat) ∧
      (CoderOperands (running banana) ∧ (running banana).tree = .invalid) := by decide +kernel

/-- Every code of "banana" has a bit, so nine of them are no prefix of eight bits. -/
theorem nine_codes_exceed_eight_bits (stream : List Byte) (y : List Byte) (hy : y.length = 9) :
    ¬ y.flatMap bananaCode <+: streamBits stream 8 := by
  intro hp
  have hlen : ∀ z : List Byte, z.length ≤ (z.flatMap bananaCode).length := by
    intro z
    induction z with
    | nil => simp
    | cons b z ih =>
      have : 1 ≤ (bananaCode b).length := by unfold bananaCode; split <;> (try split) <;> simp
      simp only [List.flatMap_cons, List.length_append, List.length_cons]; omega
  have h1 := hlen y
  have h2 := hp.length_le
  simp only [streamBits, List.length_map, List.length_range] at h2
  omega

/-- The checks on the data: an absent byte, one byte of capacity too few, EMPTY with a symbol to emit, 8 bits for 9 symbols. -/
theorem witness_EntropyCoderDataErrors :
    (let s := withModel [0x62, 0x61, 0x64];
      CoderOperands s ∧ s.tree ≠ .invalid ∧ (bytes [0x62, 0x61, 0x64]).length = s.len.toNat ∧
        s.mem.Holds s.src.toNat (bytes [0x62, 0x61, 0x64]) ∧ 0x64#8 ∈ bytes [0x62, 0x61, 0x64] ∧ s.tree.code 0x64 = none) ∧
      (let s : State := { withModel banana with dstCap := 1#32 };
        CoderOperands s ∧ s.tree ≠ .invalid ∧ (bytes banana).length = s.len.toNat ∧
          s.mem.Holds s.src.toNat (bytes banana) ∧ (∀ b ∈ bytes banana, s.tree.code b = some (bananaCode b)) ∧
          s.dstCap.toNat < ceil8 ((bytes banana).flatMap bananaCode).length ∧ s.dstCap.toNat < s.usize.toNat) ∧
      (let s : State := { running [] with tree := .empty, usize := 1#32 };
        CoderOperands s ∧ s.usize.toNat ≤ s.dstCap.toNat ∧ s.tree = .empty ∧ 0 < s.usize.toNat) ∧
      (let s : State := { withModel [0x9B] with usize := 9#32 };
        CoderOperands s ∧ s.usize.toNat ≤ s.dstCap.toNat ∧
          s.tree = .tree (.node (.leaf 0x61) (.node (.leaf 0x62) (.leaf 0x6E))) ∧ s.tree.wf ∧
          (bytes [0x9B]).length = s.len.toNat ∧ s.mem.Holds s.src.toNat (bytes [0x9B]) ∧
          ∀ b ∈ s.tree.leaves, s.tree.code b = some (bananaCode b)) ∧
      ∀ y : List Byte, y.length = 9 → ¬ y.flatMap bananaCode <+: streamBits (bytes [0x9B]) 8 := by
  exact ⟨by decide +kernel, by decide +kernel, by decide +kernel, by decide +kernel, nine_codes_exceed_eight_bits _⟩

theorem witness_EveryStepKeepsTheInvariant : MachineInv runningBwt ∧ ∃ t, step runningBwt = .next t ∧ t.bwtIdx = 3#32 :=
  ⟨{ paramsLegal := by decide +kernel
     memCanonical := by decide +kernel
     memInRange := by decide +kernel
     treeLegal := by decide +kernel
     flagsLegal := by decide +kernel
     errCodeIff := by decide +kernel
     errCodeLe := by decide +kernel
     lastOpIsOpcode := by decide +kernel
     errRecord := by decide +kernel
     freqInRange := fun b => by simp [FreqTable.at, runningBwt, running, State.reset] },
    exists_next (by decide +kernel)⟩

theorem witness_OnlyModelCommandsAndResetsWriteTheModel :
    ∃ t, step { running banana with cmd := 5#32 } = .next t ∧
      (t.tree ≠ ({ running banana with cmd := 5#32 } : State).tree ∨
        t.freq ≠ ({ running banana with cmd := 5#32 } : State).freq) :=
  exists_next (by decide +kernel)

theorem witness_CommandsWriteOnlyTheirOutput :
    (∃ t, exec .hufBuild (running banana) = .next t ∧ Instr.hufBuild ∈ [Instr.nop, .hufBuild, .treeDes]) ∧
      (∃ t, exec .entEnc (running banana) = .next t ∧ (running banana).err = false ∧ t.err = true) ∧
      ∃ t, exec .mtfEnc (running banana) = .next t ∧ Instr.mtfEnc ∉ [Instr.nop, .hufBuild, .treeDes] ∧
        (running banana).err = false ∧ t.err = false :=
  ⟨exists_next (by decide +kernel), exists_next (by decide +kernel), exists_next (by decide +kernel)⟩

/-- The last byte of seven is unwritten; byte 3 of a word is; the first offset outside each window; a word across MEM_SIZE. -/
theorem witness_UnwrittenAndUndecodedAccessesStop :
    (let s : State := { withModel banana with len := 7#32, bwtIdx := 6#32 };
      6 < s.len.toNat ∧ s.mem.Written s.src.toNat 6 ∧ s.mem.read (s.src.toNat + 6) = none ∧
        s.len.toNat ≤ s.params.bwtMaxLen ∧ BlockOperands s ∧ s.bwtIdx.toNat < s.len.toNat ∧
        InMem s s.src.toNat s.len.toNat ∧ CoderOperands s ∧ s.tree ≠ .invalid ∧ s.tree ≠ .empty) ∧
      (let s : State := { running [1, 2, 3] with busy := false };
        s.busy = false ∧ 0 % 4 = 0 ∧ 0 + 4 ≤ s.params.memSize ∧ s.mem.Written 0 3 ∧ s.mem.read (0 + 3) = none) ∧
      windowSize State.reset.params .mem ≤ (mrTxn 1 65536).offset ∧
      windowSize State.reset.params .reg ≤ ({ dir := .read, window := .reg, offset := 4096, width := 4 } : Txn).offset ∧
      (mrTxn 4 4).window = .mem ∧ (mrTxn 4 4).wf ∧ (mrTxn 4 4).offset < ({ memSize := 6, bwtMaxLen := 6 } : Params).memSize ∧
      ({ memSize := 6, bwtMaxLen := 6 } : Params).memSize < (mrTxn 4 4).offset + (mrTxn 4 4).width := by
  decide +kernel

/-- TREE_DES with the last byte of the header unwritten. -/
theorem witness_UnwrittenHeaderStops :
    let s : State := { running (sideChannelBytes.take 11) with len := 12#32 };
    11 < s.len.toNat ∧ s.mem.Written s.src.toNat 11 ∧ s.mem.read (s.src.toNat + 11) = none ∧
      InMem s s.src.toNat s.len.toNat ∧ 12 ≤ s.len.toNat := by decide +kernel

/-- TREE_DES over a side channel of 16 bytes whose bytes from l on are unwritten. -/
def truncatedAt (l : List Nat) : State := { running ((headerOf 3 5).map BitVec.toNat ++ l) with len := 16#32 }

/-- The first byte after the header is unwritten; and the last byte of the body is. -/
theorem witness_UnwrittenBodyStops :
    ((truncatedAt []).mem.Written 0 12 ∧ (truncatedAt []).mem.read (0 + 12) = none) ∧
      ((truncatedAt [0x61, 0x62, 0x6E]).mem.Written 0 15 ∧ (truncatedAt [0x61, 0x62, 0x6E]).mem.read (0 + 15) = none) ∧
      (truncatedAt []).src.toNat = 0 ∧ InMem (truncatedAt []) 0 16 ∧ (headerOf 3 5).length = 12 ∧
      (truncatedAt []).mem.Holds 0 (headerOf 3 5) ∧ (truncatedAt [0x61, 0x62, 0x6E]).mem.Holds 0 (headerOf 3 5) ∧
      3 = ((headerOf 3 5).getD 8 0#8).toNat + 256 * ((headerOf 3 5).getD 9 0#8).toNat ∧
      5 = ((headerOf 3 5).getD 10 0#8).toNat + 256 * ((headerOf 3 5).getD 11 0#8).toNat ∧ 5 = 2 * 3 - 1 ∧
      12 + 3 + ceil8 5 ≤ (truncatedAt []).len.toNat := by decide +kernel

/-- ENT_DEC of nine symbols, with one written byte of two. -/
theorem witness_UnwrittenStreamByteStops :
    (let s : State := { withModel [0x9B] with len := 2#32, usize := 9#32 };
      CoderOperands s ∧ s.usize.toNat ≤ s.dstCap.toNat ∧
        s.tree = .tree (.node (.leaf 0x61) (.node (.leaf 0x62) (.leaf 0x6E))) ∧ s.tree.wf ∧
        (∀ b ∈ s.tree.leaves, s.tree.code b = some (bananaCode b)) ∧ (bytes [0x9B]).length < s.len.toNat ∧
        s.mem.Holds s.src.toNat (bytes [0x9B]) ∧ s.mem.read (s.src.toNat + (bytes [0x9B]).length) = none) ∧
      ∀ y : List Byte, y.length = 9 → ¬ y.flatMap bananaCode <+: streamBits (bytes [0x9B]) 8 :=
  ⟨by decide +kernel, nine_codes_exceed_eight_bits _⟩

end Sys2Proof.Tests
end

section
/-! PROOFS. Shape bits and bit streams (R11, R311). -/

namespace Sys2Proof.Machine

/-- Bit k of the stream that `streamBits` reads stands at bit position 7 - (k mod 8) of byte k div 8 (R11). -/
theorem streamBits_getElem? (bytes : List Byte) {n k : Nat} (h : k < n) :
    (streamBits bytes n)[k]? = some ((bytes.getD (k / 8) 0#8).getLsbD (7 - k % 8)) := by
  have hbit : (streamBits bytes n)[k]? = some (streamBit bytes k) := by
    simp only [streamBits, List.getElem?_map, List.getElem?_range h, Option.map_some]
  exact hbit

/-- The length of a shape, as R311 writes it; `shape_length` is the form without subtraction. -/
theorem shape_length_eq (t : CodeTree) : t.shape.length = 2 * t.leaves.length - 1 := by
  have hlen := shape_length t
  omega

/-- Settles O45: the shape and leaf equations are the definitions' own; the lengths and the places of the bits are the
lemmas about `shape`, `streamBits` and `packBits`. -/
theorem shapeBitsAndPacking : Obligations.ShapeBitsAndPacking := by
  unfold Obligations.ShapeBitsAndPacking
  refine ⟨fun c => ⟨rfl, rfl⟩, fun l r => ⟨rfl, rfl⟩, ⟨shape_empty, leaves_empty⟩, shape_length_eq, ?_, ?_⟩
  case refine_1 =>
    intro bytes n k hk
    exact streamBits_getElem? bytes hk
  case refine_2 =>
    intro bits
    exact ⟨packBits_length bits, fun k hk => streamBit_packBits bits hk⟩

end Sys2Proof.Machine
end

section
/-! PROOFS. What each command's success writes (R174, R175): one inversion lemma per command, and where a success writes. -/

namespace Sys2Proof.Machine

/-- A success of BWT_FWD (R201-R206). -/
theorem bwtFwdVerdict_eq_ok {s : State} {e : Effects} (h : bwtFwdVerdict s = .ok e) :
    (s.len.toNat ≤ s.params.bwtMaxLen ∧ BlockOperands s) ∧
      ∃ x, x.length = s.len.toNat ∧ s.mem.Holds s.src.toNat x ∧
        e = { dst := s.dst.toNat, out := bwtLastColumn x, bwtIdx := some (bwtPrimaryIndex x), outLen := x.length,
              outBits := 0 } := by
  obtain ⟨hpass, hk⟩ := checked_eq_ok h
  obtain ⟨x, hlen, hx, he⟩ := Verdict.withInput_eq_ok hk
  exact ⟨(operandChecks_bwtFwd_none_iff s).mp hpass, x, hlen, hx, (Verdict.ok.inj he).symm⟩

/-- A success of BWT_INV (R208-R212). -/
theorem bwtInvVerdict_eq_ok {s : State} {e : Effects} (h : bwtInvVerdict s = .ok e) :
    (s.len.toNat ≤ s.params.bwtMaxLen ∧ BlockOperands s ∧ (0 < s.len.toNat → s.bwtIdx.toNat < s.len.toNat)) ∧
      ∃ y, y.length = s.len.toNat ∧ s.mem.Holds s.src.toNat y ∧
        e = { dst := s.dst.toNat, out := bwtInverse y s.bwtIdx.toNat, outLen := y.length, outBits := 0 } := by
  obtain ⟨hpass, hk⟩ := checked_eq_ok h
  obtain ⟨y, hlen, hy, he⟩ := Verdict.withInput_eq_ok hk
  exact ⟨(operandChecks_bwtInv_none_iff s).mp hpass, y, hlen, hy, (Verdict.ok.inj he).symm⟩

/-- A success of MTF_ENC (R231). -/
theorem mtfEncVerdict_eq_ok {s : State} {e : Effects} (h : mtfEncVerdict s = .ok e) :
    BlockOperands s ∧
      ∃ x, x.length = s.len.toNat ∧ s.mem.Holds s.src.toNat x ∧
        e = { dst := s.dst.toNat, out := mtfEncode x, outLen := x.length, outBits := 0 } := by
  obtain ⟨hpass, hk⟩ := checked_eq_ok h
  obtain ⟨x, hlen, hx, he⟩ := Verdict.withInput_eq_ok hk
  exact ⟨(operandChecks_mtfEnc_none_iff s).mp hpass, x, hlen, hx, (Verdict.ok.inj he).symm⟩

/-- A success of MTF_DEC (R232). -/
theorem mtfDecVerdict_eq_ok {s : State} {e : Effects} (h : mtfDecVerdict s = .ok e) :
    BlockOperands s ∧
      ∃ x, x.length = s.len.toNat ∧ s.mem.Holds s.src.toNat x ∧
        e = { dst := s.dst.toNat, out := mtfDecode x, outLen := x.length, outBits := 0 } := by
  obtain ⟨hpass, hk⟩ := checked_eq_ok h
  obtain ⟨x, hlen, hx, he⟩ := Verdict.withInput_eq_ok hk
  exact ⟨(operandChecks_mtfDec_none_iff s).mp hpass, x, hlen, hx, (Verdict.ok.inj he).symm⟩

/-- A success of HUF_BUILD (R250-R260). -/
theorem hufBuildVerdict_eq_ok {s : State} {e : Effects} (h : hufBuildVerdict s = .ok e) :
    InMem s s.src.toNat s.len.toNat ∧
      ∃ x, x.length = s.len.toNat ∧ s.mem.Holds s.src.toNat x ∧
        e = { usize := some x.length
              model := some (huffmanModel x, FreqTable.ofCounts (occurrences x))
              outLen := ceil8 (predictedBits (huffmanModel x) x)
              outBits := predictedBits (huffmanModel x) x } := by
  obtain ⟨hpass, hk⟩ := checked_eq_ok h
  obtain ⟨x, hlen, hx, he⟩ := Verdict.withInput_eq_ok hk
  exact ⟨(operandChecks_hufBuild_none_iff s).mp hpass, x, hlen, hx, (Verdict.ok.inj he).symm⟩

/-- A success of TREE_SER (R312, R313). -/
theorem treeSerVerdict_eq_ok {s : State} {e : Effects} (h : treeSerVerdict s = .ok e) :
    (InMem s s.dst.toNat s.dstCap.toNat ∧ s.tree ≠ .invalid) ∧
      sideChannelSize s.tree.leaves.length s.tree.shape.length ≤ s.dstCap.toNat ∧
      e = { dst := s.dst.toNat
            out := sideChannel s.tree s.bwtIdx s.usize
            outLen := sideChannelSize s.tree.leaves.length s.tree.shape.length
            outBits := s.tree.shape.length } := by
  obtain ⟨hpass, hk⟩ := checked_eq_ok h
  refine ⟨(operandChecks_treeSer_none_iff s).mp hpass, ?_⟩
  dsimp only at hk
  split at hk
  next hcap => exact ⟨hcap, (Verdict.ok.inj hk).symm⟩
  next => cases hk

/-- A success of TREE_DES (R315-R318): the header h, the leaf and shape bytes behind it, and the model they stand for. -/
theorem treeDesVerdict_eq_ok {s : State} {e : Effects} (h : treeDesVerdict s = .ok e) :
    (InMem s s.src.toNat s.len.toNat ∧ 12 ≤ s.len.toNat) ∧
      ∃ hd body idx usize L B ts, hd.length = 12 ∧ s.mem.Holds s.src.toNat hd ∧ headerFields hd = (idx, usize, L, B) ∧
        countsAgree L B = true ∧ sideChannelSize L B ≤ s.len.toNat ∧
        body.length = L + ceil8 B ∧ s.mem.Holds (s.src.toNat + 12) body ∧ modelOfBody L B body = some ts ∧
        e = { bwtIdx := some idx, usize := some usize, model := some (ts, FreqTable.zero)
              outLen := sideChannelSize L B, outBits := B } := by
  obtain ⟨hpass, hk⟩ := checked_eq_ok h
  split at hk
  next => cases hk
  next hlong =>
    obtain ⟨hd, hdlen, hhd, hk⟩ := Verdict.withInput_eq_ok hk
    rcases hf : headerFields hd with ⟨idx, usize, L, B⟩
    simp only [hf] at hk
    split at hk
    next => cases hk
    next hcounts =>
      split at hk
      next => cases hk
      next hneed =>
        obtain ⟨body, hbody, hholds, hk⟩ := Verdict.withInput_eq_ok hk
        split at hk
        next => cases hk
        next ts hts =>
          exact ⟨⟨(operandChecks_treeDes_none_iff s).mp hpass, Nat.not_lt.mp hlong⟩, hd, body, idx, usize, L, B, ts, hdlen,
            hhd, hf, by simpa using hcounts, Nat.not_lt.mp hneed, hbody, hholds, hts, (Verdict.ok.inj hk).symm⟩

/-- A success of ENT_ENC (R340-R343). -/
theorem entEncVerdict_eq_ok {s : State} {e : Effects} (h : entEncVerdict s = .ok e) :
    (CoderOperands s ∧ s.tree ≠ .invalid) ∧
      ∃ x bits, x.length = s.len.toNat ∧ s.mem.Holds s.src.toNat x ∧ encodeBits s.tree x = some bits ∧
        ceil8 bits.length ≤ s.dstCap.toNat ∧
        e = { dst := s.dst.toNat, out := packBits bits, outLen := ceil8 bits.length, outBits := bits.length } := by
  obtain ⟨hpass, hk⟩ := checked_eq_ok h
  refine ⟨(operandChecks_entEnc_none_iff s).mp hpass, ?_⟩
  split at hk
  next => cases hk
  next =>
    obtain ⟨x, hlen, hx, hk⟩ := Verdict.withInput_eq_ok hk
    split at hk
    next => cases hk
    next bits hbits =>
      split at hk
      next hcap => exact ⟨x, bits, hlen, hx, hbits, hcap, (Verdict.ok.inj hk).symm⟩
      next => cases hk

/-- A success of ENT_DEC (R344-R348). -/
theorem entDecVerdict_eq_ok {s : State} {e : Effects} (h : entDecVerdict s = .ok e) :
    (CoderOperands s ∧ s.tree ≠ .invalid ∧ s.usize.toNat ≤ s.dstCap.toNat) ∧
      ∃ out pos, entDecWalk s = .done out pos ∧
        e = { dst := s.dst.toNat, out := out, outLen := s.usize.toNat, outBits := pos } := by
  obtain ⟨hpass, hk⟩ := checked_eq_ok h
  refine ⟨(operandChecks_entDec_none_iff s).mp hpass, ?_⟩
  split at hk
  next out pos hwalk => exact ⟨out, pos, hwalk, (Verdict.ok.inj hk).symm⟩
  all_goals cases hk

/-- ENT_DEC emits USIZE symbols (R349). -/
theorem entDecWalk_done_length {s : State} {out : List Byte} {pos : Nat} (h : entDecWalk s = .done out pos) :
    out.length = s.usize.toNat := by
  unfold entDecWalk at h
  split at h
  case h_1 => cases h
  case h_2 =>
    split at h
    next hzero => cases h; exact hzero.symm
    next => cases h
  case h_3 => cases h; exact List.length_replicate
  case h_4 => exact walkTree_done_length h

/-- A region that fits in MEM still fits when it is made shorter (R105). -/
theorem InMem.of_le {s : State} {a l l' : Nat} (h : InMem s a l) (hle : l' ≤ l) : InMem s a l' := by
  unfold InMem at *; omega

/-- A success writes inside MEM (R175, R180). -/
theorem verdictOf_ok_inMem {i : Instr} {s : State} {e : Effects} (h : verdictOf i s = .ok e) : InMem s e.dst e.out.length := by
  cases i with
  | nop => cases h; exact .inl rfl
  | bwtFwd =>
    obtain ⟨⟨_, _, hdst, _⟩, x, hlen, _, rfl⟩ := bwtFwdVerdict_eq_ok h
    simpa [hlen] using hdst
  | bwtInv =>
    obtain ⟨⟨_, ⟨_, hdst, _⟩, hidx⟩, y, hlen, _, rfl⟩ := bwtInvVerdict_eq_ok h
    simpa [bwtInverse_length (hlen ▸ hidx), hlen] using hdst
  | mtfEnc =>
    obtain ⟨⟨_, hdst, _⟩, x, hlen, _, rfl⟩ := mtfEncVerdict_eq_ok h
    simpa [hlen] using hdst
  | mtfDec =>
    obtain ⟨⟨_, hdst, _⟩, x, hlen, _, rfl⟩ := mtfDecVerdict_eq_ok h
    simpa [hlen] using hdst
  | hufBuild =>
    obtain ⟨_, x, _, _, rfl⟩ := hufBuildVerdict_eq_ok h
    exact .inl rfl
  | treeSer =>
    obtain ⟨⟨hdst, _⟩, hcap, rfl⟩ := treeSerVerdict_eq_ok h
    exact hdst.of_le (by simpa using hcap)
  | treeDes =>
    obtain ⟨_, hd, body, idx, usize, L, B, ts, _, _, _, _, _, _, _, _, rfl⟩ := treeDesVerdict_eq_ok h
    exact .inl rfl
  | entEnc =>
    obtain ⟨⟨⟨_, hdst, _⟩, _⟩, _, _, _, _, _, hcap, rfl⟩ := entEncVerdict_eq_ok h
    exact hdst.of_le (by simpa using hcap)
  | entDec =>
    obtain ⟨⟨⟨_, hdst, _⟩, _, hcap⟩, out, _, hwalk, rfl⟩ := entDecVerdict_eq_ok h
    exact hdst.of_le (by simpa [entDecWalk_done_length hwalk] using hcap)

/-- Only HUF_BUILD and TREE_DES replace TREE and FREQ (R60, R61). -/
theorem verdictOf_ok_model {i : Instr} {s : State} {e : Effects} (h : verdictOf i s = .ok e) (hm : e.model ≠ none) :
    i = .hufBuild ∨ i = .treeDes := by
  cases i with
  | hufBuild => exact .inl rfl
  | treeDes => exact .inr rfl
  | nop => cases h; exact absurd rfl hm
  | bwtFwd => obtain ⟨_, _, _, _, rfl⟩ := bwtFwdVerdict_eq_ok h; exact absurd rfl hm
  | bwtInv => obtain ⟨_, _, _, _, rfl⟩ := bwtInvVerdict_eq_ok h; exact absurd rfl hm
  | mtfEnc => obtain ⟨_, _, _, _, rfl⟩ := mtfEncVerdict_eq_ok h; exact absurd rfl hm
  | mtfDec => obtain ⟨_, _, _, _, rfl⟩ := mtfDecVerdict_eq_ok h; exact absurd rfl hm
  | treeSer => obtain ⟨_, _, rfl⟩ := treeSerVerdict_eq_ok h; exact absurd rfl hm
  | entEnc => obtain ⟨_, _, _, _, _, _, _, rfl⟩ := entEncVerdict_eq_ok h; exact absurd rfl hm
  | entDec => obtain ⟨_, _, _, _, rfl⟩ := entDecVerdict_eq_ok h; exact absurd rfl hm

end Sys2Proof.Machine
end

section
/-! PROOFS. The models that HUF_BUILD and TREE_DES build are legal (R60, R61): a merge keeps the leaves, and a parsed tree has
the leaves it was given. -/

namespace Sys2Proof.Machine

/-! ### The two least entries (R253) -/

/-- The search never forgets the entry it has. -/
theorem leastFrom_some_ne_none (skip : Option Nat) (E : List Occurrence) (i : Nat) (best : Nat × Nat) :
    leastFrom skip E i (some best) ≠ none := by
  induction E generalizing i best with
  | nil => simp [leastFrom]
  | cons e rest ih =>
    obtain ⟨j, c⟩ := best
    simp only [leastFrom]
    split
    · exact ih _ _
    · split <;> exact ih _ _

/-- The search finds an entry wherever one may be selected. -/
theorem leastFrom_ne_none {skip : Option Nat} {E : List Occurrence} {i j : Nat} (hj : j < E.length)
    (hskip : some (i + j) ≠ skip) (best : Option (Nat × Nat)) : leastFrom skip E i best ≠ none := by
  induction E generalizing i j best with
  | nil => simp at hj
  | cons e rest ih =>
    simp only [leastFrom]
    cases j with
    | zero =>
      rw [if_neg (by simpa using hskip)]
      cases best with
      | none => exact leastFrom_some_ne_none _ _ _ _
      | some b => dsimp only; split <;> exact leastFrom_some_ne_none _ _ _ _
    | succ j => exact ih (by simpa using hj) (by rwa [Nat.add_assoc, Nat.add_comm 1 j]) _

/-- What the search answers: the best so far, or an index of the list other than `skip`. -/
theorem leastFrom_eq_some {skip : Option Nat} {E : List Occurrence} {i j c : Nat} {best : Option (Nat × Nat)}
    (h : leastFrom skip E i best = some (j, c)) :
    best = some (j, c) ∨ (some j ≠ skip ∧ i ≤ j ∧ j < i + E.length) := by
  induction E generalizing i best with
  | nil => exact .inl h
  | cons e rest ih =>
    simp only [List.length_cons]
    rcases ih h with hbest | ⟨hne, hle, hlt⟩
    · split at hbest
      · exact .inl hbest
      next hskip =>
        have hhere (d : Nat) (hd : some (i, d) = some (j, c)) : some j ≠ skip ∧ i ≤ j ∧ j < i + (rest.length + 1) := by
          cases hd; exact ⟨hskip, by omega, by omega⟩
        split at hbest
        · exact .inr (hhere _ hbest)
        · split at hbest
          · exact .inr (hhere _ hbest)
          · exact .inl hbest
    · exact .inr ⟨hne, by omega, by omega⟩

/-- Where an entry may be selected, the selected index is one of the list and not `skip` (R253). -/
theorem leastIndex_spec {skip : Option Nat} {E : List Occurrence} {j : Nat} (hj : j < E.length) (hskip : some j ≠ skip) :
    leastIndex skip E < E.length ∧ some (leastIndex skip E) ≠ skip := by
  obtain ⟨⟨k, c⟩, hk⟩ := Option.ne_none_iff_exists'.mp
    (leastFrom_ne_none (i := 0) hj (by rwa [Nat.zero_add]) none)
  have hval : leastIndex skip E = k := by simp [leastIndex, hk]
  rcases leastFrom_eq_some hk with hnone | ⟨hne, _, hlt⟩
  · cases hnone
  · exact ⟨by omega, by rwa [hval]⟩

/-! ### What a merge does (R254, R255) -/

/-- Moving the last entry to position b and dropping it removes entry b (R255). -/
theorem moveLast_perm_eraseIdx {α : Type} {l : List α} {b : Nat} {last : α} (hb : b < l.length)
    (hlast : l[l.length - 1]? = some last) : ((l.set b last).dropLast).Perm (l.eraseIdx b) := by
  have hend : (l.set b last).getLast? = some last := by
    rw [List.getLast?_eq_getElem?, List.length_set, List.getElem?_set]
    split
    · rfl
    · exact hlast
  have hback : (l.set b last).dropLast ++ [last] = l.set b last := List.dropLast_append_getLast? last hend
  have hcons : (last :: (l.set b last).dropLast).Perm (last :: l.eraseIdx b) :=
    ((List.perm_append_singleton _ _).symm.trans (.of_eq hback)).trans (List.set_perm_cons_eraseIdx hb last)
  exact hcons.cons_inv

/-- The merge written out for the entries it selects. -/
theorem mergeOnce_eq {E : List Occurrence} {a b : Nat} {ea eb last : Occurrence} (ha : leastIndex none E = a)
    (hb : leastIndex (some a) E = b) (hea : E[a]? = some ea) (heb : E[b]? = some eb)
    (hlast : (E.set a (mergedEntry ea eb))[(E.set a (mergedEntry ea eb)).length - 1]? = some last) :
    mergeOnce E = ((E.set a (mergedEntry ea eb)).set b last).dropLast := by
  subst ha hb
  simp only [mergeOnce, hea, heb, hlast]

/-- Up to order, one merge replaces two entries by the merged one (R254, R255). -/
theorem mergeOnce_perm {E : List Occurrence} (h : 1 < E.length) :
    ∃ ea eb rest, E.Perm (ea :: eb :: rest) ∧ (mergeOnce E).Perm (mergedEntry ea eb :: rest) := by
  obtain ⟨ha, _⟩ := leastIndex_spec (skip := none) (E := E) (j := 0) (by omega) (by simp)
  obtain ⟨a, hsela⟩ : ∃ a, leastIndex none E = a := ⟨_, rfl⟩
  have hother : ∃ j, j < E.length ∧ some j ≠ some a := by
    by_cases hzero : a = 0
    · exact ⟨1, h, by simp [hzero]⟩
    · exact ⟨0, by omega, by simpa using Ne.symm hzero⟩
  obtain ⟨j, hj, hja⟩ := hother
  obtain ⟨hb, hba⟩ := leastIndex_spec hj hja
  obtain ⟨b, hselb⟩ : ∃ b, leastIndex (some a) E = b := ⟨_, rfl⟩
  rw [hsela] at ha
  rw [hselb] at hb hba
  have hab : b ≠ a := fun e => hba (by rw [e])
  have hlast : ∃ last, (E.set a (mergedEntry E[a] E[b]))[(E.set a (mergedEntry E[a] E[b])).length - 1]? = some last :=
    ⟨_, List.getElem?_eq_getElem (by simp; omega)⟩
  obtain ⟨last, hlast⟩ := hlast
  have hbset : b < (E.set a (mergedEntry E[a] E[b])).length := by simpa using hb
  have hmem : E[b] ∈ E.eraseIdx a := List.mem_eraseIdx_iff_getElem.mpr ⟨b, hb, hab, rfl⟩
  have hrest := List.perm_cons_erase hmem
  refine ⟨E[a], E[b], (E.eraseIdx a).erase E[b], ?_, ?_⟩
  · exact (List.getElem_cons_eraseIdx_perm ha).symm.trans (hrest.cons _)
  · rw [mergeOnce_eq hsela hselb (List.getElem?_eq_getElem ha) (List.getElem?_eq_getElem hb) hlast]
    refine (moveLast_perm_eraseIdx hbset hlast).trans (List.Perm.cons_inv (a := E[b]) ?_)
    have hkept : (E.set a (mergedEntry E[a] E[b]))[b] = E[b] := List.getElem_set_ne (Ne.symm hab) _
    calc (E[b] :: (E.set a (mergedEntry E[a] E[b])).eraseIdx b).Perm (E.set a (mergedEntry E[a] E[b])) :=
          hkept ▸ List.getElem_cons_eraseIdx_perm hbset
      List.Perm _ (mergedEntry E[a] E[b] :: E.eraseIdx a) := List.set_perm_cons_eraseIdx ha _
      List.Perm _ (mergedEntry E[a] E[b] :: E[b] :: (E.eraseIdx a).erase E[b]) := hrest.cons _
      List.Perm _ (E[b] :: mergedEntry E[a] E[b] :: (E.eraseIdx a).erase E[b]) := List.Perm.swap _ _ _

/-! ### A merge keeps the leaves (R254) -/

/-- The leaves of the live entries' trees, entry by entry. -/
def forestLeaves (E : List Occurrence) : List Byte := E.flatMap fun e => e.tree.leaves

/-- The order of the entries does not matter to which leaves they have. -/
theorem forestLeaves_perm {E F : List Occurrence} (h : E.Perm F) : (forestLeaves E).Perm (forestLeaves F) :=
  h.flatMap_right _

/-- One merge of at least two entries keeps the leaves (R254). -/
theorem forestLeaves_mergeOnce_perm {E : List Occurrence} (h : 1 < E.length) :
    (forestLeaves (mergeOnce E)).Perm (forestLeaves E) := by
  obtain ⟨ea, eb, rest, hE, hmerged⟩ := mergeOnce_perm h
  have hsame : forestLeaves (mergedEntry ea eb :: rest) = forestLeaves (ea :: eb :: rest) := by
    simp [forestLeaves, mergedEntry, CodeTree.leaves]
  exact (forestLeaves_perm hmerged).trans (hsame ▸ (forestLeaves_perm hE).symm)

/-- The merges keep the leaves (R256). -/
theorem forestLeaves_mergeAll_perm (k : Nat) (E : List Occurrence) :
    (forestLeaves (mergeAll k E)).Perm (forestLeaves E) := by
  induction k generalizing E with
  | zero => exact .refl _
  | succ k ih =>
    simp only [mergeAll]
    split
    next hlive => exact (ih _).trans (forestLeaves_mergeOnce_perm hlive)
    next => exact .refl _

/-- The 256 byte values are distinct (R8). -/
theorem allBytes_nodup : allBytes.Nodup :=
  List.nodup_range.map_on fun a ha b hb hab => by
    simp only [List.mem_range] at ha hb
    have := congrArg BitVec.toNat hab
    simp only [BitVec.toNat_ofNat] at this
    omega

/-- The initial entries have the symbols that occur as their leaves (R252). -/
theorem forestLeaves_initialEntries (x : List Byte) :
    forestLeaves (initialEntries x) = allBytes.filter fun s => decide (0 < occurrences x s) := by
  simp [forestLeaves, initialEntries, List.flatMap_map, CodeTree.leaves]

/-- HUF_BUILD builds a legal tree (R60, R256). -/
theorem huffmanModel_wf (x : List Byte) : (huffmanModel x).wf := by
  have hnodup : (forestLeaves (mergeAll (initialEntries x).length (initialEntries x))).Nodup := by
    rw [(forestLeaves_mergeAll_perm _ _).nodup_iff, forestLeaves_initialEntries]
    exact allBytes_nodup.filter _
  unfold huffmanModel
  split
  next => exact List.nodup_nil
  next e rest hE =>
    rw [hE] at hnodup
    exact (List.nodup_append.mp hnodup).1

/-! ### A parsed tree (R317) -/

/-- What `parse()` consumes: the shape bits and the leaves of the tree it answers (R317). -/
theorem parseShape_eq_some {fuel : Nat} {bits bits' : List Bool} {lv lv' : List Byte} {t : CodeTree}
    (h : parseShape fuel bits lv = some (t, bits', lv')) : bits = t.shape ++ bits' ∧ lv = t.leaves ++ lv' := by
  induction fuel generalizing bits bits' lv lv' t with
  | zero => simp [parseShape] at h
  | succ fuel ih =>
    match bits, lv with
    | [], _ => simp [parseShape] at h
    | false :: _, [] => simp [parseShape] at h
    | false :: bits, c :: lv =>
      simp only [parseShape, Option.some.injEq, Prod.mk.injEq] at h
      obtain ⟨rfl, rfl, rfl⟩ := h
      exact ⟨rfl, rfl⟩
    | true :: bits, lv =>
      simp only [parseShape] at h
      split at h
      next => cases h
      next l bits₁ lv₁ hl =>
        split at h
        next => cases h
        next r bits₂ lv₂ hr =>
          simp only [Option.some.injEq, Prod.mk.injEq] at h
          obtain ⟨rfl, rfl, rfl⟩ := h
          obtain ⟨hbits, hlv⟩ := ih hl
          obtain ⟨hbits₁, hlv₁⟩ := ih hr
          simp [CodeTree.shape, CodeTree.leaves, hbits, hlv, hbits₁, hlv₁]

/-- A tree that the parse accepts has all the shape bits and all the leaf characters (R317). -/
theorem treeOfShape_eq_some {bits : List Bool} {lv : List Byte} {t : CodeTree} (h : treeOfShape bits lv = some t) :
    bits = t.shape ∧ lv = t.leaves := by
  unfold treeOfShape at h
  split at h
  next t' hparse => cases h; simpa using parseShape_eq_some hparse
  next => cases h

/-- TREE_DES accepts only legal trees (R60, R316). -/
theorem modelOfBody_wf {L B : Nat} {body : List Byte} {ts : TreeState} (h : modelOfBody L B body = some ts) : ts.wf := by
  unfold modelOfBody at h
  split at h
  next => cases h
  next hnodup =>
    split at h
    next => cases h; exact List.nodup_nil
    next =>
      obtain ⟨t, ht, rfl⟩ := Option.map_eq_some_iff.mp h
      obtain ⟨_, hleaves⟩ := treeOfShape_eq_some ht
      have hdistinct : t.leaves.Nodup := hleaves ▸ not_not.mp hnodup
      exact hdistinct

/-! ### The counts (R61) -/

/-- The count a table of counts holds, reduced when stored (R61). -/
theorem FreqTable.at_ofCounts (count : Byte → Nat) (b : Byte) :
    (FreqTable.ofCounts count).at b = BitVec.ofNat 32 (count b) := by
  simp [FreqTable.at, FreqTable.ofCounts]

@[simp] theorem FreqTable.at_zero (b : Byte) : FreqTable.zero.at b = 0#32 := by simp [FreqTable.at, FreqTable.zero]

/-- What a success leaves in TREE is legal, and in FREQ no more than MEM_SIZE (R60, R61). -/
theorem verdictOf_ok_model_legal {i : Instr} {s : State} {e : Effects} {ts : TreeState} {f : FreqTable}
    (h : verdictOf i s = .ok e) (hm : e.model = some (ts, f)) : ts.wf ∧ ∀ b, (f.at b).toNat ≤ s.params.memSize := by
  rcases verdictOf_ok_model h (by simp [hm]) with rfl | rfl
  case inl =>
    obtain ⟨hin, x, hlen, _, rfl⟩ := hufBuildVerdict_eq_ok h
    cases hm
    refine ⟨huffmanModel_wf x, fun b => ?_⟩
    have hcount : occurrences x b ≤ x.length := List.count_le_length
    have hstored : ((FreqTable.ofCounts (occurrences x)).at b).toNat ≤ occurrences x b := by
      rw [FreqTable.at_ofCounts, BitVec.toNat_ofNat]; exact Nat.mod_le _ _
    rcases hin with hzero | hfits <;> omega
  case inr =>
    obtain ⟨_, hd, body, idx, usize, L, B, ts, _, _, _, _, _, _, _, hmodel, rfl⟩ := treeDesVerdict_eq_ok h
    cases hm
    exact ⟨modelOfBody_wf hmodel, fun b => by simp⟩

end Sys2Proof.Machine
end

section
/-! PROOFS. What one step can do (R172, R173, log 1), and what every step keeps (R37, R60, R61, R372). -/

namespace Sys2Proof.Machine

/-! ### What a step can do -/

/-- A step of the machine: the Complete step when nothing is left in the inbox, else its first input (log 1). -/
theorem step_eq_next {s t : State} (h : step s = .next t) :
    (s.inbox = [] ∧ completeStep s = .next t) ∨
      ∃ i rest, s.inbox = i :: rest ∧ deliver i { s with inbox := rest } = .next t := by
  unfold step advance at h
  split at h
  next hempty => exact .inl ⟨hempty, h⟩
  next i rest hcons => exact .inr ⟨i, rest, hcons, h⟩

/-- A Complete step: an idle core stays, a running command succeeds, or the step leaves an error record (R173, R145, R395). -/
theorem completeStep_eq_next {s t : State} (h : completeStep s = .next t) :
    (s.busy = false ∧ t = s) ∨
    (s.busy = true ∧ ∃ i e, decode s.cmd = .command i ∧ verdictOf i s = .ok e ∧ t = finish (applyOk e s)) ∨
    (s.busy = true ∧ ∃ c, t = errState s c) := by
  unfold completeStep at h
  split at h
  next hbusy =>
    refine .inr ?_
    split at h
    next i hdecode =>
      rw [exec_eq, completeWith_next_iff] at h
      rcases h with ⟨e, hok, rfl⟩ | ⟨c, _, rfl⟩
      · exact .inl ⟨hbusy, i, e, hdecode, hok, rfl⟩
      · exact .inr ⟨hbusy, c, rfl⟩
    next =>
      cases h
      exact .inr ⟨hbusy, .badOpcode, rfl⟩
  next hidle =>
    cases h
    exact .inl ⟨by simpa using hidle, rfl⟩

/-- A host transaction that goes on: it is only answered, or writes a register, or is locked out of MEM, or writes MEM. -/
theorem hostAccess_eq_next {x : Txn} {s t : State} (h : hostAccess x s = .next t) :
    (∃ r, t = answer r s) ∨
    (∃ r, x.dir = .write ∧ x.window = .reg ∧ x.width = 4 ∧ x.offset = r.offset ∧
      t = answer .written (regWrite r x.data s)) ∨
    (s.busy = true ∧ ∃ r, t = answer r { s with mbusy := true }) ∨
    (s.busy = false ∧ x.offset + x.width ≤ s.params.memSize ∧
      t = answer .written { s with mem := s.mem.writeBytes x.offset ((le32 x.data).take x.width) }) := by
  rcases hostAccess_cases x s with ⟨_, _, e⟩ | ⟨_, e⟩ | ⟨hwf, hwin, e⟩ | ⟨_, _, hin, e⟩ <;> rw [e] at h
  · cases h
  · cases h
    exact .inl ⟨_, rfl⟩
  · cases h
    rcases regAccess_cases x s with ⟨r, e⟩ | ⟨r, hdir, hreg, e⟩
    · exact .inl ⟨r, e⟩
    · have hregwf : x.width = 4 ∧ x.offset % 4 = 0 := by simpa [Txn.wf, hwin] using hwf
      obtain ⟨hwidth, _⟩ := hregwf
      exact .inr (.inl ⟨r, hdir, hwin, hwidth, (offset_of_ofOffset hreg).symm, e⟩)
  · rcases memAccess_next_cases h with ⟨hbusy, r, e⟩ | ⟨_, _, r, e⟩ | ⟨hidle, _, e⟩
    · exact .inr (.inr (.inl ⟨hbusy, r, e⟩))
    · exact .inl ⟨r, e⟩
    · exact .inr (.inr (.inr ⟨hidle, hin, e⟩))

/-! ### What a register write can do -/

/-- t is s but for the fields that the machine invariant does not speak of: IRQ_EN, the events, the operands, CODEQ_SYM and
the model's own fields. -/
def SameCore (s t : State) : Prop :=
  t = { s with
    irqEn := t.irqEn, cmdDone := t.cmdDone, wbusy := t.wbusy, mbusy := t.mbusy, src := t.src, len := t.len, dst := t.dst
    dstCap := t.dstCap, bwtIdx := t.bwtIdx, usize := t.usize, codeqSym := t.codeqSym, inbox := t.inbox, reply := t.reply
    draws := t.draws }

/-- A write that only an idle core takes is taken, or refused (R55). -/
theorem whenIdle_cases (u s : State) :
    (s.busy = false ∧ whenIdle u s = u) ∨ (s.busy = true ∧ whenIdle u s = refuseWrite s) := by
  unfold whenIdle
  cases s.busy <;> simp

/-- A refused write changes only WBUSY (R55). -/
theorem SameCore.whenIdle {u s : State} (h : SameCore s u) : SameCore s (whenIdle u s) := by
  rcases whenIdle_cases u s with ⟨_, e⟩ | ⟨_, e⟩ <;> rw [e]
  · exact h
  · rfl

/-- A register write: a soft reset, the acceptance of a command by an idle core, or a change of fields that the machine
invariant does not speak of (R35-R55). -/
theorem regWrite_effect (r : Reg) (v : Word) (s : State) :
    (r = .ctrl ∧ v.getLsbD 1 = true ∧ regWrite r v s = softReset s) ∨
    (s.busy = false ∧ regWrite r v s = accept v s) ∨ SameCore s (regWrite r v s) := by
  cases r with
  | ctrl =>
    by_cases hreset : v.getLsbD 1 = true
    · exact .inl ⟨rfl, hreset, if_pos hreset⟩
    · refine .inr (.inr ?_)
      simp only [regWrite, writeCtrl, if_neg hreset]
      rfl
  | events => exact .inr (.inr rfl)
  | cmd =>
    rcases whenIdle_cases (accept v s) s with ⟨hidle, e⟩ | ⟨_, e⟩
    · exact .inr (.inl ⟨hidle, e⟩)
    · exact .inr (.inr (by rw [regWrite, e]; rfl))
  | _ => exact .inr (.inr (SameCore.whenIdle rfl))

/-! ### Each state operation keeps the invariant -/

/-- A change of fields that the invariant does not speak of keeps it. -/
theorem MachineInv.of_sameCore {s t : State} (hs : MachineInv s) (h : SameCore s t) : MachineInv t := by
  rw [h]
  exact ⟨hs.paramsLegal, hs.memCanonical, hs.memInRange, hs.treeLegal, hs.flagsLegal, hs.errCodeIff, hs.errCodeLe,
    hs.lastOpIsOpcode, hs.errRecord, hs.freqInRange⟩

/-- The bus response is no part of the invariant. -/
theorem MachineInv.answer {s : State} (hs : MachineInv s) (r : Reply) : MachineInv (answer r s) := hs.of_sameCore rfl

/-- A running command has no error on record (R37). -/
theorem MachineInv.err_of_busy {s : State} (hs : MachineInv s) (hbusy : s.busy = true) : s.err = false := by
  have hflags := hs.flagsLegal
  simp only [hbusy, List.mem_cons, Prod.mk.injEq, List.not_mem_nil, or_false] at hflags
  tauto

/-- Bytes written inside MEM stay inside MEM (R100). -/
theorem Memory.writeBytes_inRange {m : Memory} {a size : Nat} {bs : List Byte} (hm : ∀ c ∈ m, c.1 < size)
    (h : bs.length = 0 ∨ a + bs.length ≤ size) : ∀ c ∈ m.writeBytes a bs, c.1 < size := by
  intro c hc
  rcases Memory.mem_writeBytes hc with hnew | hold
  · omega
  · exact hm c hold

/-- A write inside MEM keeps the invariant (R100). -/
theorem MachineInv.writeBytes {s : State} (hs : MachineInv s) {a : Nat} {bs : List Byte} (h : InMem s a bs.length) :
    MachineInv { s with mem := s.mem.writeBytes a bs } :=
  { hs with
    memCanonical := Memory.writeBytes_wf a bs hs.memCanonical
    memInRange := Memory.writeBytes_inRange hs.memInRange h }

/-- Acceptance by an idle core keeps the invariant (R170). -/
theorem MachineInv.accept {s : State} (hs : MachineInv s) (w : Word) : MachineInv (accept w s) :=
  { hs with
    flagsLegal := by simp
    errCodeIff := by simp
    errCodeLe := by simp
    lastOpIsOpcode := rfl
    errRecord := by simp }

/-- A reset over a memory that is canonical and inside MEM_SIZE gives a state with the invariant (R411, R412). -/
theorem MachineInv.resetRegisters {s : State} (hs : MachineInv s) {m : Memory} {u : State} (hp : u.params = s.params)
    (hm : m.wf) (hr : ∀ c ∈ m, c.1 < s.params.memSize) : MachineInv (resetRegisters m u) where
  paramsLegal := by simpa [hp] using hs.paramsLegal
  memCanonical := hm
  memInRange := by simpa [hp] using hr
  treeLegal := List.nodup_nil
  flagsLegal := by simp [State.reset]
  errCodeIff := by simp [State.reset]
  errCodeLe := by simp [State.reset]
  lastOpIsOpcode := by simp [State.reset]
  errRecord := by simp [State.reset]
  freqInRange b := by simp [State.reset, FreqTable.at]

/-- The bytes that a soft reset sets free lie inside MEM (R414). -/
theorem abortRegion_inMem (s : State) : InMem s (abortRegion s).1 (abortRegion s).2 := by
  unfold abortRegion
  split
  · split
    · simp only [clipRegion, InMem]; omega
    · exact .inl rfl
  · exact .inl rfl

/-- A soft reset keeps the invariant, whatever the free bytes are (R414). -/
theorem MachineInv.softReset {s : State} (hs : MachineInv s) : MachineInv (softReset s) :=
  hs.resetRegisters rfl (Memory.writeBytes_wf _ _ hs.memCanonical)
    (Memory.writeBytes_inRange hs.memInRange (by simpa using abortRegion_inMem s))

/-- A power-on reset keeps the invariant (R410). -/
theorem MachineInv.powerOnReset {s : State} (hs : MachineInv s) : MachineInv (powerOnReset s) :=
  hs.resetRegisters rfl List.Pairwise.nil (by simp)

/-- The error record keeps the invariant (R372). -/
theorem MachineInv.errState {s : State} (hs : MachineInv s) (c : ErrCode) : MachineInv (errState s c) where
  paramsLegal := hs.paramsLegal
  memCanonical := hs.memCanonical
  memInRange := hs.memInRange
  treeLegal := hs.treeLegal
  flagsLegal := by simp
  errCodeIff := by
    obtain ⟨hpos, _⟩ := ErrCode.number_bounds c
    simp only [errState_errCode, errState_err, iff_true]
    intro hzero
    simp [hzero] at hpos
  errCodeLe := (ErrCode.number_bounds c).2
  lastOpIsOpcode := hs.lastOpIsOpcode
  errRecord _ := ⟨rfl, rfl⟩
  freqInRange := hs.freqInRange

/-- The success of a running command keeps the invariant (R173, R175). -/
theorem MachineInv.finish_applyOk {s : State} (hs : MachineInv s) (hbusy : s.busy = true) {i : Instr} {e : Effects}
    (h : verdictOf i s = .ok e) : MachineInv (finish (applyOk e s)) := by
  have herr := hs.err_of_busy hbusy
  have hmodel : TreeState.wf ((e.model.map Prod.fst).getD s.tree) ∧
      ∀ b, (((e.model.map Prod.snd).getD s.freq).at b).toNat ≤ s.params.memSize := by
    cases hm : e.model with
    | none => exact ⟨hs.treeLegal, hs.freqInRange⟩
    | some m => exact verdictOf_ok_model_legal h hm
  obtain ⟨htree, hfreq⟩ := hmodel
  exact
    { paramsLegal := hs.paramsLegal
      memCanonical := Memory.writeBytes_wf _ _ hs.memCanonical
      memInRange := Memory.writeBytes_inRange hs.memInRange (verdictOf_ok_inMem (s := s) h)
      treeLegal := htree
      flagsLegal := by simp [herr]
      errCodeIff := hs.errCodeIff
      errCodeLe := hs.errCodeLe
      lastOpIsOpcode := hs.lastOpIsOpcode
      errRecord := by simp [herr]
      freqInRange := hfreq }

/-! ### Every step keeps the invariant -/

/-- A Complete step keeps the invariant (R173). -/
theorem MachineInv.completeStep {s t : State} (hs : MachineInv s) (h : completeStep s = .next t) : MachineInv t := by
  rcases completeStep_eq_next h with ⟨_, rfl⟩ | ⟨hbusy, i, e, _, hok, rfl⟩ | ⟨_, c, rfl⟩
  · exact hs
  · exact hs.finish_applyOk hbusy hok
  · exact hs.errState c

/-- A register write keeps the invariant (R35-R55). -/
theorem MachineInv.regWrite {s : State} (hs : MachineInv s) (r : Reg) (v : Word) : MachineInv (regWrite r v s) := by
  rcases regWrite_effect r v s with ⟨_, _, e⟩ | ⟨_, e⟩ | hsame
  · rw [e]; exact hs.softReset
  · rw [e]; exact hs.accept v
  · exact hs.of_sameCore hsame

/-- A host transaction keeps the invariant (R146). -/
theorem MachineInv.hostAccess {x : Txn} {s t : State} (hs : MachineInv s) (h : hostAccess x s = .next t) :
    MachineInv t := by
  rcases hostAccess_eq_next h with ⟨r, rfl⟩ | ⟨r, _, _, _, _, rfl⟩ | ⟨_, r, rfl⟩ | ⟨_, hin, rfl⟩
  · exact hs.answer r
  · exact (hs.regWrite r x.data).answer _
  · exact hs.of_sameCore rfl
  · refine (hs.writeBytes ?_).answer _
    have hlen : ((le32 x.data).take x.width).length ≤ x.width := List.length_take_le _ _
    exact .inr (by omega)

/-- One input keeps the invariant, whatever it is (log 1). -/
theorem MachineInv.deliver {i : Input} {s t : State} (hs : MachineInv s) (h : deliver i s = .next t) : MachineInv t := by
  cases i with
  | bus x => exact MachineInv.hostAccess hs h
  | complete => exact MachineInv.completeStep hs h
  | powerOn => cases h; exact hs.powerOnReset

/-- Settles O57: the invariant does not speak of the inbox, and the Complete step and every input keep it. -/
theorem everyStepKeepsTheInvariant : Obligations.EveryStepKeepsTheInvariant := by
  unfold Obligations.EveryStepKeepsTheInvariant
  intro s t hs h
  rcases step_eq_next h with ⟨_, hcomplete⟩ | ⟨i, rest, _, hdeliver⟩
  · exact hs.completeStep hcomplete
  · have hrest : MachineInv { s with inbox := rest } := hs.of_sameCore rfl
    exact hrest.deliver hdeliver

/-! ### Which steps write the model -/

/-- A Complete step that changes TREE or FREQ ends HUF_BUILD or TREE_DES (R60, R61). -/
theorem completeStep_changes_model {s t : State} (h : completeStep s = .next t) (hne : t.tree ≠ s.tree ∨ t.freq ≠ s.freq) :
    s.busy = true ∧ (decode s.cmd = .command .hufBuild ∨ decode s.cmd = .command .treeDes) := by
  rcases completeStep_eq_next h with ⟨_, rfl⟩ | ⟨hbusy, i, e, hdecode, hok, rfl⟩ | ⟨_, c, rfl⟩
  · simp at hne
  · have hmodel : e.model ≠ none := by
      intro hnone
      simp [hnone] at hne
    rcases verdictOf_ok_model hok hmodel with rfl | rfl
    · exact ⟨hbusy, .inl hdecode⟩
    · exact ⟨hbusy, .inr hdecode⟩
  · simp at hne

/-- A host transaction that changes TREE or FREQ is a soft reset (R60, R61, R414). -/
theorem hostAccess_changes_model {x : Txn} {s t : State} (h : hostAccess x s = .next t)
    (hne : t.tree ≠ s.tree ∨ t.freq ≠ s.freq) : IsSoftReset x := by
  rcases hostAccess_eq_next h with ⟨r, rfl⟩ | ⟨r, hdir, hwin, hwidth, hoff, rfl⟩ | ⟨_, r, rfl⟩ | ⟨_, _, rfl⟩
  · simp at hne
  · rcases regWrite_cases r x.data s with ⟨rfl, hbit, _⟩ | ⟨htree, hfreq, _⟩
    · exact ⟨hdir, hwin, hoff, hwidth, hbit⟩
    · simp [htree, hfreq] at hne
  · simp at hne
  · simp at hne

/-- Settles O58: a step is a Complete step or one input, and of the inputs only a reset writes TREE or FREQ. -/
theorem onlyModelCommandsAndResetsWriteTheModel : Obligations.OnlyModelCommandsAndResetsWriteTheModel := by
  unfold Obligations.OnlyModelCommandsAndResetsWriteTheModel
  intro s t h hne
  rcases step_eq_next h with ⟨hempty, hcomplete⟩ | ⟨i, rest, hcons, hdeliver⟩
  · obtain ⟨hbusy, hcmd⟩ := completeStep_changes_model hcomplete hne
    exact .inl ⟨hbusy, .inl hempty, hcmd⟩
  · cases i with
    | bus x => exact .inr (.inr ⟨x, by simp [hcons], hostAccess_changes_model hdeliver hne⟩)
    | complete =>
      obtain ⟨hbusy, hcmd⟩ := completeStep_changes_model hdeliver hne
      exact .inl ⟨hbusy, .inr (by simp [hcons]), hcmd⟩
    | powerOn => exact .inr (.inl (by simp [hcons]))

end Sys2Proof.Machine
end

section
/-! PROOFS. The host interface: the register map, reads and writes of registers, the status words, the interrupt (R33-R57). -/

namespace Sys2Proof.Machine

/-! ### Transactions at an offset -/

/-- A read at a named register's offset returns its value and changes nothing but the bus response (R33, R56). -/
theorem readsAs_offset (s : State) (r : Reg) : ReadsAs s r.offset (regRead s r) := hostAccess_rdTxn r s

/-- A transition that the core answers as a write is one it takes. -/
theorem takesTo_of_written {x : Txn} {s t : State} (h : hostAccess x s = .next (answer .written t)) : TakesTo x s t :=
  ⟨.written, by simp, h⟩

/-- A write to a named register does what `regWrite` says (R35-R55). -/
theorem takesTo_wrTxn {r : Reg} {v : Word} {s t : State} (h : regWrite r v s = t) : TakesTo (wrTxn r v) s t :=
  takesTo_of_written (by rw [hostAccess_wrTxn, h])

/-! ### What `regWrite` does, by BUSY (R55) -/

/-- An idle core takes the write. -/
theorem whenIdle_of_idle {u s : State} (h : s.busy = false) : whenIdle u s = u := by simp [whenIdle, h]

/-- A running core refuses it. -/
theorem whenIdle_of_busy {u s : State} (h : s.busy = true) : whenIdle u s = refuseWrite s := by simp [whenIdle, h]

/-- A running core refuses a write to any register but CTRL and EVENTS (R55, R171). -/
theorem regWrite_of_busy {r : Reg} {s : State} (v : Word) (h : s.busy = true) (hctrl : r ≠ .ctrl) (hevents : r ≠ .events) :
    regWrite r v s = refuseWrite s := by
  cases r with
  | ctrl => exact absurd rfl hctrl
  | events => exact absurd rfl hevents
  | _ => exact whenIdle_of_busy h

/-- A write of a read-only register of an idle core has no effect (R55). -/
theorem regWrite_readOnly {r : Reg} {s : State} (v : Word) (h : s.busy = false)
    (hr : r ∉ [.ctrl, .cmd, .events, .src, .len, .dst, .dstCap, .bwtIdx, .usize, .codeqSym]) : regWrite r v s = s := by
  cases r with
  | id | version | status | outLen | outBits | leafCount | codeqLen | codeqFreq | codeqBits | memSizeR | bwtMaxR =>
    exact whenIdle_of_idle h
  | _ => exact absurd (by simp) hr

/-- A CTRL write with bit 1 = 0 stores bit 0 into IRQ_EN (R35). -/
theorem regWrite_ctrl_of_clear {v : Word} (s : State) (h : v.getLsbD 1 = false) :
    regWrite .ctrl v s = { s with irqEn := v.getLsbD 0 } :=
  if_neg (ne_true_of_eq_false h)

/-- A CTRL write with bit 1 = 1 is a soft reset (R35, R414). -/
theorem regWrite_ctrl_of_set {v : Word} (s : State) (h : v.getLsbD 1 = true) : regWrite .ctrl v s = softReset s := if_pos h

/-! ### The register map (R33) -/

/-- A register is found exactly at its offset (R33). -/
theorem ofOffset_eq_some_iff (off : Nat) (r : Reg) : Reg.ofOffset off = some r ↔ r.offset = off :=
  ⟨offset_of_ofOffset, fun h => h ▸ ofOffset_offset r⟩

/-- Every named register is in the list of the map (R33). -/
theorem mem_regAll (r : Reg) : r ∈ Reg.all := List.mem_of_find?_eq_some (ofOffset_offset r)

/-- A register and an offset are paired by the map exactly when the register stands there (R33). -/
theorem mem_offsetTable_iff (r : Reg) (off : Nat) :
    (r, off) ∈ Reg.all.map (fun q => (q, q.offset)) ↔ r.offset = off := by
  simp only [List.mem_map, Prod.mk.injEq]
  constructor
  · rintro ⟨q, _, rfl, hoff⟩
    exact hoff
  · exact fun hoff => ⟨r, mem_regAll r, rfl, hoff⟩

/-- Settles O14: the reads are those of the registers at their offsets, and the table is the map of all registers. -/
theorem registerMapIsAsTabulated : Obligations.RegisterMapIsAsTabulated := by
  unfold Obligations.RegisterMapIsAsTabulated
  refine ⟨fun s => ?_, ?_, ?_⟩
  case refine_1 =>
    have hsym : regRead s .codeqSym = s.codeqSym.setWidth 32 := (BitVec.setWidth_eq_append (by decide)).symm
    exact ⟨readsAs_offset s .id, readsAs_offset s .version, readsAs_offset s .ctrl, readsAs_offset s .cmd,
      readsAs_offset s .status, readsAs_offset s .events, readsAs_offset s .src, readsAs_offset s .len,
      readsAs_offset s .dst, readsAs_offset s .dstCap, readsAs_offset s .bwtIdx, readsAs_offset s .usize,
      readsAs_offset s .outLen, readsAs_offset s .outBits, readsAs_offset s .leafCount,
      hsym ▸ readsAs_offset s .codeqSym, readsAs_offset s .codeqLen, readsAs_offset s .codeqFreq,
      fun k => readsAs_offset s (.codeqBits k), readsAs_offset s .memSizeR, readsAs_offset s .bwtMaxR⟩
  case refine_2 =>
    intro table off r
    have htable : table = Reg.all.map fun q => (q, q.offset) := rfl
    refine ⟨?_, ofOffset_eq_some_iff off r⟩
    rw [htable]
    exact mem_offsetTable_iff r off
  case refine_3 =>
    intro s off v hidle hoff
    simp only [List.mem_cons, List.not_mem_nil, or_false] at hoff
    rcases hoff with rfl | rfl | rfl | rfl
    · exact takesTo_wrTxn (r := .id) (regWrite_readOnly v hidle (by simp))
    · exact takesTo_wrTxn (r := .version) (regWrite_readOnly v hidle (by simp))
    · exact takesTo_wrTxn (r := .memSizeR) (regWrite_readOnly v hidle (by simp))
    · exact takesTo_wrTxn (r := .bwtMaxR) (regWrite_readOnly v hidle (by simp))

/-- Acceptance changes what no register but CMD and STATUS reads (R56, R170). -/
theorem regRead_accept (w : Word) (s : State) {r : Reg} (hcmd : r ≠ .cmd) (hstatus : r ≠ .status) :
    regRead (accept w s) r = regRead s r := by
  cases r with
  | cmd => exact absurd rfl hcmd
  | status => exact absurd rfl hstatus
  | _ => rfl

/-- Settles O15: a read is answered from the state as it is, and acceptance keeps what the other registers read. -/
theorem registerReadHasNoSideEffect : Obligations.RegisterReadHasNoSideEffect := by
  unfold Obligations.RegisterReadHasNoSideEffect
  exact ⟨fun s r => hostAccess_rdTxn r s, fun s w r hcmd hstatus => regRead_accept w s hcmd hstatus⟩

/-- Settles O16: an aligned offset from 0x070 on is inside the window and names no register. -/
theorem reservedOffsetsReadZeroAndIgnoreWrites : Obligations.ReservedOffsetsReadZeroAndIgnoreWrites := by
  unfold Obligations.ReservedOffsetsReadZeroAndIgnoreWrites
  intro s off v hlow hhigh haligned
  have hnone := ofOffset_reserved hlow
  have hlt : off < 4096 := by omega
  constructor
  · rw [hostAccess_reg rfl hlt rfl haligned]
    simp only [regAccess, hnone]
    rfl
  · apply takesTo_of_written
    rw [hostAccess_reg rfl hlt rfl haligned]
    simp only [regAccess, hnone]

/-- Settles O17: CTRL and EVENTS writes take effect whatever BUSY is; every other one is refused while a command runs. -/
theorem registerWritesUnderLockout : Obligations.RegisterWritesUnderLockout := by
  unfold Obligations.RegisterWritesUnderLockout
  intro s v
  refine ⟨?_, ?_, ?_, ?_, ?_⟩
  case refine_1 => exact fun r hbusy hctrl hevents => takesTo_wrTxn (regWrite_of_busy v hbusy hctrl hevents)
  case refine_2 => exact takesTo_wrTxn rfl
  case refine_3 => exact fun hclear => takesTo_wrTxn (regWrite_ctrl_of_clear s hclear)
  case refine_4 =>
    intro hset
    refine ⟨_, hostAccess_wrTxn .ctrl v s, ?_⟩
    rw [regWrite_ctrl_of_set s hset]
    exact ⟨rfl, rfl, rfl⟩
  case refine_5 => exact fun r hidle hr => takesTo_wrTxn (regWrite_readOnly v hidle hr)

/-- Settles O18: an idle core takes the write of each operand register and of CODEQ_SYM. -/
theorem idleOperandWritesAreStored : Obligations.IdleOperandWritesAreStored := by
  unfold Obligations.IdleOperandWritesAreStored
  intro s v hidle
  exact ⟨takesTo_wrTxn (whenIdle_of_idle hidle), takesTo_wrTxn (whenIdle_of_idle hidle),
    takesTo_wrTxn (whenIdle_of_idle hidle), takesTo_wrTxn (whenIdle_of_idle hidle),
    takesTo_wrTxn (whenIdle_of_idle hidle), takesTo_wrTxn (whenIdle_of_idle hidle),
    takesTo_wrTxn (whenIdle_of_idle hidle)⟩

/-! ### The status words and the interrupt (R35, R37, R38, R57) -/

/-- The flags of STATUS, bits 3:0 (R37). -/
theorem statusWord_flags (s : State) :
    s.statusWord.getLsbD 0 = s.busy ∧ s.statusWord.getLsbD 1 = s.done ∧ s.statusWord.getLsbD 2 = s.err ∧
      s.statusWord.getLsbD 3 = s.tree.valid := by
  simp only [State.statusWord, BitVec.getLsbD_append]
  simp

/-- The bytes and the reserved bits of STATUS (R37). -/
theorem statusWord_fields (s : State) :
    s.statusWord.extractLsb' 4 4 = 0#4 ∧ s.statusWord.extractLsb' 8 8 = s.errCode ∧
      s.statusWord.extractLsb' 16 8 = s.lastOp ∧ s.statusWord.extractLsb' 24 8 = 0#8 := by
  simp (disch := decide) only [State.statusWord, BitVec.extractLsb'_append_eq_of_le]
  simp (disch := decide) only [BitVec.extractLsb'_append_eq_of_add_le]
  simp

/-- The event bits and the reserved bits of EVENTS (R38). -/
theorem eventsWord_fields (s : State) :
    s.eventsWord.getLsbD 0 = s.cmdDone ∧ s.eventsWord.getLsbD 1 = s.wbusy ∧ s.eventsWord.getLsbD 2 = s.mbusy ∧
      s.eventsWord.extractLsb' 3 29 = 0#29 := by
  simp only [State.eventsWord, BitVec.getLsbD_append, BitVec.extractLsb'_append_eq_ite]
  simp

/-- IRQ_EN and the reserved bits of CTRL (R35). -/
theorem ctrlWord_fields (s : State) : s.ctrlWord.getLsbD 0 = s.irqEn ∧ s.ctrlWord.extractLsb' 1 31 = 0#31 := by
  simp only [State.ctrlWord, BitVec.getLsbD_append, BitVec.extractLsb'_append_eq_ite]
  simp

/-- Settles O19: the words are their fields side by side, and TREE_VALID is 1 exactly when TREE is not INVALID. -/
theorem statusWordsHoldTheirFields : Obligations.StatusWordsHoldTheirFields := by
  unfold Obligations.StatusWordsHoldTheirFields
  intro s
  obtain ⟨hbusy, hdone, herr, hvalid⟩ := statusWord_flags s
  have htree : s.statusWord.getLsbD 3 = true ↔ s.tree ≠ .invalid := by rw [hvalid, TreeState.valid_iff]
  exact ⟨⟨hbusy, hdone, herr, htree, statusWord_fields s⟩, eventsWord_fields s, ctrlWord_fields s⟩

/-- The Complete step of a running core raises CMD_DONE and keeps IRQ_EN, with error or without (R173, R380). -/
theorem completeStep_raises_cmdDone {s t : State} (hbusy : s.busy = true) (h : completeStep s = .next t) :
    t.cmdDone = true ∧ t.irqEn = s.irqEn := by
  rcases completeStep_eq_next h with ⟨hidle, _⟩ | ⟨_, i, e, _, _, rfl⟩ | ⟨_, c, rfl⟩
  · simp [hbusy] at hidle
  · exact ⟨rfl, rfl⟩
  · exact ⟨rfl, rfl⟩

/-- IRQ after a write to EVENTS: it stays but for CMD_DONE (R38, R57). -/
theorem irq_clearEvents (v : Word) (s : State) : (clearEvents v s).irq = (s.irq && !v.getLsbD 0) :=
  (Bool.and_assoc _ _ _).symm

/-- Settles O13: IRQ is a function of IRQ_EN and CMD_DONE, so it follows each of the steps that changes one of them. -/
theorem interruptFollowsEnableAndCompletion : Obligations.InterruptFollowsEnableAndCompletion := by
  unfold Obligations.InterruptFollowsEnableAndCompletion
  refine ⟨fun _ => rfl, ?_, ?_, ?_, ?_, fun _ => rfl⟩
  case refine_1 =>
    intro s t hbusy h
    obtain ⟨hdone, henable⟩ := completeStep_raises_cmdDone hbusy h
    exact ⟨hdone, by simp [State.irq, hdone, henable]⟩
  case refine_2 =>
    intro s v hclear
    refine ⟨_, hostAccess_wrTxn .ctrl v s, ?_⟩
    rw [regWrite_ctrl_of_clear s hclear]
    exact ⟨rfl, rfl, rfl⟩
  case refine_3 =>
    intro s v hset
    refine ⟨_, hostAccess_wrTxn .ctrl v s, ?_⟩
    rw [regWrite_ctrl_of_set s hset]
    rfl
  case refine_4 => exact fun s v => ⟨_, hostAccess_wrTxn .events v s, rfl, rfl, irq_clearEvents v s⟩

/-! ### The code query (R47-R51) -/

/-- A legal tree state has at most 256 leaves (R8, R60). -/
theorem leaves_length_le {ts : TreeState} (h : ts.wf) : ts.leaves.length ≤ 256 := nodup_bytes_length h

/-- A code of a legal tree has at most 255 bits (R49). -/
theorem code_length_lt {ts : TreeState} {c : Byte} {p : List Bool} (h : ts.wf) (hp : ts.code c = some p) :
    p.length < 256 := by
  obtain ⟨t, rfl, hpath⟩ := code_eq_some_iff.mp hp
  exact (pathTo_length_lt hpath).trans_le (leaves_length_le h)

/-- LEAF_COUNT of a legal tree (R47). -/
theorem regRead_leafCount_toNat {s : State} (h : s.tree.wf) :
    (regRead s .leafCount).toNat = s.tree.leaves.length := by
  have hle := leaves_length_le h
  simp only [regRead, BitVec.toNat_append, BitVec.toNat_ofNat]
  simp
  omega

/-- CODEQ_LEN of a symbol without a code (R49). -/
theorem codeqLenWord_of_none {s : State} (h : s.tree.code s.codeqSym = none) : codeqLenWord s = 0#32 := by
  simp only [codeqLenWord, h]

/-- CODEQ_LEN of a symbol with a code: PRESENT and the length (R49). -/
theorem codeqLenWord_toNat {s : State} {p : List Bool} (h : s.tree.code s.codeqSym = some p) (hlen : p.length < 256) :
    (codeqLenWord s).toNat = 2 ^ 31 + p.length := by
  have hpresent : (1#1 ++ 0#23 : BitVec 24) = 0x800000#24 := rfl
  have hfits : (BitVec.ofNat 8 p.length).toNat = p.length := by simp only [BitVec.toNat_ofNat]; omega
  simp only [codeqLenWord, h]
  rw [hpresent, BitVec.toNat_append, hfits, ← Nat.shiftLeft_add_eq_or_of_lt (by simpa using hlen)]
  rfl

/-- PRESENT is 1 exactly for a symbol with a code (R49). -/
theorem codeqLenWord_present_iff (s : State) : (codeqLenWord s).getLsbD 31 = true ↔ s.tree.code s.codeqSym ≠ none := by
  unfold codeqLenWord
  split
  next p hp =>
    simp only [hp, BitVec.getLsbD_append]
    simp
  next hnone => simp [hnone]

/-- Bit j of the byte that begins at bit n of a code (R11). -/
theorem byteOfBits_drop_getLsbD (bits : List Bool) (n : Nat) {j : Nat} (h : j < 8) :
    (byteOfBits (bits.drop n)).getLsbD (7 - j) = bits.getD (n + j) false := by
  rw [byteOfBits_getLsbD _ h, List.getD_eq_getElem?_getD, List.getElem?_drop, List.getD_eq_getElem?_getD]

/-- CODEQ_BITSk holds code bits 32k to 32k+31, the first in bit 31, and 0 past the end of the code (R51). -/
theorem codeqBitsWord_getLsbD (s : State) (k : Nat) {m : Nat} (hm : m < 32) :
    (codeqBitsWord s k).getLsbD (31 - m) = ((s.tree.code s.codeqSym).getD []).getD (32 * k + m) false := by
  have hlane (q : Nat) (hlow : 8 * q ≤ m) (hhigh : m < 8 * q + 8) :
      (byteOfBits (((s.tree.code s.codeqSym).getD []).drop (32 * k + 8 * q))).getLsbD (7 - (m - 8 * q)) =
        ((s.tree.code s.codeqSym).getD []).getD (32 * k + m) false := by
    rw [byteOfBits_drop_getLsbD _ _ (by omega)]
    congr 1
    omega
  simp only [codeqBitsWord, BitVec.getLsbD_append, List.drop_drop]
  split_ifs with h3 h2 h1
  · rw [← hlane 3 (by omega) (by omega)]; congr 1; omega
  · rw [← hlane 2 (by omega) (by omega)]; congr 1; omega
  · rw [← hlane 1 (by omega) (by omega)]; congr 1; omega
  · rw [← hlane 0 (by omega) (by omega)]; congr 1; omega

/-- CODEQ_BITSk of a symbol without a code (R51). -/
theorem codeqBitsWord_of_none {s : State} (h : s.tree.code s.codeqSym = none) (k : Nat) : codeqBitsWord s k = 0#32 := by
  simp only [codeqBitsWord, h, Option.getD_none, List.drop_nil]
  rfl

/-- Settles O24: a symbol has a code exactly when it is a leaf, and a legal tree's codes fit CODEQ_LEN. -/
theorem codeQueryReportsTheCode : Obligations.CodeQueryReportsTheCode := by
  unfold Obligations.CodeQueryReportsTheCode
  intro s hwf
  refine ⟨?_, regRead_leafCount_toNat hwf, rfl, ?_, ?_⟩
  case refine_1 =>
    have hleaf : s.tree.code s.codeqSym ≠ none ↔ s.codeqSym ∈ s.tree.leaves := by rw [Ne, code_eq_none_iff, not_not]
    exact (codeqLenWord_present_iff s).trans hleaf
  case refine_2 =>
    intro hleaf
    have hnone := code_eq_none_iff.mpr hleaf
    exact ⟨codeqLenWord_of_none hnone, fun k => codeqBitsWord_of_none hnone k⟩
  case refine_3 =>
    intro p hp
    refine ⟨codeqLenWord_toNat hp (code_length_lt hwf hp), fun j hj => ?_⟩
    have hbit := codeqBitsWord_getLsbD s (j / 32) (Nat.mod_lt j (by decide : 0 < 32))
    rw [hp, Option.getD_some, Nat.div_add_mod] at hbit
    exact hbit

end Sys2Proof.Machine
end

section
/-! PROOFS. Host accesses to MEM: bus errors, the lockout while BUSY = 1, and little-endian lanes while idle (R103, R107, R108,
R110, R112). -/

namespace Sys2Proof.Machine

/-! ### Bus errors (R107, R108) -/

/-- An ill-formed transaction that starts inside its window gets a bus error, BUSY or not (R107, R108; log 8). -/
theorem hostAccess_of_not_wf {x : Txn} {s : State} (hin : x.offset < windowSize s.params x.window) (hwf : ¬ x.wf) :
    hostAccess x s = .next (answer .busError s) := by
  unfold hostAccess
  rw [if_neg (Nat.not_le.mpr hin), if_pos hwf]

/-- t holds a response to the last transaction, and not a bus error. -/
def Answered (t : State) : Prop := ∃ r, r ≠ Reply.busError ∧ t.reply = some r

theorem answered_data (v : Word) (s : State) : Answered (answer (.data v) s) := ⟨.data v, by simp, rfl⟩

theorem answered_written (s : State) : Answered (answer .written s) := ⟨.written, by simp, rfl⟩

theorem Answered.reply_ne {t : State} (h : Answered t) : t.reply ≠ none ∧ t.reply ≠ some .busError := by
  obtain ⟨r, hr, hreply⟩ := h
  simp [hreply, hr]

/-- Every well-formed register transaction is answered without a bus error (R53, R108). -/
theorem regAccess_answered (x : Txn) (s : State) : Answered (regAccess x s) := by
  unfold regAccess
  split
  · exact answered_data _ s
  · exact answered_data _ s
  · exact answered_written _
  · exact answered_written s

/-! ### A MEM access, by direction and BUSY -/

/-- A locked-out MEM read answers 0 and sets MBUSY (R112). -/
theorem memAccess_read_of_busy {x : Txn} {s : State} (hdir : x.dir = .read) (hbusy : s.busy = true) :
    memAccess x s = .next (answer (.data 0#32) { s with mbusy := true }) := by
  simp [memAccess, hdir, hbusy]

/-- A locked-out MEM write stores nothing and sets MBUSY (R112). -/
theorem memAccess_write_of_busy {x : Txn} {s : State} (hdir : x.dir = .write) (hbusy : s.busy = true) :
    memAccess x s = .next (answer .written { s with mbusy := true }) := by
  simp [memAccess, hdir, hbusy]

/-- An idle core answers a read of written bytes with their little-endian value (R103). -/
theorem memAccess_read_of_idle {x : Txn} {s : State} {bs : List Byte} (hdir : x.dir = .read) (hidle : s.busy = false)
    (hread : s.mem.readBytes x.offset x.width = .ok bs) :
    memAccess x s = .next (answer (.data (BitVec.ofNat 32 (ofLe bs))) s) := by
  simp [memAccess, hdir, hidle, hread]

/-- An idle core stops at a read of a byte that nothing has written (log 3). -/
theorem memAccess_read_of_unwritten {x : Txn} {s : State} {addr : Nat} (hdir : x.dir = .read) (hidle : s.busy = false)
    (hread : s.mem.readBytes x.offset x.width = .error addr) : memAccess x s = .fault (.unwrittenRead addr) := by
  simp [memAccess, hdir, hidle, hread]

/-- An idle core stores the low bytes of a written value (R103). -/
theorem memAccess_write_of_idle {x : Txn} {s : State} (hdir : x.dir = .write) (hidle : s.busy = false) :
    memAccess x s =
      .next (answer .written { s with mem := s.mem.writeBytes x.offset ((le32 x.data).take x.width) }) := by
  simp [memAccess, hdir, hidle]

/-- Every MEM access that goes on is answered without a bus error (R107, R112). -/
theorem memAccess_answered {x : Txn} {s t : State} (h : memAccess x s = .next t) : Answered t := by
  cases hdir : x.dir <;> cases hbusy : s.busy
  case read.true =>
    rw [memAccess_read_of_busy hdir hbusy] at h
    cases h
    exact answered_data _ _
  case read.false =>
    cases hread : s.mem.readBytes x.offset x.width with
    | ok bs =>
      rw [memAccess_read_of_idle hdir hbusy hread] at h
      cases h
      exact answered_data _ s
    | error addr =>
      rw [memAccess_read_of_unwritten hdir hbusy hread] at h
      cases h
  case write.true =>
    rw [memAccess_write_of_busy hdir hbusy] at h
    cases h
    exact answered_written _
  case write.false =>
    rw [memAccess_write_of_idle hdir hbusy] at h
    cases h
    exact answered_written _

/-! ### Aligned MEM transactions inside MEM -/

/-- An aligned read of 1, 2 or 4 bytes inside MEM reaches MEM (R107). -/
theorem hostAccess_mrTxn {s : State} {a w : Nat} (hw : w = 1 ∨ w = 2 ∨ w = 4) (halign : a % w = 0)
    (hin : a + w ≤ s.params.memSize) : hostAccess (mrTxn w a) s = memAccess (mrTxn w a) s :=
  hostAccess_mem rfl (.inr ⟨rfl, hw, halign⟩) hin

/-- An aligned write of 1, 2 or 4 bytes inside MEM reaches MEM (R107). -/
theorem hostAccess_mwTxn {s : State} {a w : Nat} (v : Word) (hw : w = 1 ∨ w = 2 ∨ w = 4) (halign : a % w = 0)
    (hin : a + w ≤ s.params.memSize) : hostAccess (mwTxn w a v) s = memAccess (mwTxn w a v) s :=
  hostAccess_mem rfl (.inr ⟨rfl, hw, halign⟩) hin

/-! ### Little-endian lanes (R103) -/

/-- Byte k of a little-endian word is its lane k (R103). -/
theorem le32_getElem? (v : Word) {k : Nat} (hk : k < 4) : (le32 v)[k]? = some (v.extractLsb' (8 * k) 8) := by
  match k, hk with
  | 0, _ | 1, _ | 2, _ | 3, _ => rfl

/-- A little-endian number of n bytes is below 256 ^ n. -/
theorem ofLe_lt (bs : List Byte) : ofLe bs < 256 ^ bs.length := by
  induction bs with
  | nil => simp [ofLe]
  | cons b bs ih =>
    have hb := b.isLt
    simp only [ofLe, List.length_cons, Nat.pow_succ]
    omega

/-- Digit k to the base 256 of a little-endian number is its byte k (R103). -/
theorem ofLe_digit {bs : List Byte} {k : Nat} {b : Byte} (h : bs[k]? = some b) : ofLe bs / 256 ^ k % 256 = b.toNat := by
  induction bs generalizing k with
  | nil => simp at h
  | cons c bs ih =>
    have hc := c.isLt
    cases k with
    | zero =>
      cases h
      simp only [ofLe, Nat.pow_zero, Nat.div_one]
      omega
    | succ k =>
      have htail : ofLe (c :: bs) / 256 = ofLe bs := by simp only [ofLe]; omega
      rw [Nat.pow_succ', ← Nat.div_div_eq_div_mul, htail]
      exact ih h

/-- At most four bytes fit a word, so that the word's value is their number. -/
theorem toNat_ofNat_ofLe {bs : List Byte} (h : bs.length ≤ 4) : (BitVec.ofNat 32 (ofLe bs)).toNat = ofLe bs := by
  have hpow : 256 ^ bs.length ≤ 256 ^ 4 := Nat.pow_le_pow_right (by decide) h
  exact Nat.mod_eq_of_lt ((ofLe_lt bs).trans_le hpow)

/-- Lane k of the word that at most four bytes store is byte k (R103). -/
theorem extractLsb'_ofNat_ofLe {bs : List Byte} {k : Nat} {b : Byte} (hlen : bs.length ≤ 4) (h : bs[k]? = some b) :
    (BitVec.ofNat 32 (ofLe bs)).extractLsb' (8 * k) 8 = b := by
  apply BitVec.eq_of_toNat_eq
  rw [BitVec.extractLsb'_toNat, toNat_ofNat_ofLe hlen, Nat.shiftRight_eq_div_pow, Nat.pow_mul]
  exact ofLe_digit h

/-! ### The obligations -/

/-- Settles O22: the low bytes of the value are the byte list that MEM then holds. -/
theorem hostWriteStoresLittleEndianLanes : Obligations.HostWriteStoresLittleEndianLanes := by
  unfold Obligations.HostWriteStoresLittleEndianLanes
  intro s a w v hidle hw halign hin
  have hw4 : w ≤ 4 := by omega
  have hlen : ((le32 v).take w).length = w := by simpa using hw4
  refine ⟨_, (hostAccess_mwTxn v hw halign hin).trans (memAccess_write_of_idle rfl hidle), fun k hk => ?_, ?_, rfl⟩
  · have hheld := Memory.holds_writeBytes s.mem a ((le32 v).take w) k (by omega)
    rw [List.getElem?_take_of_lt hk, le32_getElem? v (by omega)] at hheld
    exact hheld
  · exact Memory.sameOutside_writeBytes s.mem a w _ hlen.le

/-- Settles O23: the value read is the little-endian number of the region's bytes, whose base-256 digits are its lanes. -/
theorem hostReadReturnsLittleEndianLanes : Obligations.HostReadReturnsLittleEndianLanes := by
  unfold Obligations.HostReadReturnsLittleEndianLanes
  intro s a w lane hidle hw halign hin hlanes
  have hwritten : s.mem.Written a w := fun k hk => by simp [hlanes k hk]
  obtain ⟨bs, hread, hlen, hholds⟩ := Memory.readBytes_of_written hwritten
  have hlen4 : bs.length ≤ 4 := by omega
  refine ⟨_, (hostAccess_mrTxn hw halign hin).trans (memAccess_read_of_idle rfl hidle hread), ?_, fun k hk => ?_⟩
  · rw [toNat_ofNat_ofLe hlen4, ← hlen]
    exact ofLe_lt bs
  · have hbyte : bs[k]? = some (lane k) := (hholds k (by omega)).symm.trans (hlanes k hk)
    exact extractLsb'_ofNat_ofLe hlen4 hbyte

/-- Settles O20: the locked-out arms of a read and of a write. -/
theorem memoryIsLockedWhileBusy : Obligations.MemoryIsLockedWhileBusy := by
  unfold Obligations.MemoryIsLockedWhileBusy
  intro s a w v hbusy hw halign hin
  constructor
  · exact (hostAccess_mrTxn hw halign hin).trans (memAccess_read_of_busy rfl hbusy)
  · exact takesTo_of_written ((hostAccess_mwTxn v hw halign hin).trans (memAccess_write_of_busy rfl hbusy))

/-- Settles O21: only an ill-formed transaction has a bus error for its answer. -/
theorem misalignedAccessIsBusError : Obligations.MisalignedAccessIsBusError := by
  unfold Obligations.MisalignedAccessIsBusError
  refine ⟨fun s x hin hwf => hostAccess_of_not_wf hin hwf, fun s t x hwf h => Answered.reply_ne ?_⟩
  rcases hostAccess_cases x s with ⟨_, _, e⟩ | ⟨hnot, _⟩ | ⟨_, _, e⟩ | ⟨_, _, _, e⟩
  · rw [e] at h
    cases h
  · exact absurd hwf hnot
  · rw [e] at h
    cases h
    exact regAccess_answered x s
  · exact memAccess_answered (e.symm.trans h)

end Sys2Proof.Machine
end

section
/-! PROOFS. Command words: the decoder, the encoder and the opcode map (R140, R143-R145). -/

namespace Sys2Proof

/-! ### The encoder -/

/-- The two fields of a command's word (R140). -/
theorem encode_fields (i : Instr) : (encode i).extractLsb' 8 24 = 0#24 ∧ (encode i).extractLsb' 0 8 = i.opcode := by
  refine And.symm ?_
  cases i with
  | nop => exact Laws.OpcodeIsLowByte.nop
  | bwtFwd => exact Laws.OpcodeIsLowByte.bwtFwd
  | bwtInv => exact Laws.OpcodeIsLowByte.bwtInv
  | mtfEnc => exact Laws.OpcodeIsLowByte.mtfEnc
  | mtfDec => exact Laws.OpcodeIsLowByte.mtfDec
  | hufBuild => exact Laws.OpcodeIsLowByte.hufBuild
  | treeSer => exact Laws.OpcodeIsLowByte.treeSer
  | treeDes => exact Laws.OpcodeIsLowByte.treeDes
  | entEnc => exact Laws.OpcodeIsLowByte.entEnc
  | entDec => exact Laws.OpcodeIsLowByte.entDec

/-- The fields RSV and OP make up the whole word, so they determine it (R140). -/
theorem eq_encode_iff (w : Word) (i : Instr) :
    w = encode i ↔ w.extractLsb' 8 24 = 0#24 ∧ w.extractLsb' 0 8 = i.opcode := by
  constructor
  · rintro rfl
    exact encode_fields i
  · rintro ⟨hrsv, hop⟩
    have hword : w.extractLsb' 8 24 ++ w.extractLsb' 0 8 = w :=
      BitVec.extractLsb'_append_extractLsb' (w := 24) (len := 8)
    rw [← hword, hrsv, hop, encode]

/-- The opcode map stops below 0x0A (R143). -/
theorem opcode_toNat_lt (i : Instr) : i.opcode.toNat < 0x0A := by cases i <;> decide

/-! ### The decoder -/

/-- All that the decoder can answer: BadOpcode to an illegal word (R145), and a command to the word with its opcode (R144). -/
theorem decode_cases (w : Word) :
    ((w.extractLsb' 8 24 ≠ 0#24 ∨ 0x0A ≤ (w.extractLsb' 0 8).toNat) ∧ decode w = .badOpcode) ∨
      ∃ i, w.extractLsb' 8 24 = 0#24 ∧ w.extractLsb' 0 8 = i.opcode ∧ decode w = .command i := by
  unfold decode
  split
  next hrsv => exact .inl ⟨.inl hrsv, rfl⟩
  next hrsv =>
    split
    case h_11 =>
      have hop : 0x0A ≤ (w.extractLsb' 0 8).toNat := by
        simp only [imp_false] at *
        omega
      exact .inl ⟨.inr hop, rfl⟩
    all_goals
      next hop =>
        refine .inr ⟨_, not_not.mp hrsv, ?_, rfl⟩
        exact BitVec.eq_of_toNat_eq hop

/-- A command's own word decodes to it. -/
theorem decode_encode (i : Instr) : decode (encode i) = .command i := by cases i <;> rfl

/-- No other word decodes to it (R143). -/
theorem decode_eq_command_iff (w : Word) (i : Instr) : decode w = .command i ↔ w = encode i := by
  constructor
  · intro h
    rcases decode_cases w with ⟨_, hbad⟩ | ⟨j, hrsv, hop, hj⟩
    · rw [hbad] at h
      cases h
    · obtain rfl : j = i := Decoded.command.inj (hj.symm.trans h)
      exact (eq_encode_iff w j).mpr ⟨hrsv, hop⟩
  · rintro rfl
    exact decode_encode i

/-- Over the words with bits 31:8 = 0 the opcode alone tells the commands apart (R144). -/
theorem decode_eq_command_iff_opcode {w : Word} (hrsv : w.extractLsb' 8 24 = 0#24) (i : Instr) :
    decode w = .command i ↔ w.extractLsb' 0 8 = i.opcode := by
  rw [decode_eq_command_iff, eq_encode_iff, and_iff_right hrsv]

/-- The illegal words (R145). -/
theorem decode_eq_badOpcode_iff (w : Word) :
    decode w = .badOpcode ↔ w.extractLsb' 8 24 ≠ 0#24 ∨ 0x0A ≤ (w.extractLsb' 0 8).toNat := by
  rcases decode_cases w with ⟨hillegal, hbad⟩ | ⟨i, hrsv, hop, hi⟩
  · exact iff_of_true hbad hillegal
  · have hlt := opcode_toNat_lt i
    rw [← hop] at hlt
    exact iff_of_false (by simp [hi]) (not_or.mpr ⟨not_not.mpr hrsv, Nat.not_le.mpr hlt⟩)

/-! ### The obligations -/

/-- Settles O2: `decode_eq_command_iff`, which rests on the two fields determining the word. -/
theorem decodeAndEncodeAgree : Obligations.DecodeAndEncodeAgree :=
  fun i w _ => decode_eq_command_iff w i

/-- Settles O1: one equation for every command over the words with bits 31:8 = 0, and the illegal words. -/
theorem decodeIsTheOpcodeMap : Obligations.DecodeIsTheOpcodeMap := by
  unfold Obligations.DecodeIsTheOpcodeMap
  refine fun w => ⟨fun hrsv => (decode_eq_badOpcode_iff w).mpr (.inl hrsv), fun hrsv => ?_⟩
  have hmap := decode_eq_command_iff_opcode hrsv
  have hillegal : decode w = .badOpcode ↔ 0x0A ≤ (w.extractLsb' 0 8).toNat := by
    rw [decode_eq_badOpcode_iff, or_iff_right (not_not.mpr hrsv)]
  exact ⟨hmap .nop, hmap .bwtFwd, hmap .bwtInv, hmap .mtfEnc, hmap .mtfDec, hmap .hufBuild, hmap .treeSer, hmap .treeDes,
    hmap .entEnc, hmap .entDec, hillegal⟩

/-- Settles O3: the legal words are encodings, and the others are illegal by opcode or by bits 31:8. -/
theorem wordsOfTheOpcodeMapDecode : Obligations.WordsOfTheOpcodeMapDecode := by
  unfold Obligations.WordsOfTheOpcodeMapDecode
  refine ⟨decode_encode .nop, decode_encode .bwtFwd, decode_encode .mtfDec, decode_encode .hufBuild, decode_encode .treeDes,
    decode_encode .entDec, ?_, ?_, ?_⟩
  · exact (decode_eq_badOpcode_iff _).mpr (.inr (by decide))
  · exact (decode_eq_badOpcode_iff _).mpr (.inl (by decide))
  · exact (decode_eq_badOpcode_iff _).mpr (.inl (by decide))

end Sys2Proof

namespace Sys2Proof.Machine

/-- An illegal word completes with the error record of BAD_OPCODE (R145). -/
theorem completeStep_of_badOpcode {s : State} (hbusy : s.busy = true) (h : decode s.cmd = .badOpcode) :
    completeStep s = .next (errState s .badOpcode) := by
  simp [completeStep, hbusy, h]

/-- Settles O7: the write is accepted, and the accepted word is one that decodes to BadOpcode. -/
theorem illegalWordCompletesWithBadOpcode : Obligations.IllegalWordCompletesWithBadOpcode := by
  unfold Obligations.IllegalWordCompletesWithBadOpcode
  intro s w hidle hillegal
  have hwrite : regWrite .cmd w s = accept w s := whenIdle_of_idle hidle
  have haccepted : hostAccess (wrTxn .cmd w) s = .next (answer .written (accept w s)) := by rw [hostAccess_wrTxn, hwrite]
  have hdecode : decode w = .badOpcode := (decode_eq_badOpcode_iff w).mpr hillegal
  exact ⟨_, haccepted, rfl, rfl, rfl, completeStep_of_badOpcode rfl hdecode⟩

end Sys2Proof.Machine
end

section
/-! PROOFS. A command's verdict is a function of what R142 says it reads (R142, R174). -/

namespace Sys2Proof.Machine

/-! ### What the shared operations read -/

/-- The operand checks read only the operands, TREE's state and the parameters (R180). -/
theorem operandChecks_congr {i : Instr} {s s' : State} (h : ReadsAgree i s s') : operandChecks i s = operandChecks i s' := by
  cases i <;> simp only [ReadsAgree] at h <;>
    simp only [operandChecks, blockLenOk, blockIdxOk, inputOk, footprintOk, inputRegion, footprint, overlapPermitted, h]

/-- One verdict of a command, once what follows the operand checks is one. -/
theorem checked_congr {i : Instr} {s s' : State} {k k' : Verdict} (h : ReadsAgree i s s') (hk : k = k') :
    checked i s k = checked i s' k' := by
  simp only [checked, operandChecks_congr h, hk]

/-- The tree walker reads only the bytes of its stream (R345, log 11). -/
theorem walkTree_congr {root : CodeTree} {m m' : Memory} {base n : Nat}
    (h : ∀ k, k < n → m.read (base + k) = m'.read (base + k)) {fuel pos : Nat} (node : CodeTree) (todo : Nat)
    (hstream : pos + fuel ≤ 8 * n) : walkTree root m base fuel node pos todo = walkTree root m' base fuel node pos todo := by
  induction fuel generalizing node pos todo with
  | zero => cases todo <;> rfl
  | succ fuel ih =>
    cases todo with
    | zero => rfl
    | succ todo =>
      have hbyte := h (pos / 8) (by omega)
      have hnext := fun node todo => ih (pos := pos + 1) node todo (by omega)
      simp only [walkTree, hbyte, hnext]

/-- What ENT_DEC decodes depends on its stream, USIZE and TREE (R142). -/
theorem entDecWalk_congr {s s' : State} (h : ReadsAgree .entDec s s') : entDecWalk s = entDecWalk s' := by
  obtain ⟨_, hsrc, hlen, _, _, husize, htree, hmem⟩ := h
  unfold entDecWalk
  rw [← hsrc, ← hlen, ← husize, ← htree]
  cases s.tree with
  | invalid | empty => rfl
  | tree t =>
    cases t with
    | leaf c => rfl
    | node l r => exact walkTree_congr hmem _ _ (by omega)

/-! ### The commands -/

/-- Both reads of TREE_DES, of the header and of the leaf and shape bytes, stay inside its input region: LEN bounds them
first (R316, log 10). -/
theorem treeDesVerdict_congr {s s' : State} (h : ReadsAgree .treeDes s s') : treeDesVerdict s = treeDesVerdict s' := by
  have ⟨_, hsrc, hlen, hmem⟩ := h
  refine checked_congr h ?_
  rw [← hsrc, ← hlen]
  split
  next => rfl
  next hheader =>
    rw [Verdict.withInput_congr fun k hk => hmem k (by omega)]
    congr 1
    funext header
    dsimp only
    split
    next => rfl
    next =>
      split
      next => rfl
      next hneed =>
        simp only [sideChannelSize] at hneed
        refine Verdict.withInput_congr (fun k hk => ?_) _
        rw [Nat.add_assoc]
        exact hmem _ (by omega)

/-- Exec's answer is a function of what the command reads (R142, R174). -/
theorem verdictOf_congr {i : Instr} {s s' : State} (h : ReadsAgree i s s') : verdictOf i s = verdictOf i s' := by
  cases i with
  | nop => rfl
  | bwtFwd | mtfEnc | mtfDec =>
    have ⟨_, hsrc, hlen, hdst, hmem⟩ := h
    refine checked_congr h ?_
    rw [Verdict.withInput_congr hmem, hsrc, hlen, hdst]
  | bwtInv =>
    have ⟨_, hsrc, hlen, hdst, hidx, hmem⟩ := h
    refine checked_congr h ?_
    rw [Verdict.withInput_congr hmem, hsrc, hlen, hdst, hidx]
  | hufBuild =>
    have ⟨_, hsrc, hlen, hmem⟩ := h
    refine checked_congr h ?_
    rw [Verdict.withInput_congr hmem, hsrc, hlen]
  | treeSer =>
    have ⟨_, hdst, hcap, hidx, husize, htree⟩ := h
    refine checked_congr h ?_
    rw [hdst, hcap, hidx, husize, htree]
  | treeDes => exact treeDesVerdict_congr h
  | entEnc =>
    have ⟨_, hsrc, hlen, hdst, hcap, htree, hmem⟩ := h
    refine checked_congr h ?_
    rw [Verdict.withInput_congr hmem, hsrc, hlen, hdst, hcap, htree]
  | entDec =>
    have ⟨_, _, _, hdst, _, husize, _, _⟩ := h
    refine checked_congr h ?_
    rw [entDecWalk_congr h, hdst, husize]

/-- Settles O10: the verdict of the first state serves both. -/
theorem commandDependsOnlyOnWhatItReads : Obligations.CommandDependsOnlyOnWhatItReads := by
  unfold Obligations.CommandDependsOnlyOnWhatItReads
  intro i s s' h
  refine ⟨verdictOf i s, exec_eq i s, ?_⟩
  rw [verdictOf_congr h]
  exact exec_eq i s'

end Sys2Proof.Machine
end

section
/-! PROOFS. The lifecycle of a command: the step and its input (R172, log 1), acceptance (R170), the end of a command (R173, R175,
R177), and what the host can change while a command runs (R65, R112, R178). -/

namespace Sys2Proof.Machine

/-! ### The step and its input (R172, log 1) -/

/-- With nothing left in the inbox the step is Complete. -/
theorem step_of_inbox_nil {s : State} (h : s.inbox = []) : step s = completeStep s := by simp [step, advance, h]

/-- With an input left the step delivers it and consumes it. -/
theorem step_of_inbox_cons {s : State} {i : Input} {rest : List Input} (h : s.inbox = i :: rest) :
    step s = deliver i { s with inbox := rest } := by
  simp [step, advance, h]

/-- An idle core's Complete step changes nothing (R172, R395). -/
theorem completeStep_of_idle {s : State} (h : s.busy = false) : completeStep s = .next s := by simp [completeStep, h]

/-- A running core's Complete step is exec of the command in CMD (R173). -/
theorem completeStep_of_command {s : State} {i : Instr} (hbusy : s.busy = true) (h : decode s.cmd = .command i) :
    completeStep s = exec i s := by
  simp [completeStep, hbusy, h]

/-- A run whose first step goes on is the rest of the run from there. -/
theorem run_succ_of_next {M : Host.Core} {n : Nat} {s t : M.State} (h : M.step s = .next t) : M.run (n + 1) s = M.run n t := by
  rw [Host.Core.run, h]

/-- A run of one step is the step. -/
theorem run_one (M : Host.Core) (s : M.State) : M.run 1 s = M.step s := by
  rw [Host.Core.run]
  cases M.step s <;> rfl

/-! ### What the host can change while a command runs (R178) -/

/-- t is s but for what the host can change while a command runs: the bus response, IRQ_EN and the three events (R178). -/
def SameButHostMarks (s t : State) : Prop :=
  t = { s with reply := t.reply, irqEn := t.irqEn, cmdDone := t.cmdDone, wbusy := t.wbusy, mbusy := t.mbusy }

/-- The related states are s with any values of the five fields. -/
theorem SameButHostMarks.exists_fields {s t : State} (h : SameButHostMarks s t) :
    ∃ r q c w m, t = { s with reply := r, irqEn := q, cmdDone := c, wbusy := w, mbusy := m } :=
  ⟨_, _, _, _, _, h⟩

/-- Among what stays are the flag, the word and the parameters of the running command, and what happens next. -/
theorem SameButHostMarks.kept {s t : State} (h : SameButHostMarks s t) :
    t.busy = s.busy ∧ t.cmd = s.cmd ∧ t.params = s.params ∧ t.inbox = s.inbox := by
  obtain ⟨_, _, _, _, _, rfl⟩ := h.exists_fields
  exact ⟨rfl, rfl, rfl, rfl⟩

/-- One transaction after another changes no more than each of them may. -/
theorem SameButHostMarks.trans {s t u : State} (hst : SameButHostMarks s t) (htu : SameButHostMarks t u) :
    SameButHostMarks s u := by
  obtain ⟨_, _, _, _, _, rfl⟩ := hst.exists_fields
  obtain ⟨_, _, _, _, _, rfl⟩ := htu.exists_fields
  rfl

/-- The relation does not read the inbox, so both inboxes may be replaced by one. -/
theorem SameButHostMarks.withInbox {s t : State} (h : SameButHostMarks s t) (xs : List Input) :
    SameButHostMarks { s with inbox := xs } { t with inbox := xs } := by
  obtain ⟨_, _, _, _, _, rfl⟩ := h.exists_fields
  rfl

/-- A register write while a command runs changes an event or IRQ_EN, unless it is a soft reset (R55, R178). -/
theorem regWrite_sameButHostMarks {r : Reg} {v : Word} {s : State} (hbusy : s.busy = true)
    (hreset : ¬ (r = .ctrl ∧ v.getLsbD 1 = true)) : SameButHostMarks s (regWrite r v s) := by
  by_cases hctrl : r = .ctrl
  · subst hctrl
    rw [regWrite_ctrl_of_clear s (by simpa using hreset)]
    rfl
  · by_cases hevents : r = .events
    · subst hevents
      rfl
    · rw [regWrite_of_busy v hbusy hctrl hevents]
      rfl

/-- Settles O11: a MEM access is locked out, a register write is refused but to CTRL and EVENTS, and the rest is only answered. -/
theorem runningCommandKeepsItsOperands : Obligations.RunningCommandKeepsItsOperands := by
  unfold Obligations.RunningCommandKeepsItsOperands
  intro s t x hbusy h hreset
  change SameButHostMarks s t
  rcases hostAccess_eq_next h with ⟨r, rfl⟩ | ⟨r, hdir, hwin, hwidth, hoff, rfl⟩ | ⟨_, r, rfl⟩ | ⟨hidle, _⟩
  · rfl
  · have hwrite : SameButHostMarks s (regWrite r x.data s) := by
      refine regWrite_sameButHostMarks hbusy ?_
      rintro ⟨rfl, hbit⟩
      exact hreset ⟨hdir, hwin, hoff, hwidth, hbit⟩
    exact hwrite.trans rfl
  · rfl
  · simp [hbusy] at hidle

/-- A running core goes on at every transaction inside the windows: what it locks out it answers too (R55, R107, R112). -/
theorem hostAccess_goesOn_of_busy {x : Txn} {s : State} (hbusy : s.busy = true) (hin : InWindow s.params x) :
    GoesOn (hostAccess x s) := by
  obtain ⟨hoff, hend⟩ := hin
  by_cases hwf : x.wf
  · cases hwin : x.window with
    | reg =>
      have ⟨hwidth, haligned⟩ : x.width = 4 ∧ x.offset % 4 = 0 := by simpa [Txn.wf, hwin] using hwf
      rw [hwin] at hoff
      exact ⟨_, hostAccess_reg hwin hoff hwidth haligned⟩
    | mem =>
      rw [hostAccess_mem hwin hwf (hend hwf hwin)]
      cases hdir : x.dir with
      | read => exact ⟨_, memAccess_read_of_busy hdir hbusy⟩
      | write => exact ⟨_, memAccess_write_of_busy hdir hbusy⟩
  · exact ⟨_, hostAccess_of_not_wf hoff hwf⟩

/-- A running core takes any transactions inside the windows, one step each; if none is a soft reset, the step after them is
that of a state in which the command still runs undisturbed (R65, R178). -/
theorem run_transactions_then_step {s : State} {xs : List Txn} (hbusy : s.busy = true)
    (hxs : ∀ x ∈ xs, InWindow s.params x ∧ ¬ IsSoftReset x) :
    ∃ t, SameButHostMarks { s with inbox := [] } t ∧
      Host.Core.run Sys2Proof.core (xs.length + 1) { s with inbox := xs.map .bus } = step t := by
  induction xs generalizing s with
  | nil => exact ⟨{ s with inbox := [] }, rfl, run_one Sys2Proof.core _⟩
  | cons x xs ih =>
    obtain ⟨⟨hin, hreset⟩, hrest⟩ := List.forall_mem_cons.mp hxs
    obtain ⟨t, haccess⟩ := hostAccess_goesOn_of_busy (s := { s with inbox := xs.map .bus }) hbusy hin
    have hsame : SameButHostMarks { s with inbox := xs.map .bus } t :=
      runningCommandKeepsItsOperands _ t x hbusy haccess hreset
    obtain ⟨hbusy', _, hparams, (hinbox : t.inbox = xs.map .bus)⟩ := hsame.kept
    obtain ⟨u, htu, hrun⟩ := ih (hbusy'.trans hbusy) (hparams ▸ hrest)
    have hstep : step { s with inbox := (x :: xs).map .bus } = .next t := by
      rw [step_of_inbox_cons (i := .bus x) (rest := xs.map .bus) rfl]
      exact haccess
    have ht : { t with inbox := xs.map .bus } = t := by rw [← hinbox]
    rw [ht] at hrun
    exact ⟨u, (hsame.withInbox []).trans htu, Eq.trans (run_succ_of_next hstep) hrun⟩

/-! ### Completion under what the host can change (R65, R172) -/

/-- No command reads what the host can change while it runs (R142, R178). -/
theorem SameButHostMarks.readsAgree {s t : State} (h : SameButHostMarks s t) (i : Instr) : ReadsAgree i s t := by
  obtain ⟨_, _, _, _, _, rfl⟩ := h.exists_fields
  cases i <;> simp [ReadsAgree]

/-- A verdict that completes one of two related states completes the other, and the next states are related (R173). -/
theorem SameButHostMarks.completeWith {s s' t : State} (h : SameButHostMarks s s') {v : Verdict}
    (hv : completeWith v s = .next t) : ∃ t', completeWith v s' = .next t' ∧ SameButHostMarks t t' := by
  obtain ⟨_, _, _, _, _, rfl⟩ := h.exists_fields
  rcases completeWith_next_iff.mp hv with ⟨e, rfl, rfl⟩ | ⟨c, rfl, rfl⟩
  · exact ⟨_, rfl, rfl⟩
  · exact ⟨_, rfl, rfl⟩

/-- A Complete step that goes on from one of two related states goes on from the other, to a related state (R172). -/
theorem SameButHostMarks.completeStep {s s' t : State} (h : SameButHostMarks s s') (hbusy : s.busy = true)
    (ht : completeStep s = .next t) : ∃ t', completeStep s' = .next t' ∧ SameButHostMarks t t' := by
  obtain ⟨hkeeps, hcmd, _, _⟩ := h.kept
  have hbusy' : s'.busy = true := hkeeps.trans hbusy
  cases hdecode : decode s.cmd with
  | command i =>
    rw [completeStep_of_command hbusy hdecode, exec_eq] at ht
    rw [completeStep_of_command hbusy' (hcmd ▸ hdecode), exec_eq, ← verdictOf_congr (h.readsAgree i)]
    exact h.completeWith ht
  | badOpcode =>
    rw [completeStep_of_badOpcode hbusy hdecode] at ht
    rw [completeStep_of_badOpcode hbusy' (hcmd ▸ hdecode)]
    exact h.completeWith (v := .err .badOpcode) ht

/-- Settles O12: the transactions leave a state that differs only in what no command reads, and Complete raises CMD_DONE in
both runs. -/
theorem completionIsAtomicUnderInterleaving : Obligations.CompletionIsAtomicUnderInterleaving := by
  unfold Obligations.CompletionIsAtomicUnderInterleaving
  intro s u xs hbusy hxs hu
  rw [step_of_inbox_nil rfl] at hu
  obtain ⟨s', hsame, hrun⟩ := run_transactions_then_step hbusy hxs
  obtain ⟨t, ht, htu⟩ := hsame.completeStep hbusy hu
  obtain ⟨hbusy', _, _, hempty⟩ := hsame.kept
  obtain ⟨hdone, _⟩ := completeStep_raises_cmdDone (hbusy'.trans hbusy) ht
  obtain ⟨hdoneAlone, _⟩ := completeStep_raises_cmdDone (s := { s with inbox := [] }) hbusy hu
  refine ⟨t, hrun.trans ((step_of_inbox_nil hempty).trans ht), ?_, hdone⟩
  rw [SameButHostMarks, hdone, ← hdoneAlone] at htu
  exact htu

/-! ### The end of a command (R173, R175, R177) -/

/-- Settles O8: a verdict that goes on is a success with its effects, or an error with one of the codes of R371. -/
theorem completionIsOkOrPreciseError : Obligations.CompletionIsOkOrPreciseError := by
  unfold Obligations.CompletionIsOkOrPreciseError
  intro i s t h
  rw [exec_eq, completeWith_next_iff] at h
  rcases h with ⟨e, _, rfl⟩ | ⟨c, _, rfl⟩
  · exact .inr (finish_applyOk e s)
  · exact .inl ⟨c, rfl, ErrCode.number_bounds c⟩

/-- NOP, HUF_BUILD and TREE_DES write no byte (R179). -/
theorem verdictOf_ok_out_nil {i : Instr} {s : State} {e : Effects} (hi : i ∈ [.nop, .hufBuild, .treeDes])
    (h : verdictOf i s = .ok e) : e.out = [] := by
  simp only [List.mem_cons, List.not_mem_nil, or_false] at hi
  rcases hi with rfl | rfl | rfl
  · cases h; rfl
  · obtain ⟨_, _, _, _, rfl⟩ := hufBuildVerdict_eq_ok h
    rfl
  · obtain ⟨_, _, _, _, _, _, _, _, _, _, _, _, _, _, _, _, rfl⟩ := treeDesVerdict_eq_ok h
    rfl

/-- Every other command writes OUT_LEN bytes at DST, and that number fits its register (R12, R175, R179). -/
theorem verdictOf_ok_out {i : Instr} {s : State} {e : Effects} (hi : i ∉ [.nop, .hufBuild, .treeDes])
    (h : verdictOf i s = .ok e) : e.dst = s.dst.toNat ∧ e.out.length = e.outLen ∧ e.outLen < 2 ^ 32 := by
  cases i with
  | nop | hufBuild | treeDes => simp at hi
  | bwtFwd =>
    obtain ⟨_, x, hlen, _, rfl⟩ := bwtFwdVerdict_eq_ok h
    exact ⟨rfl, bwtLastColumn_length x, hlen ▸ s.len.isLt⟩
  | bwtInv =>
    obtain ⟨⟨_, _, hidx⟩, y, hlen, _, rfl⟩ := bwtInvVerdict_eq_ok h
    exact ⟨rfl, bwtInverse_length (hlen ▸ hidx), hlen ▸ s.len.isLt⟩
  | mtfEnc =>
    obtain ⟨_, x, hlen, _, rfl⟩ := mtfEncVerdict_eq_ok h
    exact ⟨rfl, mtfEncode_length x, hlen ▸ s.len.isLt⟩
  | mtfDec =>
    obtain ⟨_, x, hlen, _, rfl⟩ := mtfDecVerdict_eq_ok h
    exact ⟨rfl, mtfDecode_length x, hlen ▸ s.len.isLt⟩
  | treeSer =>
    obtain ⟨_, hcap, rfl⟩ := treeSerVerdict_eq_ok h
    exact ⟨rfl, sideChannel_length _ _ _, hcap.trans_lt s.dstCap.isLt⟩
  | entEnc =>
    obtain ⟨_, _, bits, _, _, _, hcap, rfl⟩ := entEncVerdict_eq_ok h
    exact ⟨rfl, packBits_length bits, hcap.trans_lt s.dstCap.isLt⟩
  | entDec =>
    obtain ⟨_, _, _, hwalk, rfl⟩ := entDecVerdict_eq_ok h
    exact ⟨rfl, entDecWalk_done_length hwalk, s.usize.isLt⟩

/-- Settles O59: an error writes no byte, and a success writes the bytes of its effects, whose number OUT_LEN holds. -/
theorem commandsWriteOnlyTheirOutput : Obligations.CommandsWriteOnlyTheirOutput := by
  unfold Obligations.CommandsWriteOnlyTheirOutput
  intro i s t h
  rw [exec_eq, completeWith_next_iff] at h
  rcases h with ⟨e, hok, rfl⟩ | ⟨c, _, rfl⟩
  case inl =>
    refine ⟨fun hi => ?_, fun hs ht => ?_, fun hi _ _ => ?_⟩
    case refine_1 => simp [verdictOf_ok_out_nil hi hok]
    case refine_2 => simp [hs] at ht
    case refine_3 =>
      obtain ⟨hdst, hlen, hfits⟩ := verdictOf_ok_out hi hok
      have houtLen : (finish (applyOk e s)).outLen.toNat = e.out.length := by
        rw [hlen]
        exact Nat.mod_eq_of_lt hfits
      rw [houtLen, ← hdst]
      exact ⟨Memory.sameOutside_writeBytes _ _ _ _ le_rfl, (Memory.holds_writeBytes _ _ _).written⟩
  case inr => exact ⟨fun _ => rfl, fun _ _ => rfl, fun _ _ ht => by simp at ht⟩

/-! ### Steps, acceptance and NOP -/

/-- Settles O4: the step delivers the next input, and Complete where none is left. -/
theorem stepTakesTheNextInput : Obligations.StepTakesTheNextInput := by
  unfold Obligations.StepTakesTheNextInput
  exact ⟨fun _ _ _ h => step_of_inbox_cons h, fun _ _ h => step_of_inbox_cons h, fun _ _ h => step_of_inbox_cons h,
    fun _ h => step_of_inbox_nil h, fun _ h => completeStep_of_idle h⟩

/-- Settles O5: in both inbox forms the step is Complete, which runs the command in CMD. -/
theorem stepRunsTheDecodedCommand : Obligations.StepRunsTheDecodedCommand := by
  unfold Obligations.StepRunsTheDecodedCommand
  intro s i hbusy hdecode _
  constructor
  · intro hempty
    rw [step_of_inbox_nil hempty, completeStep_of_command hbusy hdecode]
  · intro rest hcons
    rw [step_of_inbox_cons hcons]
    exact completeStep_of_command hbusy hdecode

/-- Settles O6: an idle core takes the write, which is the acceptance of R170. -/
theorem commandWriteIsAccepted : Obligations.CommandWriteIsAccepted := by
  unfold Obligations.CommandWriteIsAccepted
  intro s w hidle
  exact takesTo_wrTxn (r := .cmd) (whenIdle_of_idle hidle)

/-- Exec of NOP goes on at every state and leaves only the record (R181). -/
theorem exec_nop (s : State) : exec .nop s = .next (okState s 0#32 0#32) := by
  rw [exec_eq]
  rfl

/-- Settles O28: NOP has no checks and no output, and its word is the encoding of opcode 0. -/
theorem nopCompletes : Obligations.NopCompletes := by
  unfold Obligations.NopCompletes
  refine ⟨exec_nop, fun w => decode_eq_command_iff w .nop, (decode_eq_badOpcode_iff _).mpr (.inl (by decide)), ?_⟩
  have haccepted : hostAccess (wrTxn .cmd 0#32) State.reset = .next (answer .written (accept 0#32 State.reset)) :=
    hostAccess_wrTxn .cmd 0#32 State.reset
  have hcomplete := completeStep_of_command (s := answer .written (accept 0#32 State.reset)) rfl (decode_encode .nop)
  rw [exec_nop] at hcomplete
  exact ⟨_, _, haccepted, hcomplete, by decide, by decide⟩

end Sys2Proof.Machine
end

section
/-! PROOFS. The order on rows of bytes and the sorted list of rotations (R15, R203, R204). -/

namespace Sys2Proof.Machine

/-! ### The order on rows (R15, R203) -/

/-- Rows in lexicographic order, bytes as unsigned numbers: `bytesLe` in the library's order on lists of numbers (R15). -/
abbrev RowLe (u v : List Byte) : Prop := u.map BitVec.toNat ≤ v.map BitVec.toNat

/-- A list of bytes is determined by the numbers of its bytes. -/
theorem map_toNat_injective : Function.Injective (List.map (BitVec.toNat (w := 8))) :=
  List.map_injective_iff.mpr fun _ _ => BitVec.eq_of_toNat_eq

/-- The first bytes decide, and equal first bytes leave it to the rest (R15). -/
theorem rowLe_cons_iff {a b : Byte} {u v : List Byte} :
    RowLe (a :: u) (b :: v) ↔ a.toNat < b.toNat ∨ a.toNat = b.toNat ∧ RowLe u v := by
  simp only [RowLe, List.map_cons, le_iff_lt_or_eq, List.cons_lt_cons_iff, List.cons.injEq]
  tauto

/-- The empty row comes first (R15). -/
theorem nil_rowLe (v : List Byte) : RowLe [] v := le_of_not_gt (List.not_lt_nil _)

/-- No other row comes before the empty row (R15). -/
theorem not_rowLe_nil (a : Byte) (u : List Byte) : ¬ RowLe (a :: u) [] := not_le_of_gt .nil

/-- `bytesLe` is the library's order on the numbers of the bytes (R15). -/
theorem bytesLe_iff (u v : List Byte) : bytesLe u v = true ↔ RowLe u v := by
  induction u generalizing v with
  | nil => exact iff_of_true rfl (nil_rowLe v)
  | cons a u ih =>
    cases v with
    | nil => exact iff_of_false Bool.false_ne_true (not_rowLe_nil a u)
    | cons b v =>
      rw [rowLe_cons_iff, ← ih]
      simp [bytesLe]

/-- Rows in order stay in order when both are cut to their first r bytes. -/
theorem RowLe.take {u v : List Byte} (h : RowLe u v) (r : Nat) : RowLe (u.take r) (v.take r) := by
  induction r generalizing u v with
  | zero => exact nil_rowLe _
  | succ r ih =>
    cases u with
    | nil => exact nil_rowLe _
    | cons a u =>
      cases v with
      | nil => exact absurd h (not_rowLe_nil a u)
      | cons b v => exact rowLe_cons_iff.mpr ((rowLe_cons_iff.mp h).imp_right fun ⟨hab, huv⟩ => ⟨hab, ih huv⟩)

/-- Two sorted lists of the same rows are equal. -/
theorem rows_eq_of_perm {A B : List (List Byte)} (h : A.Perm B) (hA : A.Pairwise RowLe) (hB : B.Pairwise RowLe) : A = B :=
  h.eq_of_pairwise (fun _ _ _ _ huv hvu => map_toNat_injective (le_antisymm huv hvu)) hA hB

/-- Insertion by a relation that compares keys in a linear order sorts. -/
theorem pairwise_insertionSort_of_key {α β : Type} [LinearOrder β] {r : α → α → Prop} [DecidableRel r] (key : α → β)
    (hr : ∀ a b, r a b ↔ key a ≤ key b) (l : List α) : (l.insertionSort r).Pairwise fun a b => key a ≤ key b := by
  have htotal : Std.Total r := ⟨fun a b => by simpa only [hr] using le_total (key a) (key b)⟩
  have htrans : IsTrans α r := ⟨fun a b c => by simpa only [hr] using le_trans⟩
  exact (List.pairwise_insertionSort r l).imp fun h => (hr _ _).mp h

/-! ### The sorted rotations (R202-R204) -/

/-- What R203 sorts the rotations by: the numbers of the bytes, then the start index. -/
def rotationKey (x : List Byte) (i : Nat) : List Nat ×ₗ Nat := toLex ((blockRotation x i).map BitVec.toNat, i)

/-- `rotationLe` compares keys (R203). -/
theorem rotationLe_iff (x : List Byte) (i j : Nat) : rotationLe x i j = true ↔ rotationKey x i ≤ rotationKey x j := by
  simp only [rotationLe, rotationKey, Bool.and_eq_true, Bool.or_eq_true, Bool.not_eq_true', ← Bool.not_eq_true, bytesLe_iff,
    decide_eq_true_eq, Prod.Lex.toLex_le_toLex, RowLe, not_le]
  rw [le_iff_lt_or_eq]
  constructor
  · rintro ⟨hlt | heq, hlt' | hij⟩
    · exact .inl hlt
    · exact .inl hlt
    · exact .inl hlt'
    · exact .inr ⟨heq, hij⟩
  · rintro (hlt | ⟨heq, hij⟩)
    · exact ⟨.inl hlt, .inl hlt⟩
    · exact ⟨.inr heq, .inr hij⟩

/-- Strictly smaller keys are what R203 calls coming before. -/
theorem rotationBefore_of_key_lt {x : List Byte} {i j : Nat} (h : rotationKey x i < rotationKey x j) : RotationBefore x i j := by
  rcases Prod.Lex.toLex_lt_toLex.mp h with hlt | ⟨heq, hij⟩
  · exact .inl hlt
  · exact .inr ⟨map_toNat_injective heq, hij⟩

/-- The key holds the start index. -/
theorem rotationKey_injective (x : List Byte) : Function.Injective (rotationKey x) :=
  fun _ _ h => congrArg (fun k => (ofLex k).2) h

/-- The sorted rotations are all the start indices (R204). -/
theorem sortedRotations_perm (x : List Byte) : (sortedRotations x).Perm (List.range x.length) := List.perm_insertionSort _ _

@[simp] theorem sortedRotations_length (x : List Byte) : (sortedRotations x).length = x.length := by
  simpa using (sortedRotations_perm x).length_eq

theorem mem_sortedRotations {x : List Byte} {i : Nat} : i ∈ sortedRotations x ↔ i < x.length := by
  rw [(sortedRotations_perm x).mem_iff, List.mem_range]

/-- The keys of the sorted rotations rise (R203). -/
theorem sortedRotations_keys (x : List Byte) : (sortedRotations x).Pairwise fun i j => rotationKey x i ≤ rotationKey x j :=
  pairwise_insertionSort_of_key (rotationKey x) (rotationLe_iff x) _

/-- No start index occurs twice, so the sorted rotations come strictly one before the other (R203). -/
theorem sortedRotations_before (x : List Byte) : (sortedRotations x).Pairwise (RotationBefore x) := by
  have hnodup : (sortedRotations x).Nodup := (sortedRotations_perm x).nodup_iff.mpr List.nodup_range
  exact (sortedRotations_keys x).imp₂ (fun i j hle hne =>
    rotationBefore_of_key_lt (lt_of_le_of_ne hle ((rotationKey_injective x).ne hne))) hnodup

/-- The rotations themselves stand in order (R203). -/
theorem sortedRotations_rows (x : List Byte) :
    ((sortedRotations x).map (blockRotation x)).Pairwise RowLe := by
  refine List.pairwise_map.mpr ((sortedRotations_before x).imp ?_)
  rintro i j (hlt | ⟨heq, _⟩)
  · exact hlt.le
  · exact (congrArg (List.map BitVec.toNat) heq).le

/-- The original stands at the primary index (R204). -/
theorem sortedRotations_primaryIndex {x : List Byte} (h : 0 < x.length) :
    (sortedRotations x)[bwtPrimaryIndex x]? = some 0 := by
  have hmem : 0 ∈ sortedRotations x := mem_sortedRotations.mpr h
  exact List.getElem?_idxOf hmem

/-- The primary index is a row number, and so fits BWT_IDX (R204). -/
theorem bwtPrimaryIndex_lt {x : List Byte} (h : 0 < x.length) : bwtPrimaryIndex x < x.length := by
  simpa [bwtPrimaryIndex] using List.idxOf_lt_length_of_mem (mem_sortedRotations.mpr h)

/-- The primary index of the empty block is 0 (R205). -/
theorem bwtPrimaryIndex_of_empty {x : List Byte} (h : x.length = 0) : bwtPrimaryIndex x = 0 := by
  obtain rfl := List.length_eq_zero_iff.mp h
  rfl

/-- Byte k of the last column is the byte before the start of rotation p[k], cyclically (R204). -/
theorem bwtLastColumn_getElem? {x : List Byte} {k : Nat} (h : k < x.length) :
    ∃ i, (sortedRotations x)[k]? = some i ∧ (bwtLastColumn x)[k]? = x[(i + x.length - 1) % x.length]? := by
  have hk : k < (sortedRotations x).length := by simpa using h
  refine ⟨(sortedRotations x)[k], List.getElem?_eq_getElem hk, ?_⟩
  have hlt : ((sortedRotations x)[k] + x.length - 1) % x.length < x.length := Nat.mod_lt _ (by omega)
  simp only [bwtLastColumn, List.getElem?_map, List.getElem?_eq_getElem hk, Option.map_some, List.getD_eq_getElem _ _ hlt,
    List.getElem?_eq_getElem hlt]

end Sys2Proof.Machine
end

section
/-! PROOFS. The matrix of R209 is determined by its rounds, and three sequences are that matrix: the model's, the rows of the
closed form (R210), and for an output of BWT_FWD the prefixes of the sorted rotations (R213). -/

namespace Sys2Proof.Machine

/-! ### The rounds of the matrix algorithm (R209) -/

/-- M is the sequence of matrices of R209: n empty rows, and in each of n rounds y prepended and the rows sorted. -/
def MatrixRounds (y : List Byte) (M : Nat → List (List Byte)) : Prop :=
  M 0 = List.replicate y.length [] ∧
    ∀ r, r < y.length → (M (r + 1)).Perm (List.zipWith List.cons y (M r)) ∧ (M (r + 1)).Pairwise RowLe

/-- The rounds leave no choice: equal rows cannot be told apart, whatever the sort does with ties. -/
theorem MatrixRounds.unique {y : List Byte} {M R : Nat → List (List Byte)} (hM : MatrixRounds y M) (hR : MatrixRounds y R)
    {r : Nat} (h : r ≤ y.length) : M r = R r := by
  induction r with
  | zero => exact hM.1.trans hR.1.symm
  | succ r ih =>
    obtain ⟨hMperm, hMsorted⟩ := hM.2 r h
    obtain ⟨hRperm, hRsorted⟩ := hR.2 r h
    rw [ih (by omega)] at hMperm
    exact rows_eq_of_perm (hMperm.trans hRperm.symm) hMsorted hRsorted

/-- Any sequence of the rounds gives the row of R209. -/
theorem MatrixRounds.row {y z : List Byte} {R : Nat → List (List Byte)} {idx : Nat} (hR : MatrixRounds y R)
    (hy : 0 < y.length) (h : MatrixRow y idx z) : (R y.length)[idx]? = some z := by
  obtain ⟨_, M, hzero, hround, hrow⟩ := h
  have hM : MatrixRounds y M := ⟨hzero, hround⟩
  rw [← hM.unique hR le_rfl]
  exact hrow hy

/-- The model's matrix goes through the rounds of R209. -/
theorem matrixRounds_bwtMatrix (y : List Byte) : MatrixRounds y (bwtMatrix y) :=
  ⟨rfl, fun _ _ => ⟨List.perm_insertionSort _ _, pairwise_insertionSort_of_key (List.map BitVec.toNat) bytesLe_iff _⟩⟩

/-- The model's inverse is the row of R209, for every y (R209, R211, R212). -/
theorem matrixRow_bwtInverse {y : List Byte} {idx : Nat} (h : 0 < y.length → idx < y.length) :
    MatrixRow y idx (bwtInverse y idx) := by
  obtain ⟨hzero, hround⟩ := matrixRounds_bwtMatrix y
  refine ⟨bwtInverse_length h, bwtMatrix y, hzero, hround, fun hy => ?_⟩
  have hidx : idx < (bwtMatrix y y.length).length := by simpa using h hy
  rw [bwtInverse, List.getD_eq_getElem _ _ hidx, List.getElem?_eq_getElem hidx]

/-! ### The closed form (R210) -/

/-- s lists the positions of y in stable order of their bytes (R210). -/
structure StableOrder (y : List Byte) (s : List Nat) : Prop where
  perm : s.Perm (List.range y.length)
  sorted : s.Pairwise fun i j =>
    (y.getD i 0#8).toNat < (y.getD j 0#8).toNat ∨ (y.getD i 0#8).toNat = (y.getD j 0#8).toNat ∧ i < j

/-- Row i of the closed form's matrix after r rounds: the r bytes along the walk from i (R210). -/
def walkRows (y : List Byte) (s : List Nat) (r : Nat) : List (List Byte) := (List.range y.length).map (closedWalk y s r)

/-- A list of bytes is its bytes by position. -/
theorem map_range_getD (y : List Byte) : (List.range y.length).map (fun i => y.getD i 0#8) = y := by
  apply List.ext_getElem
  · simp
  · intro i _ hi
    simp [List.getElem?_eq_getElem hi]

/-- The rows of a later round, listed by the positions where their first bytes stand. -/
theorem walkRows_succ {y : List Byte} {s : List Nat} (hs : StableOrder y s) (r : Nat) :
    walkRows y s (r + 1) = s.map fun p => y.getD p 0#8 :: closedWalk y s r p := by
  have hlen : s.length = y.length := by simpa using hs.perm.length_eq
  apply List.ext_getElem
  · simp [walkRows, hlen]
  · intro i _ hi
    have hi : i < s.length := by simpa using hi
    simp [walkRows, closedWalk, List.getElem?_eq_getElem hi]

/-- Prepending y to the rows of one round. -/
theorem zipWith_cons_walkRows (y : List Byte) (s : List Nat) (r : Nat) :
    List.zipWith List.cons y (walkRows y s r) =
      (List.range y.length).map fun p => y.getD p 0#8 :: closedWalk y s r p := by
  conv_lhs => enter [2]; rw [← map_range_getD y]
  rw [walkRows, List.zipWith_map, List.zipWith_self]

/-- Every round's rows stand in order: the first bytes rise along s, and where they are equal the positions rise, so that the
rows of the round before decide. -/
theorem walkRows_sorted {y : List Byte} {s : List Nat} (hs : StableOrder y s) (r : Nat) :
    (walkRows y s r).Pairwise RowLe := by
  induction r with
  | zero => exact List.pairwise_map.mpr (List.pairwise_lt_range.imp fun _ => le_rfl)
  | succ r ih =>
    rw [walkRows_succ hs, List.pairwise_map]
    have hmono : ∀ {i j}, i < j → j < y.length → RowLe (closedWalk y s r i) (closedWalk y s r j) := fun {i j} hij hj => by
      have := List.pairwise_iff_getElem.mp ih i j (by simp [walkRows]; omega) (by simp [walkRows]; omega) hij
      simpa [walkRows] using this
    refine hs.sorted.imp_of_mem fun {i j} _ hj hij => rowLe_cons_iff.mpr (hij.imp_right fun ⟨heq, hlt⟩ => ⟨heq, ?_⟩)
    exact hmono hlt (List.mem_range.mp (hs.perm.mem_iff.mp hj))

/-- The rows along the walks go through the rounds of R209 (R210). -/
theorem matrixRounds_walkRows {y : List Byte} {s : List Nat} (hs : StableOrder y s) : MatrixRounds y (walkRows y s) := by
  refine ⟨?_, fun r _ => ⟨?_, walkRows_sorted hs (r + 1)⟩⟩
  · simp [walkRows, closedWalk, List.map_const']
  · rw [walkRows_succ hs, zipWith_cons_walkRows]
    exact hs.perm.map _

/-- The row of R209 is the closed form's walk from idx (R210). -/
theorem matrixRow_eq_closedWalk {y z : List Byte} {s : List Nat} {idx : Nat} (hs : StableOrder y s) (hidx : idx < y.length)
    (h : MatrixRow y idx z) : z = closedWalk y s y.length idx := by
  have hrow := (matrixRounds_walkRows hs).row (by omega) h
  simpa [walkRows, hidx, eq_comm] using hrow

/-- Where the walk along s from idx stands after k steps: the j(k) of R210. -/
def walkPosition (s : List Nat) (idx k : Nat) : Nat := (fun j => s.getD j 0)^[k] idx

theorem walkPosition_succ (s : List Nat) (idx k : Nat) :
    walkPosition s idx (k + 1) = s.getD (walkPosition s idx k) 0 := Function.iterate_succ_apply' _ _ _

/-- The walk never leaves the block. -/
theorem walkPosition_lt {y : List Byte} {s : List Nat} {idx : Nat} (hs : StableOrder y s) (hidx : idx < y.length) (k : Nat) :
    walkPosition s idx k < y.length := by
  induction k with
  | zero => exact hidx
  | succ k ih =>
    have hk : walkPosition s idx k < s.length := by simpa [hs.perm.length_eq] using ih
    rw [walkPosition_succ, List.getD_eq_getElem _ _ hk]
    exact List.mem_range.mp (hs.perm.mem_iff.mp (List.getElem_mem hk))

/-- Each step of the walk is the entry of s at the position before it (R210). -/
theorem getElem?_walkPosition {y : List Byte} {s : List Nat} {idx : Nat} (hs : StableOrder y s) (hidx : idx < y.length)
    (k : Nat) : s[walkPosition s idx k]? = some (walkPosition s idx (k + 1)) := by
  have hk : walkPosition s idx k < s.length := by simpa [hs.perm.length_eq] using walkPosition_lt hs hidx k
  rw [walkPosition_succ, List.getD_eq_getElem _ _ hk, List.getElem?_eq_getElem hk]

/-- Byte k of the walk is the byte at its position after k + 1 steps (R210). -/
theorem closedWalk_getElem? (y : List Byte) (s : List Nat) {r k : Nat} (j : Nat) (h : k < r) :
    (closedWalk y s r j)[k]? = some (y.getD (walkPosition s j (k + 1)) 0#8) := by
  induction r generalizing j k with
  | zero => omega
  | succ r ih =>
    cases k with
    | zero => rfl
    | succ k => exact ih (s.getD j 0) (by omega)

/-- Settles O31: the rows along the walks are a sequence of the rounds of R209, which is unique. -/
theorem matrixInverseEqualsClosedForm : Obligations.MatrixInverseEqualsClosedForm := by
  unfold Obligations.MatrixInverseEqualsClosedForm
  refine ⟨fun y z s idx hidx hperm hsorted hrow => ?_, fun z hrow => ?_⟩
  case refine_1 =>
    have hs : StableOrder y s := ⟨hperm, hsorted⟩
    obtain rfl := matrixRow_eq_closedWalk hs hidx hrow
    refine ⟨walkPosition s idx, rfl, fun k hk => ⟨getElem?_walkPosition hs hidx k, ?_⟩⟩
    have hnext := walkPosition_lt hs hidx (k + 1)
    rw [closedWalk_getElem? y s idx hk, List.getD_eq_getElem _ _ hnext, List.getElem?_eq_getElem hnext]
  case refine_2 =>
    have hs : StableOrder [0x61#8, 0x62#8, 0x61#8] [0, 2, 1] := ⟨by decide, by decide⟩
    exact matrixRow_eq_closedWalk hs (by decide) hrow

/-! ### The matrix of an output of BWT_FWD (R213) -/

/-- Rotation i is the list turned left by i places (R202). -/
theorem blockRotation_eq_rotate (x : List Byte) (i : Nat) : blockRotation x i = x.rotate i := by
  apply List.ext_getElem
  · simp [blockRotation]
  · intro k _ hk
    have hlt : (i + k) % x.length < x.length := Nat.mod_lt _ (by simp at hk; omega)
    simp [blockRotation, List.getElem_rotate, List.getElem?_eq_getElem hlt, Nat.add_comm k i]

/-- The first bytes of rotation i (R202). -/
theorem take_blockRotation (x : List Byte) (i : Nat) {r : Nat} (h : r ≤ x.length) :
    (blockRotation x i).take r = (List.range r).map fun k => x.getD ((i + k) % x.length) 0#8 := by
  rw [blockRotation, ← List.map_take, List.take_range, min_eq_left h]

/-- The byte before rotation i, and then the first r bytes of rotation i, are the first r + 1 bytes of the rotation that starts
one place earlier. -/
theorem cons_take_blockRotation (x : List Byte) (i : Nat) {r : Nat} (h : r < x.length) :
    x.getD ((i + x.length - 1) % x.length) 0#8 :: (blockRotation x i).take r =
      (blockRotation x ((i + x.length - 1) % x.length)).take (r + 1) := by
  rw [take_blockRotation x _ h, take_blockRotation x i h.le, List.range_succ_eq_map, List.map_cons, List.map_map,
    Nat.add_zero, Nat.mod_mod]
  have hshift : ∀ k, ((i + x.length - 1) % x.length + (k + 1)) % x.length = (i + k) % x.length := fun k => by
    rw [Nat.mod_add_mod, show i + x.length - 1 + (k + 1) = i + k + x.length by omega, Nat.add_mod_right]
  simp only [Function.comp_def, Nat.succ_eq_add_one, hshift]

/-- Starting one place earlier, cyclically, runs through all start indices. -/
theorem map_previous_perm (n : Nat) : ((List.range n).map fun i => (i + n - 1) % n).Perm (List.range n) := by
  have hrotate : (List.range n).map (fun i => (i + n - 1) % n) = (List.range n).rotate (n - 1) := by
    apply List.ext_getElem
    · simp
    · intro k _ hk
      have hn : k < n := by simpa using hk
      simp [List.getElem_rotate, show k + n - 1 = k + (n - 1) by omega]
  rw [hrotate]
  exact List.rotate_perm _ _

/-- The prefixes of the sorted rotations go through the rounds of R209: prepending the last column gives the prefixes one byte
longer of the rotations that start one place earlier, and these are all the rotations. -/
theorem matrixRounds_rotations (x : List Byte) :
    MatrixRounds (bwtLastColumn x) fun r => (sortedRotations x).map fun i => (blockRotation x i).take r := by
  refine ⟨by simp [List.map_const'], fun r hr => ⟨?_, ?_⟩⟩
  case refine_1 =>
    have hr : r < x.length := by simpa using hr
    have hprepend : List.zipWith List.cons (bwtLastColumn x) ((sortedRotations x).map fun i => (blockRotation x i).take r) =
        ((sortedRotations x).map fun i => (i + x.length - 1) % x.length).map
          fun i => (blockRotation x i).take (r + 1) := by
      simp only [bwtLastColumn, List.zipWith_map, List.zipWith_self, List.map_map, Function.comp_def,
        cons_take_blockRotation x _ hr]
    rw [hprepend]
    have hall : ((sortedRotations x).map fun i => (i + x.length - 1) % x.length).Perm (sortedRotations x) :=
      ((sortedRotations_perm x).map _).trans ((map_previous_perm x.length).trans (sortedRotations_perm x).symm)
    exact (hall.map _).symm
  case refine_2 =>
    have hrows := List.pairwise_map.mp (sortedRotations_rows x)
    exact List.pairwise_map.mpr (hrows.imp fun h => h.take (r + 1))

/-- The inverse of the last column, from the primary index, is the input (R213). -/
theorem bwtInverse_bwtLastColumn (x : List Byte) : bwtInverse (bwtLastColumn x) (bwtPrimaryIndex x) = x := by
  rcases Nat.eq_zero_or_pos x.length with hempty | hpos
  · obtain rfl := List.length_eq_zero_iff.mp hempty
    rfl
  · have hmatrix := (matrixRounds_bwtMatrix (bwtLastColumn x)).unique (matrixRounds_rotations x) le_rfl
    rw [bwtInverse, hmatrix, bwtLastColumn_length, List.getD_eq_getElem?_getD, List.getElem?_map,
      sortedRotations_primaryIndex hpos]
    simp [blockRotation_eq_rotate]

/-- The last column is a permutation of the input: up to order it is the input turned by one place (R204). -/
theorem bwtLastColumn_perm (x : List Byte) : (bwtLastColumn x).Perm x := by
  have hcolumn : (bwtLastColumn x).Perm ((List.range x.length).map fun i => x.getD ((i + x.length - 1) % x.length) 0#8) :=
    (sortedRotations_perm x).map _
  have hall := (map_previous_perm x.length).map fun i => x.getD i 0#8
  rw [List.map_map, map_range_getD] at hall
  exact hcolumn.trans hall

end Sys2Proof.Machine
end

section
/-! PROOFS. The commands BWT_FWD and BWT_INV: their success, their errors in order, and the round trip (R200-R213). -/

namespace Sys2Proof.Machine

/-! ### Success (R201-R212) -/

/-- BWT_FWD over valid operands and a readable input (R201-R206). -/
theorem exec_bwtFwd {s : State} {x : List Byte} (hmax : s.len.toNat ≤ s.params.bwtMaxLen) (hops : BlockOperands s)
    (hlen : x.length = s.len.toNat) (hx : s.mem.Holds s.src.toNat x) :
    exec .bwtFwd s = .next { okState s s.len 0#32 with
      mem := s.mem.writeBytes s.dst.toNat (bwtLastColumn x), bwtIdx := BitVec.ofNat 32 (bwtPrimaryIndex x) } := by
  have hpass := (operandChecks_bwtFwd_none_iff s).mpr ⟨hmax, hops⟩
  rw [exec_eq, verdictOf, bwtFwdVerdict, checked_of_none hpass, Verdict.withInput_of_holds hx hlen, completeWith_ok,
    finish_applyOk, hlen, ofNat_toNat_word]
  rfl

/-- BWT_INV over valid operands and a readable input, whatever it holds (R208-R212). -/
theorem exec_bwtInv {s : State} {y : List Byte} (hmax : s.len.toNat ≤ s.params.bwtMaxLen) (hops : BlockOperands s)
    (hidx : 0 < s.len.toNat → s.bwtIdx.toNat < s.len.toNat) (hlen : y.length = s.len.toNat)
    (hy : s.mem.Holds s.src.toNat y) :
    exec .bwtInv s = .next { okState s s.len 0#32 with
      mem := s.mem.writeBytes s.dst.toNat (bwtInverse y s.bwtIdx.toNat) } := by
  have hpass := (operandChecks_bwtInv_none_iff s).mpr ⟨hmax, hops, hidx⟩
  rw [exec_eq, verdictOf, bwtInvVerdict, checked_of_none hpass, Verdict.withInput_of_holds hy hlen, completeWith_ok,
    finish_applyOk, hlen, ofNat_toNat_word]
  rfl

/-- The primary index stored in BWT_IDX reads back (R43, R204). -/
theorem toNat_primaryIndex {x : List Byte} {n : Word} (hlen : x.length = n.toNat) :
    (BitVec.ofNat 32 (bwtPrimaryIndex x)).toNat = bwtPrimaryIndex x := by
  rcases Nat.eq_zero_or_pos x.length with hempty | hpos
  · rw [bwtPrimaryIndex_of_empty hempty]
    rfl
  · exact Nat.mod_eq_of_lt ((bwtPrimaryIndex_lt hpos).trans (hlen ▸ n.isLt))

/-- Settles O29: the list p is the model's sorted list of start indices. -/
theorem bwtFwdWritesTheSortedLastColumn : Obligations.BwtFwdWritesTheSortedLastColumn := by
  unfold Obligations.BwtFwdWritesTheSortedLastColumn
  intro s x hmax hops hlen hx
  refine ⟨_, sortedRotations x, exec_bwtFwd hmax hops hlen hx, sortedRotations_perm x, sortedRotations_before x,
    fun k hk => ?column, fun hpos => ?primary, fun hempty => ?empty, ?frame, rfl⟩
  case column =>
    obtain ⟨i, hi, hbyte⟩ := bwtLastColumn_getElem? hk
    exact ⟨i, hi, (Memory.holds_writeBytes _ _ _ k (by simpa using hk)).trans hbyte⟩
  case primary =>
    change (sortedRotations x)[(BitVec.ofNat 32 (bwtPrimaryIndex x)).toNat]? = some 0
    rw [toNat_primaryIndex hlen]
    exact sortedRotations_primaryIndex hpos
  case empty => exact congrArg (BitVec.ofNat 32) (bwtPrimaryIndex_of_empty hempty)
  case frame => exact Memory.sameOutside_writeBytes _ _ _ _ (by simp [hlen])

/-- Settles O30: the row is the model's inverse, for every y. -/
theorem bwtInvWritesTheMatrixRow : Obligations.BwtInvWritesTheMatrixRow := by
  unfold Obligations.BwtInvWritesTheMatrixRow
  intro s y hmax hops hidx hlen hy
  have hrow : 0 < y.length → s.bwtIdx.toNat < y.length := by rwa [hlen]
  refine ⟨_, bwtInverse y s.bwtIdx.toNat, exec_bwtInv hmax hops hidx hlen hy, matrixRow_bwtInverse hrow,
    Memory.holds_writeBytes _ _ _, ?_, rfl⟩
  exact Memory.sameOutside_writeBytes _ _ _ _ (by rw [bwtInverse_length hrow, hlen])

/-! ### The round trip (R213) -/

/-- Settles O32: BWT_INV reads the last column that BWT_FWD left at DST, and its row at the primary index is the input. -/
theorem bwtRoundTrip : Obligations.BwtRoundTrip := by
  unfold Obligations.BwtRoundTrip
  intro s t x d hmax hops hlen hx ht hopsInv
  rw [exec_bwtFwd hmax hops hlen hx] at ht
  obtain rfl := Host.Outcome.next.inj ht
  have hheld : (s.mem.writeBytes s.dst.toNat (bwtLastColumn x)).Holds s.dst.toNat (bwtLastColumn x) :=
    Memory.holds_writeBytes _ _ _
  refine ⟨⟨bwtLastColumn x, bwtLastColumn_perm x, hheld⟩, ?_⟩
  have hidx : 0 < s.len.toNat → (BitVec.ofNat 32 (bwtPrimaryIndex x)).toNat < s.len.toNat := fun hpos => by
    rw [toNat_primaryIndex hlen, ← hlen]
    exact bwtPrimaryIndex_lt (hlen ▸ hpos)
  refine ⟨_, exec_bwtInv hmax hopsInv hidx ((bwtLastColumn_length x).trans hlen) hheld, rfl, ?_⟩
  dsimp only
  rw [toNat_primaryIndex hlen, bwtInverse_bwtLastColumn]
  exact Memory.holds_writeBytes _ _ _

/-! ### The errors in their order (R201, R208) -/

/-- A failing operand check of a BWT command is its error record (R176, R372). -/
theorem exec_bwt_of_failing {i : Instr} {s : State} {c : ErrCode} (hi : i = .bwtFwd ∨ i = .bwtInv)
    (h : firstFailing (operandChecks i s) = some c) : exec i s = .next (errState s c) := by
  have hverdict : verdictOf i s = .err c := by
    rcases hi with rfl | rfl
    · exact checked_of_some h
    · exact checked_of_some h
  rw [exec_eq, hverdict, completeWith_err]

/-- The checks that BWT_FWD and BWT_INV share come first, in the order of R201 and R208. -/
theorem operandChecks_bwt_eq {i : Instr} (s : State) (hi : i = .bwtFwd ∨ i = .bwtInv) :
    ∃ rest, operandChecks i s =
      (blockLenOk s, .lenRange) :: (inputOk .bwtFwd s, .addrRange) :: (footprintOk .bwtFwd s, .addrRange) ::
        (overlapPermitted .bwtFwd s, .overlap) :: rest := by
  rcases hi with rfl | rfl
  · exact ⟨[], rfl⟩
  · exact ⟨[(blockIdxOk s, .idxRange)], rfl⟩

/-- LEN above BWT_MAX_LEN is LEN_RANGE (R201, R208). -/
theorem exec_bwt_lenRange {i : Instr} {s : State} (hi : i = .bwtFwd ∨ i = .bwtInv)
    (h : s.params.bwtMaxLen < s.len.toNat) : exec i s = .next (errState s .lenRange) := by
  obtain ⟨_, hchecks⟩ := operandChecks_bwt_eq s hi
  apply exec_bwt_of_failing hi
  rw [hchecks, firstFailing_cons, if_neg (by rw [blockLenOk_iff]; omega)]

/-- An input or output region outside MEM is ADDR_RANGE, once LEN is accepted (R201, R208). -/
theorem exec_bwt_addrRange {i : Instr} {s : State} (hi : i = .bwtFwd ∨ i = .bwtInv)
    (hmax : s.len.toNat ≤ s.params.bwtMaxLen) (h : ¬ (InMem s s.src.toNat s.len.toNat ∧ InMem s s.dst.toNat s.len.toNat)) :
    exec i s = .next (errState s .addrRange) := by
  obtain ⟨_, hchecks⟩ := operandChecks_bwt_eq s hi
  apply exec_bwt_of_failing hi
  rw [hchecks, firstFailing_cons, if_pos ((blockLenOk_iff s).mpr hmax)]
  by_cases hin : InMem s s.src.toNat s.len.toNat
  · have hout : ¬ InMem s s.dst.toNat s.len.toNat := fun hout => h ⟨hin, hout⟩
    rw [firstFailing_cons, if_pos ((inputOk_iff .bwtFwd s).mpr hin), firstFailing_cons,
      if_neg (mt (footprintOk_iff .bwtFwd s).mp hout)]
  · rw [firstFailing_cons, if_neg (mt (inputOk_iff .bwtFwd s).mp hin)]

/-- Overlapping regions that are not one are OVERLAP, once both lie inside MEM (R201, R208). -/
theorem exec_bwt_overlap {i : Instr} {s : State} (hi : i = .bwtFwd ∨ i = .bwtInv)
    (hmax : s.len.toNat ≤ s.params.bwtMaxLen) (hin : InMem s s.src.toNat s.len.toNat)
    (hout : InMem s s.dst.toNat s.len.toNat) (hapart : ¬ Apart s.src.toNat s.len.toNat s.dst.toNat s.len.toNat)
    (hne : s.src ≠ s.dst) : exec i s = .next (errState s .overlap) := by
  obtain ⟨_, hchecks⟩ := operandChecks_bwt_eq s hi
  apply exec_bwt_of_failing hi
  have hoverlap : ¬ overlapPermitted .bwtFwd s = true :=
    mt (overlapPermitted_block_iff s (by simp)).mp (not_or.mpr ⟨hapart, hne⟩)
  rw [hchecks, firstFailing_cons, if_pos ((blockLenOk_iff s).mpr hmax), firstFailing_cons,
    if_pos ((inputOk_iff .bwtFwd s).mpr hin), firstFailing_cons, if_pos ((footprintOk_iff .bwtFwd s).mpr hout),
    firstFailing_cons, if_neg hoverlap]

/-- BWT_IDX not below LEN is BWT_INV's IDX_RANGE, once its other checks hold (R208). -/
theorem exec_bwtInv_idxRange {s : State} (hmax : s.len.toNat ≤ s.params.bwtMaxLen) (hops : BlockOperands s)
    (hpos : 0 < s.len.toNat) (hidx : s.len.toNat ≤ s.bwtIdx.toNat) : exec .bwtInv s = .next (errState s .idxRange) := by
  apply exec_bwt_of_failing (.inr rfl)
  obtain ⟨hin, hout, hpermitted⟩ := hops
  have hidxFails : ¬ blockIdxOk s = true := by rw [blockIdxOk_iff]; omega
  rw [operandChecks, firstFailing_cons, if_pos ((blockLenOk_iff s).mpr hmax), firstFailing_cons,
    if_pos ((inputOk_iff .bwtInv s).mpr hin), firstFailing_cons, if_pos ((footprintOk_iff .bwtInv s).mpr hout),
    firstFailing_cons, if_pos ((overlapPermitted_block_iff s (by simp)).mpr hpermitted), firstFailing_cons, if_neg hidxFails]

/-- Settles O33: the four failing checks in their order, the first three for both commands. -/
theorem bwtErrorsInOrder : Obligations.BwtErrorsInOrder := by
  unfold Obligations.BwtErrorsInOrder
  refine ⟨decode_encode .bwtFwd, decode_encode .bwtInv, fun s => ⟨fun h => ?_, fun hmax h => ?_, ?_, ?_⟩⟩
  case refine_1 => exact ⟨exec_bwt_lenRange (.inl rfl) h, exec_bwt_lenRange (.inr rfl) h⟩
  case refine_2 => exact ⟨exec_bwt_addrRange (.inl rfl) hmax h, exec_bwt_addrRange (.inr rfl) hmax h⟩
  case refine_3 =>
    intro hmax hin hout hapart hne
    exact ⟨exec_bwt_overlap (.inl rfl) hmax hin hout hapart hne, exec_bwt_overlap (.inr rfl) hmax hin hout hapart hne⟩
  case refine_4 => exact fun hmax hops hpos hidx => exec_bwtInv_idxRange hmax hops hpos hidx

end Sys2Proof.Machine
end

section
/-! PROOFS. The recency list of the move-to-front coder stays a list of all 256 bytes, and the decoder undoes the encoder
(R230-R233). -/

namespace Sys2Proof.Machine

/-! ### The recency list (R230) -/

/-- A list in which every byte value stands once: what the recency list P of R230 always is. -/
def IsRecencyList (P : List Byte) : Prop := P.Perm mtfIdentity

theorem isRecencyList_identity : IsRecencyList mtfIdentity := .refl _

theorem IsRecencyList.length_eq {P : List Byte} (h : IsRecencyList P) : P.length = 256 := by
  simpa [mtfIdentity] using List.Perm.length_eq h

theorem IsRecencyList.mem {P : List Byte} (h : IsRecencyList P) (c : Byte) : c ∈ P :=
  (List.Perm.mem_iff h).mpr (List.mem_map.mpr ⟨c.toNat, List.mem_range.mpr c.isLt, by simp⟩)

/-- A rank is a position of the recency list, so the byte it reads is there (R232). -/
theorem IsRecencyList.getElem?_rank {P : List Byte} (h : IsRecencyList P) (k : Byte) :
    P[k.toNat]? = some (P.getD k.toNat 0#8) := by
  have hk : k.toNat < P.length := h.length_eq ▸ k.isLt
  rw [List.getD_eq_getElem?_getD, List.getElem?_eq_getElem hk, Option.getD_some]

/-- Moving the byte of a rank to the front only reorders the list (R230). -/
theorem IsRecencyList.moveToFront {P : List Byte} (h : IsRecencyList P) (k : Byte) : IsRecencyList (moveToFront P k.toNat) := by
  have hk : k.toNat < P.length := h.length_eq ▸ k.isLt
  rw [Machine.moveToFront, List.getD_eq_getElem _ _ hk]
  exact (List.getElem_cons_eraseIdx_perm hk).trans h

/-- The position of a byte fits in the byte that MTF_ENC writes for it (R231). -/
theorem IsRecencyList.toNat_idxOf {P : List Byte} (h : IsRecencyList P) (c : Byte) :
    (BitVec.ofNat 8 (P.idxOf c)).toNat = P.idxOf c :=
  Nat.mod_eq_of_lt ((List.idxOf_lt_length_of_mem (h.mem c)).trans_eq h.length_eq)

/-- The byte that stands at the position of c is c (R231). -/
theorem IsRecencyList.getD_idxOf {P : List Byte} (h : IsRecencyList P) (c : Byte) : P.getD (P.idxOf c) 0#8 = c := by
  rw [List.getD_eq_getElem?_getD, List.getElem?_idxOf (h.mem c), Option.getD_some]

/-! ### The decoder undoes the encoder (R233) -/

/-- Encoder and decoder start from one list and make the same moves, so each rank reads its byte back (R233). -/
theorem mtfDecodeFrom_mtfEncodeFrom {P : List Byte} (h : IsRecencyList P) (x : List Byte) :
    mtfDecodeFrom P (mtfEncodeFrom P x) = x := by
  induction x generalizing P with
  | nil => rfl
  | cons c x ih =>
    have hmoved := h.moveToFront (BitVec.ofNat 8 (P.idxOf c))
    rw [h.toNat_idxOf] at hmoved
    rw [mtfEncodeFrom, mtfDecodeFrom, h.toNat_idxOf, h.getD_idxOf, ih hmoved]

@[simp] theorem mtfDecode_mtfEncode (x : List Byte) : mtfDecode (mtfEncode x) = x :=
  mtfDecodeFrom_mtfEncodeFrom isRecencyList_identity x

/-! ### Ranks and bytes are related by the recency lists (R231, R232) -/

/-- The recency list before position t, when the ranks are moved to the front one after the other from P (R230). -/
def recencyListAt (P : List Byte) : List Byte → Nat → List Byte
  | _, 0 | [], _ + 1 => P
  | r :: ranks, t + 1 => recencyListAt (moveToFront P r.toNat) ranks t

@[simp] theorem recencyListAt_zero (P ranks : List Byte) : recencyListAt P ranks 0 = P := by cases ranks <;> rfl

/-- From a recency list, at every position the byte that MTF_DEC writes stands at its rank and moves to the front (R232). -/
theorem mtfDecodeFrom_step {P ranks : List Byte} {t : Nat} {r c : Byte} (h : IsRecencyList P) (hr : ranks[t]? = some r)
    (hc : (mtfDecodeFrom P ranks)[t]? = some c) :
    (recencyListAt P ranks t)[r.toNat]? = some c ∧
      recencyListAt P ranks (t + 1) = c :: (recencyListAt P ranks t).eraseIdx r.toNat := by
  induction ranks generalizing P t with
  | nil => cases hr
  | cons k ranks ih =>
    cases t with
    | zero =>
      obtain rfl := Option.some.inj hr
      obtain rfl := Option.some.inj hc
      rw [recencyListAt_zero, recencyListAt, recencyListAt_zero]
      exact ⟨h.getElem?_rank k, rfl⟩
    | succ t => exact ih (h.moveToFront k) hr hc

/-- MTF_DEC writes the bytes whose ranks its input is, whatever the input (R232). -/
theorem mtfRelated_mtfDecode (ranks : List Byte) : MtfRelated ranks (mtfDecode ranks) :=
  ⟨(mtfDecode_length ranks).symm, recencyListAt mtfIdentity ranks, recencyListAt_zero _ _,
    fun _ _ _ => mtfDecodeFrom_step isRecencyList_identity⟩

/-- MTF_ENC writes the ranks of its input: the decoder reads the input back from them (R231, R233). -/
theorem mtfRelated_mtfEncode (x : List Byte) : MtfRelated (mtfEncode x) x := by
  simpa only [mtfDecode_mtfEncode] using mtfRelated_mtfDecode (mtfEncode x)

end Sys2Proof.Machine
end

section
/-! PROOFS. The commands MTF_ENC and MTF_DEC: their success, the round trip, and their errors in order (R230-R233). -/

namespace Sys2Proof.Machine

/-! ### Success (R231, R232) -/

/-- MTF_ENC over valid operands and a readable input (R231). -/
theorem exec_mtfEnc {s : State} {x : List Byte} (hops : BlockOperands s) (hlen : x.length = s.len.toNat)
    (hx : s.mem.Holds s.src.toNat x) :
    exec .mtfEnc s = .next { okState s s.len 0#32 with mem := s.mem.writeBytes s.dst.toNat (mtfEncode x) } := by
  have hpass := (operandChecks_mtfEnc_none_iff s).mpr hops
  rw [exec_eq, verdictOf, mtfEncVerdict, checked_of_none hpass, Verdict.withInput_of_holds hx hlen, completeWith_ok,
    finish_applyOk, hlen, ofNat_toNat_word]
  rfl

/-- MTF_DEC over valid operands and a readable input, whatever it holds (R232). -/
theorem exec_mtfDec {s : State} {x : List Byte} (hops : BlockOperands s) (hlen : x.length = s.len.toNat)
    (hx : s.mem.Holds s.src.toNat x) :
    exec .mtfDec s = .next { okState s s.len 0#32 with mem := s.mem.writeBytes s.dst.toNat (mtfDecode x) } := by
  have hpass := (operandChecks_mtfDec_none_iff s).mpr hops
  rw [exec_eq, verdictOf, mtfDecVerdict, checked_of_none hpass, Verdict.withInput_of_holds hx hlen, completeWith_ok,
    finish_applyOk, hlen, ofNat_toNat_word]
  rfl

/-! ### The round trip (R233) -/

/-- Settles O35: MTF_DEC reads the ranks that MTF_ENC left at DST, and their bytes are the input. -/
theorem mtfInvolution : Obligations.MtfInvolution := by
  unfold Obligations.MtfInvolution
  intro s t b d hops hlen hb ht hopsDec
  rw [exec_mtfEnc hops hlen hb] at ht
  obtain rfl := Host.Outcome.next.inj ht
  have hranks : (s.mem.writeBytes s.dst.toNat (mtfEncode b)).Holds s.dst.toNat (mtfEncode b) :=
    Memory.holds_writeBytes _ _ _
  refine ⟨_, exec_mtfDec hopsDec ((mtfEncode_length b).trans hlen) hranks, rfl, ?_⟩
  rw [mtfDecode_mtfEncode]
  exact Memory.holds_writeBytes _ _ _

/-! ### The errors in their order (R231, R232) -/

/-- A failing operand check of any command is its error record (R176, R372). -/
theorem exec_of_failing {i : Instr} {s : State} {c : ErrCode} (h : firstFailing (operandChecks i s) = some c) :
    exec i s = .next (errState s c) := by
  have hverdict : verdictOf i s = .err c := by
    cases i with
    | nop => cases h
    | _ => exact checked_of_some h
  rw [exec_eq, hverdict, completeWith_err]

/-- MTF_DEC makes the checks of MTF_ENC (R231, R232). -/
theorem operandChecks_mtf_eq {i : Instr} (s : State) (hi : i = .mtfEnc ∨ i = .mtfDec) :
    operandChecks i s =
      [(inputOk .mtfEnc s, .addrRange), (footprintOk .mtfEnc s, .addrRange), (overlapPermitted .mtfEnc s, .overlap)] := by
  rcases hi with rfl | rfl
  · rfl
  · rfl

/-- An input or output region outside MEM is ADDR_RANGE (R231, R232). -/
theorem exec_mtf_addrRange {i : Instr} {s : State} (hi : i = .mtfEnc ∨ i = .mtfDec)
    (h : ¬ (InMem s s.src.toNat s.len.toNat ∧ InMem s s.dst.toNat s.len.toNat)) :
    exec i s = .next (errState s .addrRange) := by
  apply exec_of_failing
  rw [operandChecks_mtf_eq s hi]
  by_cases hin : InMem s s.src.toNat s.len.toNat
  · have hout : ¬ InMem s s.dst.toNat s.len.toNat := fun hout => h ⟨hin, hout⟩
    rw [firstFailing_cons, if_pos ((inputOk_iff .mtfEnc s).mpr hin), firstFailing_cons,
      if_neg (mt (footprintOk_iff .mtfEnc s).mp hout)]
  · rw [firstFailing_cons, if_neg (mt (inputOk_iff .mtfEnc s).mp hin)]

/-- Overlapping regions that are not one are OVERLAP, once both lie inside MEM (R231, R232). -/
theorem exec_mtf_overlap {i : Instr} {s : State} (hi : i = .mtfEnc ∨ i = .mtfDec)
    (hin : InMem s s.src.toNat s.len.toNat) (hout : InMem s s.dst.toNat s.len.toNat)
    (hapart : ¬ Apart s.src.toNat s.len.toNat s.dst.toNat s.len.toNat) (hne : s.src ≠ s.dst) :
    exec i s = .next (errState s .overlap) := by
  apply exec_of_failing
  have hoverlap : ¬ overlapPermitted .mtfEnc s = true :=
    mt (overlapPermitted_block_iff s (by simp)).mp (not_or.mpr ⟨hapart, hne⟩)
  rw [operandChecks_mtf_eq s hi, firstFailing_cons, if_pos ((inputOk_iff .mtfEnc s).mpr hin), firstFailing_cons,
    if_pos ((footprintOk_iff .mtfEnc s).mpr hout), firstFailing_cons, if_neg hoverlap]

/-- Settles O34: the two failing checks in their order for both commands, and what each command writes over the recency
lists. -/
theorem mtfCommandsComplete : Obligations.MtfCommandsComplete := by
  unfold Obligations.MtfCommandsComplete
  refine ⟨decode_encode .mtfEnc, decode_encode .mtfDec, fun s => ⟨fun h => ?addrRange, ?overlap, ?success⟩⟩
  case addrRange => exact ⟨exec_mtf_addrRange (.inl rfl) h, exec_mtf_addrRange (.inr rfl) h⟩
  case overlap =>
    intro hin hout hapart hne
    exact ⟨exec_mtf_overlap (.inl rfl) hin hout hapart hne, exec_mtf_overlap (.inr rfl) hin hout hapart hne⟩
  case success =>
    intro x hops hlen hx
    refine ⟨⟨_, mtfEncode x, exec_mtfEnc hops hlen hx, mtfRelated_mtfEncode x, Memory.holds_writeBytes _ _ _, ?_, rfl⟩,
      ⟨_, mtfDecode x, exec_mtfDec hops hlen hx, mtfRelated_mtfDecode x, Memory.holds_writeBytes _ _ _, ?_, rfl⟩⟩
    · exact Memory.sameOutside_writeBytes _ _ _ _ (by rw [mtfEncode_length, hlen])
    · exact Memory.sameOutside_writeBytes _ _ _ _ (by rw [mtfDecode_length, hlen])

end Sys2Proof.Machine
end

section
/-! PROOFS. The codes of a tree (R262, R264): the paths of a node from those of its subtrees, and that no code begins
another. -/

namespace Sys2Proof.Machine

/-- The path to a leaf of the left subtree begins with 0 (R262). -/
theorem pathTo_node_of_left {l : CodeTree} {s : Byte} {p : List Bool} (r : CodeTree) (h : l.pathTo s = some p) :
    (CodeTree.node l r).pathTo s = some (false :: p) := by
  simp only [CodeTree.pathTo, h]

/-- The path to any other leaf goes through the right subtree and begins with 1 (R262). -/
theorem pathTo_node_of_right {l : CodeTree} {s : Byte} (r : CodeTree) (h : s ∉ l.leaves) :
    (CodeTree.node l r).pathTo s = (r.pathTo s).map (true :: ·) := by
  simp only [CodeTree.pathTo, (pathTo_eq_none_iff s l).mpr h]

/-- The paths of a node with distinct leaves that begin with b are those of the subtree on side b (R262). -/
theorem pathTo_node_eq_cons_iff {l r : CodeTree} (h : (CodeTree.node l r).leaves.Nodup) (s : Byte) (b : Bool)
    (p : List Bool) : (CodeTree.node l r).pathTo s = some (b :: p) ↔ (if b then r else l).pathTo s = some p := by
  have hdisjoint : l.leaves.Disjoint r.leaves := List.disjoint_of_nodup_append h
  by_cases hl : s ∈ l.leaves
  · obtain ⟨q, hq⟩ := Option.isSome_iff_exists.mp ((pathTo_isSome_iff s l).mpr hl)
    have hr : r.pathTo s = none := (pathTo_eq_none_iff s r).mpr (hdisjoint hl)
    rw [pathTo_node_of_left r hq]
    cases b with
    | false => simp [hq]
    | true => simp [hr]
  · rw [pathTo_node_of_right r hl]
    cases b with
    | false => simp [(pathTo_eq_none_iff s l).mpr hl]
    | true => simp

/-- No path of a node is empty (R262). -/
theorem pathTo_node_ne_nil (l r : CodeTree) (s : Byte) : (CodeTree.node l r).pathTo s ≠ some [] := by
  intro hnil
  have hleaf := follow_pathTo hnil
  cases hleaf

/-- A symbol has a code exactly when it is a leaf (R262). -/
theorem exists_code_iff (ts : TreeState) (s : Byte) : (∃ p, ts.code s = some p) ↔ s ∈ ts.leaves := by
  rw [← Option.ne_none_iff_exists', Ne, code_eq_none_iff, not_not]

/-- A code that begins another is that of the same symbol: below a leaf the walk stays there (R264). -/
theorem eq_of_code_prefix {ts : TreeState} {a b : Byte} {p q : List Bool} (ha : ts.code a = some p)
    (hb : ts.code b = some q) (h : p <+: q) : a = b := by
  obtain ⟨t, rfl, hpath⟩ := code_eq_some_iff.mp ha
  obtain ⟨z, rfl⟩ := h
  have hsame : CodeTree.leaf a = .leaf b := by
    rw [← follow_pathTo (t := t) hb, follow_append, follow_pathTo hpath, follow_leaf]
  exact CodeTree.leaf.inj hsame

/-- Settles O41: the codes are the paths, by the lemmas above about the paths of a node and about codes that begin others. -/
theorem codeIsThePathToTheLeaf : Obligations.CodeIsThePathToTheLeaf := by
  unfold Obligations.CodeIsThePathToTheLeaf
  refine ⟨fun s => ⟨rfl, rfl⟩, fun c s => rfl, fun l r s b p hnodup => ⟨?_, pathTo_node_ne_nil l r s⟩, fun t _ => ⟨?_, ?_⟩⟩
  case refine_1 => exact pathTo_node_eq_cons_iff hnodup s b p
  case refine_2 => exact fun s => exists_code_iff (.tree t) s
  case refine_3 => exact fun a b p q hne ha hb hprefix => hne (eq_of_code_prefix ha hb hprefix)

end Sys2Proof.Machine
end

section
/-! PROOFS. One merge of HUF_BUILD: which two entries are selected, and where every entry goes (R253-R255). -/

namespace Sys2Proof.Machine

/-! ### Selection (R253) -/

/-- The best entry so far after the search has seen entry e at index i (R253). -/
def keepLeast (skip : Option Nat) (i : Nat) (e : Occurrence) (best : Option (Nat × Nat)) : Option (Nat × Nat) :=
  if some i = skip then best
  else
    match best with
    | none => some (i, e.count)
    | some (j, c) => if e.count < c then some (i, e.count) else some (j, c)

theorem leastFrom_cons (skip : Option Nat) (e : Occurrence) (rest : List Occurrence) (i : Nat) (best : Option (Nat × Nat)) :
    leastFrom skip (e :: rest) i best = leastFrom skip rest (i + 1) (keepLeast skip i e best) := rfl

/-- A best entry is replaced only by one of a smaller count (R253). -/
theorem keepLeast_some_cases (skip : Option Nat) (i : Nat) (e : Occurrence) (j d : Nat) :
    keepLeast skip i e (some (j, d)) = some (j, d) ∨
      (keepLeast skip i e (some (j, d)) = some (i, e.count) ∧ e.count < d) := by
  unfold keepLeast
  split
  next => exact .inl rfl
  next =>
    dsimp only
    split
    next hless => exact .inr ⟨rfl, hless⟩
    next => exact .inl rfl

/-- The best entry is the one before or the one just seen (R253). -/
theorem keepLeast_eq_some {skip : Option Nat} {i j d : Nat} {e : Occurrence} {best : Option (Nat × Nat)}
    (h : keepLeast skip i e best = some (j, d)) : best = some (j, d) ∨ (j = i ∧ d = e.count) := by
  match best with
  | none =>
    unfold keepLeast at h
    split at h
    next => cases h
    next =>
      cases h
      exact .inr ⟨rfl, rfl⟩
  | some (j', d') =>
    rcases keepLeast_some_cases skip i e j' d' with hkeep | ⟨hnew, _⟩
    · exact .inl (hkeep ▸ h)
    · rw [hnew] at h
      cases h
      exact .inr ⟨rfl, rfl⟩

/-- After an entry that may be selected, the best count is at most its count (R253). -/
theorem keepLeast_le {skip : Option Nat} {i : Nat} (h : some i ≠ skip) (e : Occurrence) (best : Option (Nat × Nat)) :
    ∃ j d, keepLeast skip i e best = some (j, d) ∧ d ≤ e.count := by
  unfold keepLeast
  rw [if_neg h]
  split
  next => exact ⟨i, e.count, rfl, le_rfl⟩
  next j d =>
    split
    next => exact ⟨i, e.count, rfl, le_rfl⟩
    next hle => exact ⟨j, d, rfl, Nat.le_of_not_lt hle⟩

/-- The search answers the best entry that it began with, or a smaller count (R253). -/
theorem leastFrom_of_best {skip : Option Nat} {E : List Occurrence} {i j d k c : Nat}
    (h : leastFrom skip E i (some (j, d)) = some (k, c)) : (k = j ∧ c = d) ∨ c < d := by
  induction E generalizing i j d with
  | nil =>
    cases h
    exact .inl ⟨rfl, rfl⟩
  | cons e rest ih =>
    rw [leastFrom_cons] at h
    rcases keepLeast_some_cases skip i e j d with hkeep | ⟨hnew, hless⟩
    · exact ih (hkeep ▸ h)
    · rcases ih (hnew ▸ h) with ⟨_, rfl⟩ | hlt
      · exact .inr hless
      · exact .inr (hlt.trans hless)

/-- The count that the search answers stands at the index it answers, unless both are what it began with (R253). -/
theorem leastFrom_count {skip : Option Nat} {E : List Occurrence} {i k c : Nat} {best : Option (Nat × Nat)}
    (h : leastFrom skip E i best = some (k, c)) : best = some (k, c) ∨ ∃ e, E[k - i]? = some e ∧ e.count = c ∧ i ≤ k := by
  induction E generalizing i best with
  | nil => exact .inl h
  | cons e rest ih =>
    rcases ih h with hbest | ⟨e', he', hcount, hle⟩
    · rcases keepLeast_eq_some hbest with hbefore | ⟨rfl, rfl⟩
      · exact .inl hbefore
      · exact .inr ⟨e, by simp, rfl, le_rfl⟩
    · refine .inr ⟨e', ?_, hcount, by omega⟩
      rwa [show k - i = (k - (i + 1)) + 1 by omega, List.getElem?_cons_succ]

/-- The search answers a count that no entry it may select undercuts, nor equals at a lower index (R253). -/
theorem leastFrom_le {skip : Option Nat} {E : List Occurrence} {i k c n : Nat} {best : Option (Nat × Nat)} {e : Occurrence}
    (h : leastFrom skip E i best = some (k, c)) (hbest : ∀ j d, best = some (j, d) → j < i) (he : E[n]? = some e)
    (hskip : some (i + n) ≠ skip) : c ≤ e.count ∧ (i + n < k → c < e.count) := by
  induction E generalizing i n best with
  | nil => cases he
  | cons f rest ih =>
    rw [leastFrom_cons] at h
    have hseen : ∀ j d, keepLeast skip i f best = some (j, d) → j < i + 1 := fun j d hjd => by
      rcases keepLeast_eq_some hjd with hbefore | ⟨rfl, _⟩
      · exact Nat.lt_succ_of_lt (hbest j d hbefore)
      · exact Nat.lt_succ_self _
    cases n with
    | zero =>
      obtain rfl := Option.some.inj he
      obtain ⟨j, d, hkeep, hle⟩ := keepLeast_le hskip f best
      have hj := hseen j d hkeep
      rcases leastFrom_of_best (hkeep ▸ h) with ⟨rfl, rfl⟩ | hlt
      · exact ⟨hle, by omega⟩
      · exact ⟨by omega, by omega⟩
    | succ n =>
      have hshift : i + (n + 1) = i + 1 + n := by omega
      rw [hshift] at hskip ⊢
      exact ih h hseen he hskip

/-- Settles O38: the search keeps the first of the entries with the least count. -/
theorem selectionTakesTheLowestLeastCount : Obligations.SelectionTakesTheLowestLeastCount := by
  unfold Obligations.SelectionTakesTheLowestLeastCount
  rintro E skip ⟨j, hj, hjskip⟩
  obtain ⟨hlt, hne⟩ := leastIndex_spec hj hjskip
  refine ⟨hlt, hne, fun i e a hi he ha => ?_⟩
  obtain ⟨⟨k, c⟩, hk⟩ := Option.ne_none_iff_exists'.mp (leastFrom_ne_none (i := 0) hj (by rwa [Nat.zero_add]) none)
  have hindex : leastIndex skip E = k := by simp [leastIndex, hk]
  rw [hindex] at ha ⊢
  rcases leastFrom_count hk with hnone | ⟨a', ha', hcount, _⟩
  · cases hnone
  · rw [Nat.sub_zero, ha] at ha'
    obtain rfl := Option.some.inj ha'
    have hleast := leastFrom_le hk (fun _ _ hnone => by cases hnone) he (by rwa [Nat.zero_add])
    rwa [Nat.zero_add, ← hcount] at hleast

/-- The entries that a merge selects stand at two different indices (R253). -/
theorem leastIndex_pair {E : List Occurrence} {a b : Nat} (h : 2 ≤ E.length) (ha : a = leastIndex none E)
    (hb : b = leastIndex (some a) E) : a < E.length ∧ b < E.length ∧ b ≠ a := by
  obtain ⟨hlt, _⟩ := leastIndex_spec (skip := none) (E := E) (j := 0) (by omega) (by simp)
  have hother : ∃ j, j < E.length ∧ some j ≠ some a := by
    by_cases hzero : a = 0
    · exact ⟨1, by omega, by simp [hzero]⟩
    · exact ⟨0, by omega, by simpa using Ne.symm hzero⟩
  obtain ⟨j, hj, hja⟩ := hother
  obtain ⟨hblt, hba⟩ := leastIndex_spec hj hja
  exact ⟨ha ▸ hlt, hb ▸ hblt, fun hab => hba (by rw [← hb, hab])⟩

/-! ### The places of the entries (R254, R255) -/

/-- The merge, for the two entries at the selected indices: the entry that moves to b is the last one, which is the merged one
when a was last (R255). -/
theorem mergeOnce_eq_of_selected {E : List Occurrence} {a b : Nat} {ea eb : Occurrence} (h : 2 ≤ E.length)
    (ha : a = leastIndex none E) (hb : b = leastIndex (some a) E) (hea : E[a]? = some ea) (heb : E[b]? = some eb) :
    ∃ last, (if a = E.length - 1 then some (mergedEntry ea eb) else E[E.length - 1]?) = some last ∧
      (E.set a (mergedEntry ea eb))[E.length - 1]? = some last ∧
      mergeOnce E = ((E.set a (mergedEntry ea eb)).set b last).dropLast := by
  obtain ⟨halt, _, _⟩ := leastIndex_pair h ha hb
  have hset : (E.set a (mergedEntry ea eb))[E.length - 1]? =
      if a = E.length - 1 then some (mergedEntry ea eb) else E[E.length - 1]? := by
    simp only [List.getElem?_set, halt, if_true]
  have hlast : ∃ last, (E.set a (mergedEntry ea eb))[E.length - 1]? = some last :=
    ⟨_, List.getElem?_eq_getElem (by rw [List.length_set]; omega)⟩
  obtain ⟨last, hlast⟩ := hlast
  exact ⟨last, hset ▸ hlast, hlast, mergeOnce_eq ha.symm hb.symm hea heb (by rwa [List.length_set])⟩

/-- One merge leaves one entry fewer (R255). -/
theorem length_mergeOnce {E : List Occurrence} (h : 2 ≤ E.length) : (mergeOnce E).length = E.length - 1 := by
  obtain ⟨ea, eb, rest, hE, hmerged⟩ := mergeOnce_perm h
  rw [hmerged.length_eq, hE.length_eq, List.length_cons, List.length_cons, List.length_cons, Nat.add_sub_cancel]

/-- Settles O39: entry i of the merge, for i = b, i = a and the others. -/
theorem mergePutsEveryEntryInItsPlace : Obligations.MergePutsEveryEntryInItsPlace := by
  unfold Obligations.MergePutsEveryEntryInItsPlace
  intro E a b ea eb h ha hb hea heb
  refine ⟨length_mergeOnce h, fun i hi => ?_⟩
  obtain ⟨last, hmoved, _, hmerge⟩ := mergeOnce_eq_of_selected h ha hb hea heb
  obtain ⟨halt, hblt, _⟩ := leastIndex_pair h ha hb
  have hkept : (mergeOnce E)[i]? = ((E.set a (mergedEntry ea eb)).set b last)[i]? := by
    rw [hmerge, List.getElem?_dropLast, if_pos (by simpa using hi)]
  rw [hkept]
  by_cases hib : i = b
  · rw [if_pos hib, hib, List.getElem?_set_self (by simpa using hblt)]
    exact hmoved.symm
  · rw [if_neg hib, List.getElem?_set_ne (Ne.symm hib)]
    by_cases hia : i = a
    · rw [if_pos hia, hia, List.getElem?_set_self halt]
      rfl
    · rw [if_neg hia, List.getElem?_set_ne (Ne.symm hia)]

end Sys2Proof.Machine
end

section
/-! PROOFS. The run of HUF_BUILD: its counts, its chain of merges down to one root, and the leaves of the model it loads
(R250-R259). -/

namespace Sys2Proof.Machine

/-! ### The initial entries (R251, R252) -/

theorem mem_allBytes (b : Byte) : b ∈ allBytes := List.mem_map.mpr ⟨b.toNat, List.mem_range.mpr b.isLt, by simp⟩

/-- A byte value is counted exactly when it occurs (R251). -/
theorem occurrences_pos_iff (x : List Byte) (b : Byte) : 0 < occurrences x b ↔ b ∈ x := List.count_pos_iff

/-- The byte values that occur in the input, in ascending order (R252). -/
def occurring (x : List Byte) : List Byte := allBytes.filter (· ∈ x)

theorem mem_occurring {x : List Byte} {b : Byte} : b ∈ occurring x ↔ b ∈ x := by simp [occurring, mem_allBytes]

theorem occurring_nodup (x : List Byte) : (occurring x).Nodup := allBytes_nodup.filter _

/-- The initial entries are those of the byte values that occur (R252). -/
theorem initialEntries_eq (x : List Byte) :
    initialEntries x = (occurring x).map fun b => ⟨x.count b, [b], .leaf b⟩ := by
  simp only [initialEntries, occurrences_pos_iff]
  rfl

theorem initialEntries_nil : initialEntries [] = [] := by simp [initialEntries_eq, occurring]

/-- An input that is not empty has an initial entry (R252). -/
theorem initialEntries_length_pos {x : List Byte} (h : x ≠ []) : 0 < (initialEntries x).length := by
  obtain ⟨b, hb⟩ := List.exists_mem_of_ne_nil x h
  rw [initialEntries_eq, List.length_map]
  exact List.length_pos_of_mem (mem_occurring.mpr hb)

/-! ### The chain of merges (R256) -/

/-- Every merge takes one entry away, while there are two (R255). -/
theorem length_mergeOnce_iterate {E : List Occurrence} {j : Nat} (h : j < E.length) :
    (mergeOnce^[j] E).length = E.length - j := by
  induction j with
  | zero => rfl
  | succ j ih =>
    have hprev := ih (by omega)
    rw [Function.iterate_succ_apply', length_mergeOnce (by omega), hprev]
    omega

/-- Enough merges are as many as leave one entry (R256). -/
theorem mergeAll_eq_iterate {k : Nat} {E : List Occurrence} (h : E.length ≤ k + 1) :
    mergeAll k E = mergeOnce^[E.length - 1] E := by
  induction k generalizing E with
  | zero => rw [show E.length - 1 = 0 by omega, Function.iterate_zero_apply, mergeAll]
  | succ k ih =>
    rw [mergeAll]
    split
    next hlive =>
      have hshorter := length_mergeOnce hlive
      rw [ih (by omega), hshorter, ← Function.iterate_succ_apply]
      congr 1
      omega
    next hlive => rw [show E.length - 1 = 0 by omega, Function.iterate_zero_apply]

/-- The merges of the initial entries end in one root, whose tree is the model (R256). -/
theorem exists_root {x : List Byte} (h : x ≠ []) :
    ∃ e, mergeOnce^[(initialEntries x).length - 1] (initialEntries x) = [e] ∧ huffmanModel x = .tree e.tree := by
  have hpos := initialEntries_length_pos h
  have hone : (mergeOnce^[(initialEntries x).length - 1] (initialEntries x)).length = 1 := by
    rw [length_mergeOnce_iterate (by omega)]
    omega
  obtain ⟨e, he⟩ := List.length_eq_one_iff.mp hone
  exact ⟨e, he, by simp only [huffmanModel, mergeAll_eq_iterate (Nat.le_succ _), he]⟩

/-- No input gives the empty model (R258). -/
theorem huffmanModel_nil : huffmanModel [] = .empty := by
  simp only [huffmanModel, initialEntries_nil]
  rfl

theorem huffmanModel_ne_invalid (x : List Byte) : huffmanModel x ≠ .invalid := by
  by_cases h : x = []
  · simp [h, huffmanModel_nil]
  · obtain ⟨e, _, hmodel⟩ := exists_root h
    simp [hmodel]

/-- The model is empty exactly for no input (R258). -/
theorem huffmanModel_eq_empty_iff (x : List Byte) : huffmanModel x = .empty ↔ x = [] := by
  constructor
  · intro hempty
    by_contra h
    obtain ⟨e, _, hmodel⟩ := exists_root h
    rw [hmodel] at hempty
    cases hempty
  · rintro rfl
    exact huffmanModel_nil

/-! ### The leaves of the model (R252, R254) -/

/-- The model's leaves are the byte values that occur (R252, R254). -/
theorem huffmanModel_leaves_perm (x : List Byte) : (huffmanModel x).leaves.Perm (occurring x) := by
  by_cases h : x = []
  · simp [h, huffmanModel_nil, occurring]
  · obtain ⟨e, hroot, hmodel⟩ := exists_root h
    have hkept := forestLeaves_mergeAll_perm (initialEntries x).length (initialEntries x)
    rw [mergeAll_eq_iterate (Nat.le_succ _), hroot, forestLeaves_initialEntries] at hkept
    simp only [occurrences_pos_iff] at hkept
    simpa [hmodel, forestLeaves, occurring] using hkept

theorem mem_huffmanModel_leaves (x : List Byte) (b : Byte) : b ∈ (huffmanModel x).leaves ↔ b ∈ x := by
  rw [(huffmanModel_leaves_perm x).mem_iff, mem_occurring]

/-- A tree with one leaf is that leaf (R257). -/
theorem eq_leaf_of_leaves_eq {t : CodeTree} {c : Byte} (h : t.leaves = [c]) : t = .leaf c := by
  cases t with
  | leaf d =>
    obtain rfl := List.singleton_inj.mp h
    rfl
  | node l r =>
    have hl := leaves_length_pos l
    have hr := leaves_length_pos r
    have htwo := congrArg List.length h
    simp only [CodeTree.leaves, List.length_append, List.length_singleton] at htwo
    omega

/-- One distinct byte value gives its leaf (R257). -/
theorem huffmanModel_of_forall_eq {x : List Byte} {c : Byte} (h : x ≠ []) (hall : ∀ b ∈ x, b = c) :
    huffmanModel x = .tree (.leaf c) := by
  obtain ⟨e, _, hmodel⟩ := exists_root h
  have hc : c ∈ x := by
    obtain ⟨b, hb⟩ := List.exists_mem_of_ne_nil x h
    exact hall b hb ▸ hb
  have honly : (occurring x).Perm [c] := by
    rw [List.perm_ext_iff_of_nodup (occurring_nodup x) (List.nodup_singleton c)]
    intro b
    rw [mem_occurring, List.mem_singleton]
    exact ⟨hall b, fun hb => hb ▸ hc⟩
  have hleaves : e.tree.leaves = [c] := by
    have hperm := (huffmanModel_leaves_perm x).trans honly
    rw [hmodel, leaves_tree] at hperm
    exact List.perm_singleton.mp hperm
  rw [hmodel, eq_leaf_of_leaves_eq hleaves]

/-! ### The command (R250, R259) -/

/-- HUF_BUILD over a readable input (R250, R259). -/
theorem exec_hufBuild {s : State} {x : List Byte} (hin : InMem s s.src.toNat s.len.toNat) (hlen : x.length = s.len.toNat)
    (hx : s.mem.Holds s.src.toNat x) :
    exec .hufBuild s = .next
      { okState s (BitVec.ofNat 32 (ceil8 (predictedBits (huffmanModel x) x)))
          (BitVec.ofNat 32 (predictedBits (huffmanModel x) x)) with
        tree := huffmanModel x, freq := FreqTable.ofCounts (occurrences x), usize := s.len } := by
  have hpass := (operandChecks_hufBuild_none_iff s).mpr hin
  have husize : updateWord s.usize (some x.length) = s.len := by rw [hlen, updateWord, ofNat_toNat_word]
  rw [exec_eq, verdictOf, hufBuildVerdict, checked_of_none hpass, Verdict.withInput_of_holds hx hlen, completeWith_ok,
    finish_applyOk]
  dsimp only
  rw [husize]
  rfl

/-- HUF_BUILD's one error is its input region outside MEM (R250). -/
theorem exec_hufBuild_addrRange {s : State} (h : ¬ InMem s s.src.toNat s.len.toNat) :
    exec .hufBuild s = .next (errState s .addrRange) := by
  apply exec_of_failing
  rw [operandChecks, firstFailing_cons, if_neg (mt (inputOk_iff .hufBuild s).mp h)]

/-- The counts fit their words: no byte occurs more often than LEN says (R61). -/
theorem toNat_at_ofCounts {x : List Byte} {n : Word} (hlen : x.length = n.toNat) (b : Byte) :
    ((FreqTable.ofCounts (occurrences x)).at b).toNat = occurrences x b := by
  have hcount : occurrences x b ≤ x.length := List.count_le_length
  rw [FreqTable.at_ofCounts, BitVec.toNat_ofNat, Nat.mod_eq_of_lt (by omega)]

/-- Settles O36: the model of the input is legal, and its leaves are the values that occur. -/
theorem hufBuildBuildsTheModel : Obligations.HufBuildBuildsTheModel := by
  unfold Obligations.HufBuildBuildsTheModel
  refine ⟨decode_encode .hufBuild, fun s => ⟨exec_hufBuild_addrRange, fun x hin hlen hx => ?_⟩⟩
  exact ⟨_, exec_hufBuild hin hlen hx, toNat_at_ofCounts hlen, huffmanModel_ne_invalid x, huffmanModel_eq_empty_iff x,
    huffmanModel_wf x, mem_huffmanModel_leaves x, rfl⟩

/-- Settles O37: the chain of entry lists is the iteration of one merge. -/
theorem hufBuildMergesToTheRoot : Obligations.HufBuildMergesToTheRoot := by
  unfold Obligations.HufBuildMergesToTheRoot
  intro s t x hin hlen hx ht
  rw [exec_hufBuild hin hlen hx] at ht
  obtain rfl := Host.Outcome.next.inj ht
  refine ⟨(huffmanModel_eq_empty_iff x).mpr, fun c => huffmanModel_of_forall_eq, fun h => ?_⟩
  obtain ⟨e, hroot, hmodel⟩ := exists_root h
  refine ⟨fun j => mergeOnce^[j] (initialEntries x), (initialEntries x).length - 1, e, initialEntries_eq x,
    fun j hj => ⟨?_, Function.iterate_succ_apply' ..⟩, hroot, hmodel⟩
  rw [length_mergeOnce_iterate (by omega)]
  omega

end Sys2Proof.Machine
end

section
/-! PROOFS. Huffman's lower bound: over all assignments of code lengths to weights that meet Kraft's inequality, the least
total of a list of weights is that of the list with its two least weights merged, plus their sum. -/

namespace Sys2Proof.Machine

/-! ### Assignments of code lengths -/

/-- The total of an assignment of code lengths, given as pairs of a weight and a length: what a code with these lengths
costs over symbols with these counts (R264). -/
def totalBits (P : Multiset (Nat × Nat)) : Nat := (P.map fun p => p.1 * p.2).sum

/-- Kraft's sum of code lengths: at most 1 for the lengths of a `PrefixCode`. -/
noncomputable def kraftSum (L : Multiset Nat) : ℝ := (L.map fun l => (1 / 2 : ℝ) ^ l).sum

/-- No assignment of code lengths to the weights W that meets Kraft's inequality has a total below c. -/
def LowerBound (W : Multiset Nat) (c : Nat) : Prop :=
  ∀ P : Multiset (Nat × Nat), P.map Prod.fst = W → kraftSum (P.map Prod.snd) ≤ 1 → c ≤ totalBits P

@[simp] theorem totalBits_cons (w l : Nat) (P : Multiset (Nat × Nat)) : totalBits ((w, l) ::ₘ P) = w * l + totalBits P := by
  simp [totalBits]

@[simp] theorem kraftSum_cons (l : Nat) (L : Multiset Nat) : kraftSum (l ::ₘ L) = (1 / 2 : ℝ) ^ l + kraftSum L := by
  simp [kraftSum]

theorem lowerBound_zero (W : Multiset Nat) : LowerBound W 0 := fun _ _ _ => Nat.zero_le _

/-- An assignment to a list of weights with a first one gives that one some length. -/
theorem exists_cons_of_map_fst_eq {P : Multiset (Nat × Nat)} {a : Nat} {W : Multiset Nat} (h : P.map Prod.fst = a ::ₘ W) :
    ∃ p R, P = (a, p) ::ₘ R ∧ R.map Prod.fst = W := by
  obtain ⟨⟨_, p⟩, hmem, rfl, hrest⟩ := (Multiset.map_eq_cons ..).mpr h
  exact ⟨p, P.erase (_, p), (Multiset.cons_erase hmem).symm, hrest⟩

/-! ### The exchange: a least weight may have a greatest length -/

/-- Giving the greatest length to a least weight reorders the lengths and does not raise the total. -/
theorem exists_greatest_length {a : Nat} {R : Multiset (Nat × Nat)} (hleast : ∀ r ∈ R, a ≤ r.1) (p : Nat) :
    ∃ p' R', R'.map Prod.fst = R.map Prod.fst ∧ p' ::ₘ R'.map Prod.snd = p ::ₘ R.map Prod.snd ∧
      (∀ l ∈ R'.map Prod.snd, l ≤ p') ∧ totalBits ((a, p') ::ₘ R') ≤ totalBits ((a, p) ::ₘ R) := by
  induction R using Multiset.induction_on with
  | empty => exact ⟨p, 0, rfl, rfl, by simp, le_rfl⟩
  | cons r R ih =>
    obtain ⟨w, l⟩ := r
    obtain ⟨p', R', hfst, hsnd, hmax, htotal⟩ := ih fun r hr => hleast r (Multiset.mem_cons_of_mem hr)
    have haw : a ≤ w := hleast (w, l) (Multiset.mem_cons_self _ _)
    simp only [totalBits_cons] at htotal
    by_cases hlp : l ≤ p'
    · refine ⟨p', (w, l) ::ₘ R', by simp [hfst], ?_, by simpa using ⟨hlp, by simpa using hmax⟩, ?_⟩
      · rw [Multiset.map_cons, Multiset.map_cons, Multiset.cons_swap, hsnd, Multiset.cons_swap]
      · simp only [totalBits_cons]
        omega
    · have hpl : p' ≤ l := (Nat.lt_of_not_le hlp).le
      refine ⟨l, (w, p') ::ₘ R', by simp [hfst], ?_, ?_, ?_⟩
      · rw [Multiset.map_cons, Multiset.map_cons, hsnd, Multiset.cons_swap]
      · intro k hk
        rcases Multiset.mem_cons.mp (by simpa only [Multiset.map_cons] using hk) with rfl | hk
        · exact hpl
        · exact (hmax k hk).trans hpl
      · have hexchange : a * l + w * p' ≤ a * p' + w * l := by
          linarith [mul_add_mul_le_mul_add_mul haw hpl]
        simp only [totalBits_cons]
        omega

/-! ### The two greatest lengths may be equal -/

theorem two_pow_mul_half_pow (q : Nat) : (2 : ℝ) ^ q * (1 / 2) ^ q = 1 := by
  rw [← mul_pow]
  norm_num

/-- Kraft's sum of lengths of at most q is a multiple of 2^-q. -/
theorem exists_kraftSum_eq {L : Multiset Nat} {q : Nat} (h : ∀ l ∈ L, l ≤ q) :
    ∃ n : Nat, kraftSum L = n * (1 / 2 : ℝ) ^ q := by
  induction L using Multiset.induction_on with
  | empty => exact ⟨0, by simp [kraftSum]⟩
  | cons l L ih =>
    obtain ⟨n, hn⟩ := ih fun k hk => h k (Multiset.mem_cons_of_mem hk)
    have hlq : l ≤ q := h l (Multiset.mem_cons_self _ _)
    obtain ⟨d, rfl⟩ := Nat.exists_eq_add_of_le hlq
    refine ⟨2 ^ d + n, ?_⟩
    have hpow : (1 / 2 : ℝ) ^ l = 2 ^ d * (1 / 2 : ℝ) ^ (l + d) := by
      rw [pow_add, mul_left_comm, two_pow_mul_half_pow, mul_one]
    rw [kraftSum_cons, hn, hpow]
    push_cast
    ring

/-- Two siblings at the greatest depth q may be merged to one symbol at depth q - 1: Kraft's sum is a multiple of 2^-q but for
the longer sibling, so it has room to lift that one to q. -/
theorem kraftSum_merge_siblings {p q : Nat} {L : Multiset Nat} (hL : ∀ l ∈ L, l ≤ q)
    (h : kraftSum (p ::ₘ q ::ₘ L) ≤ 1) : 0 < q ∧ kraftSum ((q - 1) ::ₘ L) ≤ 1 := by
  obtain ⟨n, hn⟩ := exists_kraftSum_eq hL
  have hp : 0 < (1 / 2 : ℝ) ^ p := by positivity
  have hq : 0 < (1 / 2 : ℝ) ^ q := by positivity
  have hunit := two_pow_mul_half_pow q
  rw [kraftSum_cons, kraftSum_cons, hn] at h
  have hstrict : ((n + 1 : Nat) : ℝ) < ((2 ^ q : Nat) : ℝ) := by
    refine lt_of_mul_lt_mul_right (a := (1 / 2 : ℝ) ^ q) ?_ hq.le
    push_cast
    linarith
  have hroom : n + 2 ≤ 2 ^ q := Nat.cast_lt.mp hstrict
  have hpos : 0 < q := by
    rcases Nat.eq_zero_or_pos q with rfl | hpos
    · omega
    · exact hpos
  refine ⟨hpos, ?_⟩
  have hparent : (1 / 2 : ℝ) ^ (q - 1) = 2 * (1 / 2 : ℝ) ^ q := by
    rw [← Nat.sub_add_cancel hpos, pow_succ, Nat.add_sub_cancel]
    ring
  have hroom' : ((n + 2 : Nat) : ℝ) * (1 / 2) ^ q ≤ ((2 ^ q : Nat) : ℝ) * (1 / 2) ^ q :=
    mul_le_mul_of_nonneg_right (Nat.cast_le.mpr hroom) hq.le
  push_cast at hroom'
  rw [kraftSum_cons, hn, hparent]
  linarith

/-! ### The merge of the two least weights -/

/-- Huffman's step: a lower bound for the weights with the two least ones merged, plus their sum, is one for the weights. -/
theorem LowerBound.of_merged {a b c : Nat} {W : Multiset Nat} (hab : a ≤ b) (hb : ∀ w ∈ W, b ≤ w)
    (h : LowerBound ((a + b) ::ₘ W) c) : LowerBound (a ::ₘ b ::ₘ W) (c + (a + b)) := by
  intro P hP hkraft
  obtain ⟨p₀, P₀, rfl, hP₀⟩ := exists_cons_of_map_fst_eq hP
  have haleast : ∀ r ∈ P₀, a ≤ r.1 := fun r hr => by
    rcases Multiset.mem_cons.mp (hP₀ ▸ Multiset.mem_map_of_mem Prod.fst hr) with hrb | hrW
    · exact hrb ▸ hab
    · exact hab.trans (hb _ hrW)
  obtain ⟨p, P₁, hfst₁, hsnd₁, hp, htotal₁⟩ := exists_greatest_length haleast p₀
  obtain ⟨q₀, R₀, rfl, hR₀⟩ := exists_cons_of_map_fst_eq (hfst₁.trans hP₀)
  have hbleast : ∀ r ∈ R₀, b ≤ r.1 := fun r hr => hb _ (hR₀ ▸ Multiset.mem_map_of_mem Prod.fst hr)
  obtain ⟨q, R, hfst, hsnd, hq, htotal⟩ := exists_greatest_length hbleast q₀
  rw [Multiset.map_cons] at hsnd₁ hp hkraft
  have hqp : q ≤ p := hp q (hsnd ▸ Multiset.mem_cons_self _ _)
  rw [← hsnd₁, ← hsnd] at hkraft
  obtain ⟨hpos, hmerged⟩ := kraftSum_merge_siblings hq hkraft
  have hbound := h ((a + b, q - 1) ::ₘ R) (by rw [Multiset.map_cons, hfst, hR₀]) (by rwa [Multiset.map_cons])
  obtain ⟨d, rfl⟩ : ∃ d, q = d + 1 := ⟨q - 1, by omega⟩
  have hap : a * (d + 1) ≤ a * p := Nat.mul_le_mul_left a hqp
  simp only [totalBits_cons, Nat.add_sub_cancel] at hbound htotal htotal₁ ⊢
  calc c + (a + b) ≤ (a + b) * d + totalBits R + (a + b) := by omega
    _ = a * (d + 1) + (b * (d + 1) + totalBits R) := by ring
    _ ≤ a * p₀ + totalBits P₀ := by omega

end Sys2Proof.Machine
end

section
/-! PROOFS. Every `PrefixCode` on the input's bytes meets Kraft's inequality, by the Kraft-McMillan theorem of Mathlib (R264). -/

namespace Sys2Proof.Machine

/-! ### Sums over an input, byte by byte or value by value -/

/-- A sum over the input is a sum over any list that holds each of its byte values once, weighted by the counts (R251, R260). -/
theorem sum_occurrences_mul {x l : List Byte} (hnodup : l.Nodup) (hl : ∀ b ∈ x, b ∈ l) (f : Byte → Nat) :
    (l.map fun b => occurrences x b * f b).sum = (x.map f).sum := by
  have hsubset : x.toFinset ⊆ l.toFinset := fun b hb => List.mem_toFinset.mpr (hl b (List.mem_toFinset.mp hb))
  rw [Finset.sum_list_map_count x f, ← List.sum_toFinset _ hnodup]
  refine (Finset.sum_subset hsubset fun b _ hb => ?_).symm
  have hzero : occurrences x b = 0 := List.count_eq_zero.mpr (mt List.mem_toFinset.mpr hb)
  rw [hzero, Nat.zero_mul]

/-- Exchanging two bytes' values of f exchanges their shares of the sum over the input. -/
theorem sum_map_swap {a b : Byte} (hne : a ≠ b) (f : Byte → Nat) (x : List Byte) :
    (x.map fun c => f (Equiv.swap a b c)).sum + (x.count a * f a + x.count b * f b) =
      (x.map f).sum + (x.count a * f b + x.count b * f a) := by
  induction x with
  | nil => simp
  | cons c x ih =>
    simp only [List.map_cons, List.sum_cons]
    by_cases hca : c = a
    · subst hca
      rw [Equiv.swap_apply_left, List.count_cons_self, List.count_cons_of_ne hne]
      linarith
    · by_cases hcb : c = b
      · subst hcb
        rw [Equiv.swap_apply_right, List.count_cons_self, List.count_cons_of_ne (Ne.symm hne)]
        linarith
      · rw [Equiv.swap_apply_of_ne_of_ne hca hcb, List.count_cons_of_ne hca, List.count_cons_of_ne hcb]
        linarith

/-! ### Kraft's inequality (R264) -/

/-- A set of nonempty words of which none begins another is uniquely decodable. -/
theorem uniquelyDecodable_of_prefixFree {S : Set (List Bool)} (hnil : [] ∉ S)
    (hfree : ∀ u ∈ S, ∀ v ∈ S, u <+: v → u = v) : InformationTheory.UniquelyDecodable S := by
  have hempty (L : List (List Bool)) (hL : ∀ w ∈ L, w ∈ S) (h : L.flatten = []) : L = [] :=
    List.eq_nil_iff_forall_not_mem.mpr fun w hw => hnil (List.flatten_eq_nil_iff.mp h w hw ▸ hL w hw)
  intro L₁
  induction L₁ with
  | nil => exact fun L₂ _ h₂ h => (hempty L₂ h₂ h.symm).symm
  | cons u L₁ ih =>
    intro L₂ h₁ h₂ h
    cases L₂ with
    | nil => exact hempty _ h₁ h
    | cons v L₂ =>
      obtain ⟨hu, hL₁⟩ := List.forall_mem_cons.mp h₁
      obtain ⟨hv, hL₂⟩ := List.forall_mem_cons.mp h₂
      rw [List.flatten_cons, List.flatten_cons] at h
      have huv : u = v := by
        rcases List.prefix_or_prefix_of_prefix (List.prefix_append u L₁.flatten) (h ▸ List.prefix_append v L₂.flatten)
          with hle | hle
        · exact hfree u hu v hv hle
        · exact (hfree v hv u hu hle).symm
      subst huv
      rw [ih L₂ hL₁ hL₂ (List.append_cancel_left h)]

/-- A finite set of words of which none begins another meets Kraft's inequality. -/
theorem kraft_of_prefixFree {S : Finset (List Bool)} (hfree : ∀ u ∈ S, ∀ v ∈ S, u <+: v → u = v) :
    ∑ w ∈ S, (1 / 2 : ℝ) ^ w.length ≤ 1 := by
  by_cases hnil : [] ∈ S
  · have hsingle : S = {[]} := Finset.eq_singleton_iff_unique_mem.mpr
      ⟨hnil, fun v hv => (hfree [] hnil v hv List.nil_prefix).symm⟩
    simp [hsingle]
  · simpa using InformationTheory.kraft_mcmillan_inequality
      (uniquelyDecodable_of_prefixFree (S := (S : Set (List Bool))) (by simpa using hnil) (by simpa using hfree))

/-- The lengths of a `PrefixCode`, one for each byte value that occurs, meet Kraft's inequality (R264). -/
theorem PrefixCode.kraftSum_le_one {x : List Byte} {code : Byte → List Bool} (h : PrefixCode x code) :
    kraftSum ((occurring x).map fun b => (code b).length : List Nat) ≤ 1 := by
  have hmem {b : Byte} : b ∈ (occurring x).toFinset ↔ b ∈ x := by rw [List.mem_toFinset, mem_occurring]
  have hsame : ∀ a ∈ (occurring x).toFinset, ∀ b ∈ (occurring x).toFinset, code a <+: code b → a = b := by
    intro a ha b hb hab
    by_contra hne
    exact h a (hmem.mp ha) b (hmem.mp hb) hne hab
  have hinj : Set.InjOn code (occurring x).toFinset := fun a ha b hb hab => hsame a ha b hb (hab ▸ List.prefix_rfl)
  have hfree : ∀ u ∈ (occurring x).toFinset.image code, ∀ v ∈ (occurring x).toFinset.image code, u <+: v → u = v := by
    intro u hu v hv huv
    obtain ⟨a, ha, rfl⟩ := Finset.mem_image.mp hu
    obtain ⟨b, hb, rfl⟩ := Finset.mem_image.mp hv
    rw [hsame a ha b hb huv]
  calc kraftSum ((occurring x).map fun b => (code b).length : List Nat)
      = ∑ b ∈ (occurring x).toFinset, (1 / 2 : ℝ) ^ (code b).length := by
        rw [List.sum_toFinset _ (occurring_nodup x), kraftSum, Multiset.map_coe, Multiset.sum_coe, List.map_map]
        rfl
    _ = ∑ w ∈ (occurring x).toFinset.image code, (1 / 2 : ℝ) ^ w.length :=
        (Finset.sum_image (f := fun w => (1 / 2 : ℝ) ^ w.length) hinj).symm
    _ ≤ 1 := kraft_of_prefixFree hfree

/-- The counts and code lengths of a code, over the byte values that occur. -/
def codeAssignment (x : List Byte) (code : Byte → List Bool) : List (Nat × Nat) :=
  (occurring x).map fun b => (occurrences x b, (code b).length)

theorem codeAssignment_counts (x : List Byte) (code : Byte → List Bool) :
    (codeAssignment x code).map Prod.fst = (initialEntries x).map Occurrence.count := by
  rw [codeAssignment, initialEntries_eq, List.map_map, List.map_map]
  rfl

theorem codeAssignment_lengths (x : List Byte) (code : Byte → List Bool) :
    (codeAssignment x code).map Prod.snd = (occurring x).map fun b => (code b).length := by
  rw [codeAssignment, List.map_map]
  rfl

theorem totalBits_codeAssignment (x : List Byte) (code : Byte → List Bool) :
    totalBits (codeAssignment x code) = (x.map fun b => (code b).length).sum := by
  rw [← sum_occurrences_mul (occurring_nodup x) (fun b hb => mem_occurring.mpr hb), totalBits, Multiset.map_coe,
    Multiset.sum_coe, codeAssignment, List.map_map]
  rfl

/-- A lower bound for the counts of the byte values is one for the total of every `PrefixCode` on the input (R264). -/
theorem LowerBound.le_sum_of_prefixCode {x : List Byte} {c : Nat}
    (h : LowerBound ((initialEntries x).map Occurrence.count : List Nat) c) {code : Byte → List Bool}
    (hcode : PrefixCode x code) : c ≤ (x.map fun b => (code b).length).sum := by
  rw [← totalBits_codeAssignment]
  refine h _ ?_ ?_
  · rw [Multiset.map_coe, codeAssignment_counts]
  · rw [Multiset.map_coe, codeAssignment_lengths]
    exact hcode.kraftSum_le_one

end Sys2Proof.Machine
end

section
/-! PROOFS. The codes of the model HUF_BUILD loads are optimal, and what follows: more frequent bytes have no longer codes, and
OUT_BITS is at most 8 * LEN (R264, R378). -/

namespace Sys2Proof.Machine

/-! ### The bits a tree takes (R260) -/

/-- How often the leaves of a tree occur in the input: the count of its entry (R254). -/
def treeCount (x : List Byte) (t : CodeTree) : Nat := (t.leaves.map (occurrences x)).sum

/-- The bits that the codes of a tree take for the input: each occurrence pays one bit at each node above its leaf (R260). -/
def treeBits (x : List Byte) : CodeTree → Nat
  | .leaf _ => 0
  | .node l r => treeBits x l + treeBits x r + (treeCount x l + treeCount x r)

theorem codeLength_of_code {ts : TreeState} {s : Byte} {p : List Bool} (h : ts.code s = some p) : codeLength ts s = p.length := by
  rw [codeLength, h, Option.getD_some]

/-- The code of a leaf of a subtree is one bit longer in the tree (R262). -/
theorem codeLength_node {l r : CodeTree} (h : (CodeTree.node l r).leaves.Nodup) (b : Bool) {s : Byte}
    (hs : s ∈ (if b then r else l).leaves) :
    codeLength (.tree (.node l r)) s = codeLength (.tree (if b then r else l)) s + 1 := by
  obtain ⟨p, hp⟩ := (exists_code_iff (.tree (if b then r else l)) s).mpr hs
  have hnode : (TreeState.tree (.node l r)).code s = some (b :: p) := (pathTo_node_eq_cons_iff h s b p).mpr hp
  rw [codeLength_of_code hp, codeLength_of_code hnode, List.length_cons]

/-- The leaves of a subtree pay one bit more for each of their occurrences (R260, R262). -/
theorem sum_codeLength_child {x : List Byte} {l r : CodeTree} (h : (CodeTree.node l r).leaves.Nodup) (b : Bool) :
    ((if b then r else l).leaves.map fun s => occurrences x s * codeLength (.tree (.node l r)) s).sum =
      ((if b then r else l).leaves.map fun s => occurrences x s * codeLength (.tree (if b then r else l)) s).sum +
        treeCount x (if b then r else l) := by
  rw [treeCount, ← List.sum_map_add]
  congr 1
  refine List.map_congr_left fun s hs => ?_
  rw [codeLength_node h b hs, Nat.mul_succ]

/-- The bits of a tree with distinct leaves are the sum of count times code length over them (R260). -/
theorem treeBits_eq {x : List Byte} {t : CodeTree} (h : t.leaves.Nodup) :
    treeBits x t = (t.leaves.map fun s => occurrences x s * codeLength (.tree t) s).sum := by
  induction t with
  | leaf c => simp [treeBits, CodeTree.leaves, codeLength, TreeState.code, CodeTree.pathTo]
  | node l r ihl ihr =>
    obtain ⟨hl, hr, _⟩ := List.nodup_append.mp h
    have hleft := sum_codeLength_child (x := x) h false
    have hright := sum_codeLength_child (x := x) h true
    simp only [if_true, Bool.false_eq_true, if_false] at hleft hright
    rw [treeBits, ihl hl, ihr hr, CodeTree.leaves, List.map_append, List.sum_append, hleft, hright]
    omega

/-! ### The merges reach the lower bound (R253-R256) -/

/-- Replacing entry a and then erasing entry b only replaces and drops, up to order. -/
theorem eraseIdx_set_perm {α : Type} {l : List α} {a b : Nat} (m : α) (ha : a < l.length) (hb : b < l.length) (hab : b ≠ a) :
    ∃ rest, (l.eraseIdx a).Perm (l[b] :: rest) ∧ ((l.set a m).eraseIdx b).Perm (m :: rest) := by
  obtain ⟨front, back, hsplit⟩ := List.append_of_mem (List.mem_eraseIdx_iff_getElem.mpr ⟨b, hb, hab, rfl⟩)
  have hrest : (l.eraseIdx a).Perm (l[b] :: (front ++ back)) := hsplit ▸ List.perm_middle
  have hbset : b < (l.set a m).length := by rwa [List.length_set]
  have hkept : (l.set a m)[b] = l[b] := List.getElem_set_ne (Ne.symm hab) _
  refine ⟨front ++ back, hrest, List.Perm.cons_inv (a := l[b]) ?_⟩
  calc (l[b] :: (l.set a m).eraseIdx b).Perm (l.set a m) := hkept ▸ List.getElem_cons_eraseIdx_perm hbset
    List.Perm _ (m :: l.eraseIdx a) := List.set_perm_cons_eraseIdx ha _
    List.Perm _ (m :: l[b] :: (front ++ back)) := hrest.cons _
    List.Perm _ (l[b] :: m :: (front ++ back)) := List.Perm.swap _ _ _

/-- Up to order, one merge replaces two entries of the least counts by the merged one (R253-R255). -/
theorem mergeOnce_perm_least {E : List Occurrence} (h : 2 ≤ E.length) :
    ∃ ea eb rest, E.Perm (ea :: eb :: rest) ∧ (mergeOnce E).Perm (mergedEntry ea eb :: rest) ∧ ea.count ≤ eb.count ∧
      ∀ e ∈ rest, eb.count ≤ e.count := by
  obtain ⟨a, ha⟩ : ∃ a, a = leastIndex none E := ⟨_, rfl⟩
  obtain ⟨b, hb⟩ : ∃ b, b = leastIndex (some a) E := ⟨_, rfl⟩
  obtain ⟨halt, hblt, hab⟩ := leastIndex_pair h ha hb
  have hea := List.getElem?_eq_getElem halt
  have heb := List.getElem?_eq_getElem hblt
  obtain ⟨last, _, hlast, hmerge⟩ := mergeOnce_eq_of_selected h ha hb hea heb
  obtain ⟨rest, hrest, hset⟩ := eraseIdx_set_perm (mergedEntry E[a] E[b]) halt hblt hab
  obtain ⟨_, _, hleasta⟩ := selectionTakesTheLowestLeastCount E none ⟨a, halt, by simp⟩
  obtain ⟨_, _, hleastb⟩ := selectionTakesTheLowestLeastCount E (some a) ⟨b, hblt, by simpa using hab⟩
  rw [← ha] at hleasta
  rw [← hb] at hleastb
  refine ⟨E[a], E[b], rest, ?_, ?_, (hleasta b _ _ (by simp) heb hea).1, fun e he => ?_⟩
  · exact (List.getElem_cons_eraseIdx_perm halt).symm.trans (hrest.cons _)
  · rw [hmerge]
    refine (moveLast_perm_eraseIdx (by rwa [List.length_set]) ?_).trans hset
    rwa [List.length_set]
  · obtain ⟨i, hi, hia, rfl⟩ := List.mem_eraseIdx_iff_getElem.mp (hrest.mem_iff.mpr (List.mem_cons_of_mem _ he))
    exact (hleastb i _ _ (by simpa using hia) (List.getElem?_eq_getElem hi) heb).1

/-- The merges end with a tree whose bits are those of the entries' trees and a lower bound for the entries' counts (R256). -/
theorem mergeAll_optimal {x : List Byte} {k : Nat} {E : List Occurrence} {e : Occurrence} (hlen : E.length ≤ k + 1)
    (hcount : ∀ f ∈ E, f.count = treeCount x f.tree) (hroot : mergeAll k E = [e]) :
    ∃ c, LowerBound (E.map Occurrence.count : List Nat) c ∧ treeBits x e.tree = (E.map fun f => treeBits x f.tree).sum + c := by
  induction k generalizing E with
  | zero =>
    rw [mergeAll] at hroot
    subst hroot
    exact ⟨0, lowerBound_zero _, by simp⟩
  | succ k ih =>
    rw [mergeAll] at hroot
    split at hroot
    next hlive =>
      have hshorter := length_mergeOnce hlive
      obtain ⟨ea, eb, rest, hE, hmerge, hab, hrest⟩ := mergeOnce_perm_least hlive
      have hea : ea.count = treeCount x ea.tree := hcount ea (hE.mem_iff.mpr (by simp))
      have heb : eb.count = treeCount x eb.tree := hcount eb (hE.mem_iff.mpr (by simp))
      have hmerged : ∀ f ∈ mergeOnce E, f.count = treeCount x f.tree := by
        intro f hf
        rcases List.mem_cons.mp (hmerge.mem_iff.mp hf) with rfl | hf
        · simp [mergedEntry, treeCount, CodeTree.leaves, hea, heb]
        · exact hcount f (hE.mem_iff.mpr (by simp [hf]))
      obtain ⟨c, hbound, hbits⟩ := ih (by omega) hmerged hroot
      refine ⟨c + (ea.count + eb.count), ?_, ?_⟩
      · rw [Multiset.coe_eq_coe.mpr (hmerge.map _), List.map_cons, ← Multiset.cons_coe] at hbound
        rw [Multiset.coe_eq_coe.mpr (hE.map _), List.map_cons, List.map_cons, ← Multiset.cons_coe, ← Multiset.cons_coe]
        exact LowerBound.of_merged hab (by simpa using hrest) hbound
      · rw [hbits, (hmerge.map _).sum_eq, (hE.map _).sum_eq]
        simp only [List.map_cons, List.sum_cons, mergedEntry, treeBits]
        omega
    next hlive =>
      subst hroot
      exact ⟨0, lowerBound_zero _, by simp⟩

/-! ### The model's codes are optimal (R264) -/

/-- The predicted size is the total length of the codes of the input's bytes (R260). -/
theorem predictedBits_eq (ts : TreeState) (x : List Byte) : predictedBits ts x = (x.map (codeLength ts)).sum :=
  sum_occurrences_mul allBytes_nodup (fun b _ => mem_allBytes b) _

/-- The predicted size is the bits of the model's tree (R260). -/
theorem predictedBits_eq_treeBits {x : List Byte} {t : CodeTree} (h : huffmanModel x = .tree t) :
    predictedBits (.tree t) x = treeBits x t := by
  have hnodup : t.leaves.Nodup := (h ▸ huffmanModel_wf x : TreeState.wf (.tree t))
  have hleaves : ∀ b ∈ x, b ∈ t.leaves := fun b hb => by simpa [h] using (mem_huffmanModel_leaves x b).mpr hb
  rw [predictedBits_eq, ← sum_occurrences_mul hnodup hleaves, treeBits_eq hnodup]

/-- An initial entry holds the count of its leaf, which pays no bit yet (R252). -/
theorem initialEntries_spec {x : List Byte} {f : Occurrence} (hf : f ∈ initialEntries x) :
    f.count = treeCount x f.tree ∧ treeBits x f.tree = 0 := by
  rw [initialEntries_eq] at hf
  obtain ⟨b, _, rfl⟩ := List.mem_map.mp hf
  simp [treeCount, treeBits, CodeTree.leaves, occurrences]

/-- The predicted size of the model is a lower bound for the counts of the byte values (R264). -/
theorem lowerBound_predictedBits (x : List Byte) :
    LowerBound ((initialEntries x).map Occurrence.count : List Nat) (predictedBits (huffmanModel x) x) := by
  by_cases h : x = []
  · have hzero : predictedBits (huffmanModel x) x = 0 := by simp [predictedBits_eq, h]
    rw [hzero]
    exact lowerBound_zero _
  · obtain ⟨e, hroot, hmodel⟩ := exists_root h
    rw [← mergeAll_eq_iterate (Nat.le_succ _)] at hroot
    obtain ⟨c, hbound, hbits⟩ := mergeAll_optimal (x := x) (Nat.le_succ _)
      (fun f hf => (initialEntries_spec hf).left) hroot
    have hzero : ((initialEntries x).map fun f => treeBits x f.tree).sum = 0 :=
      List.sum_eq_zero fun n hn => by
        obtain ⟨f, hf, rfl⟩ := List.mem_map.mp hn
        exact (initialEntries_spec hf).right
    rwa [hmodel, predictedBits_eq_treeBits hmodel, hbits, hzero, Nat.zero_add]

/-- No `PrefixCode` on the input's bytes takes fewer bits than the model's codes (R264). -/
theorem predictedBits_le_of_prefixCode {x : List Byte} {code : Byte → List Bool} (h : PrefixCode x code) :
    predictedBits (huffmanModel x) x ≤ (x.map fun b => (code b).length).sum :=
  (lowerBound_predictedBits x).le_sum_of_prefixCode h

/-- The model's codes are a `PrefixCode` on the input's bytes (R264). -/
theorem prefixCode_huffmanModel (x : List Byte) : PrefixCode x fun b => ((huffmanModel x).code b).getD [] := by
  intro a ha b hb hne hprefix
  obtain ⟨p, hp⟩ := (exists_code_iff _ a).mpr ((mem_huffmanModel_leaves x a).mpr ha)
  obtain ⟨q, hq⟩ := (exists_code_iff _ b).mpr ((mem_huffmanModel_leaves x b).mpr hb)
  simp only [hp, hq, Option.getD_some] at hprefix
  exact hne (eq_of_code_prefix hp hq hprefix)

/-- A more frequent byte never has the longer code: exchanging the two codes would take fewer bits (R264). -/
theorem codeLength_le_of_count_lt {x : List Byte} {a b : Byte} (ha : a ∈ x) (hb : b ∈ x) (h : x.count a < x.count b) :
    codeLength (huffmanModel x) b ≤ codeLength (huffmanModel x) a := by
  have hne : a ≠ b := fun hab => by rw [hab] at h; exact lt_irrefl _ h
  have hmem : ∀ c ∈ x, Equiv.swap a b c ∈ x := fun c hc => by
    rw [Equiv.swap_apply_def]
    split_ifs
    · exact hb
    · exact ha
    · exact hc
  have hswapped : PrefixCode x fun c => ((huffmanModel x).code (Equiv.swap a b c)).getD [] := fun c hc d hd hcd =>
    prefixCode_huffmanModel x _ (hmem c hc) _ (hmem d hd) ((Equiv.swap a b).injective.ne hcd)
  have hoptimal := predictedBits_le_of_prefixCode hswapped
  have hexchange := sum_map_swap hne (codeLength (huffmanModel x)) x
  rw [predictedBits_eq] at hoptimal
  by_contra hlonger
  have hcross := mul_add_mul_lt_mul_add_mul h (Nat.lt_of_not_le hlonger)
  simp only [codeLength] at hoptimal hexchange hcross
  omega

/-- The code of eight bits a byte (R264). -/
def fixedCode (b : Byte) : List Bool := (List.range 8).map b.getLsbD

theorem fixedCode_prefixCode (x : List Byte) : PrefixCode x fixedCode := by
  intro a _ b _ hne hprefix
  have hcode : fixedCode a = fixedCode b := hprefix.eq_of_length (by simp [fixedCode])
  refine hne (BitVec.eq_of_getLsbD_eq fun i hi => ?_)
  exact List.map_inj_left.mp hcode i (List.mem_range.mpr hi)

/-- The model's codes take at most eight bits a byte (R264, R378). -/
theorem predictedBits_le (x : List Byte) : predictedBits (huffmanModel x) x ≤ 8 * x.length := by
  have hfixed := predictedBits_le_of_prefixCode (fixedCode_prefixCode x)
  simpa [fixedCode, Nat.mul_comm] using hfixed

/-- The predicted sizes fit their registers (R378). -/
theorem toNat_predictedBits {s : State} {x : List Byte} (hlegal : s.params.legal) (hin : InMem s s.src.toNat s.len.toNat)
    (hlen : x.length = s.len.toNat) :
    (BitVec.ofNat 32 (predictedBits (huffmanModel x) x)).toNat = predictedBits (huffmanModel x) x ∧
      (BitVec.ofNat 32 (ceil8 (predictedBits (huffmanModel x) x))).toNat = ceil8 (predictedBits (huffmanModel x) x) := by
  obtain ⟨_, hmem, _⟩ := hlegal
  have hbits := predictedBits_le x
  have hfits : x.length ≤ 2 ^ 29 - 1 := by
    rcases hin with hzero | hregion <;> omega
  simp only [BitVec.toNat_ofNat, ceil8]
  omega

/-- Settles O42: optimality comes from the lower bound that the merges reach; the order by frequency and the bound of 8 bits a
byte are optimality against the exchanged code and the fixed-length code. -/
theorem huffmanCodesAreOptimal : Obligations.HuffmanCodesAreOptimal := by
  unfold Obligations.HuffmanCodesAreOptimal
  intro s t x hlegal hin hlen hx ht
  rw [exec_hufBuild hin hlen hx] at ht
  obtain rfl := Host.Outcome.next.inj ht
  obtain ⟨hbits, _⟩ := toNat_predictedBits hlegal hin hlen
  dsimp only [okState_outBits]
  rw [hbits]
  refine ⟨?_, ?_, predictedBits_eq _ x, fun code => predictedBits_le_of_prefixCode, hlen ▸ predictedBits_le x, ?_⟩
  case refine_1 => exact fun a b p q hne ha hb hprefix => hne (eq_of_code_prefix ha hb hprefix)
  case refine_2 => exact fun a ha b hb hlt => codeLength_le_of_count_lt ha hb hlt
  case refine_3 =>
    intro a p hp
    obtain ⟨tree, htree, hpath⟩ := code_eq_some_iff.mp hp
    have hshort := code_length_lt (huffmanModel_wf x) hp
    have hleaves := pathTo_length_lt hpath
    rw [htree, leaves_tree]
    omega

end Sys2Proof.Machine
end

section
/-! PROOFS. ENT_ENC over a model that has a code for every byte of its input, and the size that HUF_BUILD predicts for it
(R260, R341). -/

namespace Sys2Proof.Machine

/-- Where every byte has a code, the encoded bits are as many as the codes have (R341). -/
theorem exists_encodeBits {ts : TreeState} {x : List Byte} (h : ∀ b ∈ x, b ∈ ts.leaves) :
    ∃ bits, encodeBits ts x = some bits ∧ bits.length = (x.map (codeLength ts)).sum := by
  induction x with
  | nil => exact ⟨[], rfl, rfl⟩
  | cons b x ih =>
    obtain ⟨hb, hx⟩ := List.forall_mem_cons.mp h
    obtain ⟨p, hp⟩ := (exists_code_iff ts b).mpr hb
    obtain ⟨bits, hbits, hlen⟩ := ih hx
    refine ⟨p ++ bits, by simp only [encodeBits, hp, hbits], ?_⟩
    rw [List.length_append, List.map_cons, List.sum_cons, hlen, codeLength_of_code hp]

/-- The EMPTY model encodes nothing but no input (R340). -/
theorem eq_nil_of_encodeBits_empty {x : List Byte} {bits : List Bool} (h : encodeBits .empty x = some bits) : x = [] := by
  cases x with
  | nil => rfl
  | cons b x => cases h

/-- ENT_ENC over valid operands and a readable input that TREE encodes, with room for the bits (R341-R343). -/
theorem exec_entEnc {s : State} {x : List Byte} {bits : List Bool} (hops : CoderOperands s) (hvalid : s.tree ≠ .invalid)
    (hlen : x.length = s.len.toNat) (hx : s.mem.Holds s.src.toNat x) (hbits : encodeBits s.tree x = some bits)
    (hcap : ceil8 bits.length ≤ s.dstCap.toNat) :
    exec .entEnc s = .next
      { okState s (BitVec.ofNat 32 (ceil8 bits.length)) (BitVec.ofNat 32 bits.length) with
        mem := s.mem.writeBytes s.dst.toNat (packBits bits) } := by
  have hpass := (operandChecks_entEnc_none_iff s).mpr ⟨hops, hvalid⟩
  have hcoded : ¬ (s.tree = .empty ∧ 0 < s.len.toNat) := by
    rintro ⟨hempty, hpos⟩
    rw [hempty] at hbits
    rw [← hlen, eq_nil_of_encodeBits_empty hbits] at hpos
    exact lt_irrefl _ hpos
  rw [exec_eq, verdictOf, entEncVerdict, checked_of_none hpass, if_neg hcoded, Verdict.withInput_of_holds hx hlen, hbits]
  dsimp only
  rw [if_pos hcap, completeWith_ok, finish_applyOk]
  rfl

/-- Settles O40: the model has a code for every byte of the input, so ENT_ENC writes as many bits as the codes have. -/
theorem predictedSizeIsExact : Obligations.PredictedSizeIsExact := by
  unfold Obligations.PredictedSizeIsExact
  intro s t x hlegal hin hlen hx ht
  rw [exec_hufBuild hin hlen hx] at ht
  obtain rfl := Host.Outcome.next.inj ht
  obtain ⟨hbits, hbytes⟩ := toNat_predictedBits hlegal hin hlen
  dsimp only [okState_outBits, okState_outLen]
  rw [hbits, hbytes]
  refine ⟨?_, rfl, fun d cap hops hcap => ?_⟩
  case refine_1 =>
    simp only [toNat_at_ofCounts hlen, predictedBits, allBytes, List.map_map]
    rfl
  case refine_2 =>
    obtain ⟨bits, hcoded, hcount⟩ := exists_encodeBits (ts := huffmanModel x) fun b => (mem_huffmanModel_leaves x b).mpr
    rw [← predictedBits_eq] at hcount
    refine ⟨_, exec_entEnc hops (huffmanModel_ne_invalid x) hlen hx hcoded (by rwa [hcount]), rfl, ?_, ?_⟩
    · rw [← hcount]
      rfl
    · rw [← hcount]
      rfl

end Sys2Proof.Machine
end

section
/-! PROOFS. The parse of R317 finds exactly the tree whose shape bits and leaves it is given. -/

namespace Sys2Proof.Machine

/-- The parse of a tree's shape bits and leaves answers the tree and leaves over what follows them; fuel above the number of
the tree's bits is enough (R317). -/
theorem parseShape_append {fuel : Nat} {t : CodeTree} (bits : List Bool) (lv : List Byte) (h : t.shape.length < fuel) :
    parseShape fuel (t.shape ++ bits) (t.leaves ++ lv) = some (t, bits, lv) := by
  induction t generalizing fuel bits lv with
  | leaf c =>
    obtain ⟨fuel, rfl⟩ := Nat.exists_eq_add_one_of_ne_zero (Nat.ne_zero_of_lt h)
    rfl
  | node l r ihl ihr =>
    obtain ⟨fuel, rfl⟩ := Nat.exists_eq_add_one_of_ne_zero (Nat.ne_zero_of_lt h)
    simp only [CodeTree.shape, List.length_cons, List.length_append] at h
    have hl := ihl (r.shape ++ bits) (r.leaves ++ lv) (fuel := fuel) (by omega)
    have hr := ihr bits lv (fuel := fuel) (by omega)
    simp only [CodeTree.shape, CodeTree.leaves, List.cons_append, List.append_assoc, parseShape, hl, hr]

/-- A parse that uses all its bits and leaves answers the tree that has exactly these (R317). -/
theorem treeOfShape_eq_some_iff {bits : List Bool} {lv : List Byte} {t : CodeTree} :
    treeOfShape bits lv = some t ↔ t.shape = bits ∧ t.leaves = lv := by
  constructor
  case mp =>
    intro h
    obtain ⟨rfl, rfl⟩ := treeOfShape_eq_some h
    exact ⟨rfl, rfl⟩
  case mpr =>
    rintro ⟨rfl, rfl⟩
    have hparse := parseShape_append [] [] (Nat.lt_add_one t.shape.length)
    rw [List.append_nil, List.append_nil] at hparse
    rw [treeOfShape, hparse]

/-- Settles O46: a parse consumes the shape bits and the leaves of the tree it answers, and turns those into the tree. -/
theorem shapeParseInvertsTheShape : Obligations.ShapeParseInvertsTheShape := by
  unfold Obligations.ShapeParseInvertsTheShape
  exact fun _ _ _ => treeOfShape_eq_some_iff

end Sys2Proof.Machine
end

section
/-! PROOFS. What the bytes of a side channel stand for: the fields of its header (R310, R316), the counts of a legal model, and
the one model that its leaf and shape bytes store (R316, R317). -/

namespace Sys2Proof.Machine

/-! ### The claims' size and bytes, under the model's names (R310, R313) -/

theorem size_eq_sideChannelSize (L B : Nat) : 12 + L + ceil8 B = sideChannelSize L B := rfl

theorem bytes_eq_sideChannel (ts : TreeState) (idx usize : Word) :
    le32 idx ++ le32 usize ++ le16 ts.leaves.length ++ le16 ts.shape.length ++ ts.leaves ++ packBits ts.shape =
      sideChannel ts idx usize := rfl

/-! ### The header (R310) -/

/-- A header that TREE_SER writes reads back (R313, R316). -/
theorem headerFields_of_fields (idx usize : Word) {L B : Nat} (hL : L < 65536) (hB : B < 65536) :
    headerFields (le32 idx ++ le32 usize ++ le16 L ++ le16 B) = (idx.toNat, usize.toNat, L, B) := by
  have hfields : headerFields (le32 idx ++ le32 usize ++ le16 L ++ le16 B) =
      (ofLe (le32 idx), ofLe (le32 usize), ofLe (le16 L), ofLe (le16 B)) := rfl
  rw [hfields, ofLe_le32, ofLe_le32, ofLe_le16 hL, ofLe_le16 hB]

/-- LEAF_COUNT and SHAPE_BITS are bytes 8 and 9 and bytes 10 and 11 of the header (R310). -/
theorem headerFields_eq {h : List Byte} (hlen : h.length = 12) :
    headerFields h = (ofLe (h.take 4), ofLe ((h.drop 4).take 4),
      (h.getD 8 0#8).toNat + 256 * (h.getD 9 0#8).toNat, (h.getD 10 0#8).toNat + 256 * (h.getD 11 0#8).toNat) := by
  match h, hlen with
  | [_, _, _, _, _, _, _, _, _, _, _, _], _ => rfl

/-! ### The counts (R316) -/

/-- The counts agree exactly when there are at most 256 leaves and as many shape bits as their tree has, none for no leaf. -/
theorem countsAgree_iff (L B : Nat) : countsAgree L B = true ↔ L ≤ 256 ∧ B = 2 * L - 1 := by
  rw [countsAgree, Bool.and_eq_true, decide_eq_true_iff]
  by_cases hL : L = 0
  · rw [if_pos hL, decide_eq_true_iff]
    omega
  · rw [if_neg hL, decide_eq_true_iff]
    omega

/-- A model without leaves has no shape bits, and a tree with L leaves has 2L - 1 (R311). -/
theorem treeState_shape_length (ts : TreeState) : ts.shape.length = 2 * ts.leaves.length - 1 := by
  cases ts with
  | invalid | empty => rfl
  | tree t => exact shape_length_eq t

/-- A legal model's counts agree (R60, R316). -/
theorem countsAgree_of_wf {ts : TreeState} (h : ts.wf) : countsAgree ts.leaves.length ts.shape.length = true :=
  (countsAgree_iff _ _).mpr ⟨nodup_bytes_length h, treeState_shape_length ts⟩

/-! ### The body (R316, R317) -/

/-- The checks on the body, over its leaf bytes lv and its shape bytes sh. -/
theorem modelOfBody_append {L : Nat} (B : Nat) {lv : List Byte} (sh : List Byte) (hlv : lv.length = L) :
    modelOfBody L B (lv ++ sh) =
      if ¬ lv.Nodup then none
      else if L = 0 then some .empty
      else (treeOfShape (streamBits sh B) lv).map .tree := by
  rw [modelOfBody, List.take_left' hlv, List.drop_left' hlv]

/-- The leaf bytes lv and the shape bytes sh store exactly the legal model with these leaves and shape bits. -/
theorem modelOfBody_eq_some_iff {L B : Nat} {lv sh : List Byte} {ts : TreeState} (hcounts : countsAgree L B = true)
    (hlv : lv.length = L) :
    modelOfBody L B (lv ++ sh) = some ts ↔ ts ≠ .invalid ∧ ts.wf ∧ ts.leaves = lv ∧ ts.shape = streamBits sh B := by
  obtain ⟨_, hB⟩ := (countsAgree_iff L B).mp hcounts
  rw [modelOfBody_append B sh hlv]
  by_cases hnodup : lv.Nodup
  case neg =>
    rw [if_pos hnodup]
    exact iff_of_false nofun fun ⟨_, hwf, hleaves, _⟩ => hnodup (hleaves ▸ hwf)
  rw [if_neg (not_not.mpr hnodup)]
  by_cases hL : L = 0
  case pos =>
    have hempty : lv = [] := List.length_eq_zero_iff.mp (hlv.trans hL)
    have hbits : streamBits sh B = [] := by rw [hB, hL]; rfl
    rw [if_pos hL, hempty, hbits]
    cases ts with
    | invalid => simp
    | empty => simp [TreeState.wf]
    | tree t => simpa using fun _ h => absurd (h ▸ leaves_length_pos t) (lt_irrefl 0)
  case neg =>
    rw [if_neg hL, Option.map_eq_some_iff]
    cases ts with
    | invalid => simp
    | empty =>
      refine iff_of_false nofun fun ⟨_, _, hleaves, _⟩ => hL ?_
      rw [← hlv, ← hleaves, leaves_empty, List.length_nil]
    | tree t =>
      simp only [TreeState.tree.injEq, exists_eq_right, treeOfShape_eq_some_iff, leaves_tree, shape_tree]
      constructor
      · rintro ⟨hshape, rfl⟩
        exact ⟨nofun, hnodup, rfl, hshape⟩
      · rintro ⟨_, _, hleaves, hshape⟩
        exact ⟨hshape, hleaves⟩

end Sys2Proof.Machine
end

section
/-! PROOFS. TREE_SER: the side channel it writes, and its errors in order (R310-R313). -/

namespace Sys2Proof.Machine

/-! ### Success (R313) -/

/-- TREE_SER over a valid footprint, with a model whose side channel the capacity holds (R313). -/
theorem exec_treeSer {s : State} (hdst : InMem s s.dst.toNat s.dstCap.toNat) (hvalid : s.tree ≠ .invalid)
    (hcap : sideChannelSize s.tree.leaves.length s.tree.shape.length ≤ s.dstCap.toNat) :
    exec .treeSer s = .next
      { okState s (BitVec.ofNat 32 (sideChannelSize s.tree.leaves.length s.tree.shape.length))
          (BitVec.ofNat 32 s.tree.shape.length) with
        mem := s.mem.writeBytes s.dst.toNat (sideChannel s.tree s.bwtIdx s.usize) } := by
  have hpass := (operandChecks_treeSer_none_iff s).mpr ⟨hdst, hvalid⟩
  rw [exec_eq, verdictOf, treeSerVerdict, checked_of_none hpass]
  dsimp only
  rw [if_pos hcap, completeWith_ok, finish_applyOk]
  rfl

/-- Settles O43: TREE_SER writes its S bytes at DST and nothing else. -/
theorem treeSerWritesTheSideChannel : Obligations.TreeSerWritesTheSideChannel := by
  unfold Obligations.TreeSerWritesTheSideChannel
  simp only [size_eq_sideChannelSize, bytes_eq_sideChannel]
  intro s hdst hvalid hcap
  have hexec := exec_treeSer hdst hvalid hcap
  have hlen := sideChannel_length s.tree s.bwtIdx s.usize
  -- What was written matters only as what MEM holds, so it need not be unfolded below.
  generalize sideChannel s.tree s.bwtIdx s.usize = out at hexec hlen ⊢
  exact ⟨_, hexec, Memory.holds_writeBytes _ _ _, Memory.sameOutside_writeBytes _ _ _ _ hlen.le, rfl⟩

/-! ### The errors in their order (R312) -/

/-- A footprint outside MEM is ADDR_RANGE. -/
theorem exec_treeSer_addrRange {s : State} (h : ¬ InMem s s.dst.toNat s.dstCap.toNat) :
    exec .treeSer s = .next (errState s .addrRange) := by
  apply exec_of_failing
  rw [operandChecks, firstFailing_cons, if_neg (mt (footprintOk_iff .treeSer s).mp h)]

/-- INVALID is NO_TREE, once the footprint lies inside MEM. -/
theorem exec_treeSer_noTree {s : State} (hdst : InMem s s.dst.toNat s.dstCap.toNat) (h : s.tree = .invalid) :
    exec .treeSer s = .next (errState s .noTree) := by
  apply exec_of_failing
  have hvalid : ¬ s.tree.valid = true := by rw [TreeState.valid_iff, not_not]; exact h
  rw [operandChecks, firstFailing_cons, if_pos ((footprintOk_iff .treeSer s).mpr hdst), firstFailing_cons, if_neg hvalid]

/-- A side channel longer than the capacity is CAP_OVERFLOW, once the operand checks hold. -/
theorem exec_treeSer_capOverflow {s : State} (hdst : InMem s s.dst.toNat s.dstCap.toNat) (hvalid : s.tree ≠ .invalid)
    (h : s.dstCap.toNat < sideChannelSize s.tree.leaves.length s.tree.shape.length) :
    exec .treeSer s = .next (errState s .capOverflow) := by
  have hpass := (operandChecks_treeSer_none_iff s).mpr ⟨hdst, hvalid⟩
  rw [exec_eq, verdictOf, treeSerVerdict, checked_of_none hpass]
  dsimp only
  rw [if_neg h.not_ge, completeWith_err]

/-- Settles O44: one lemma for each error, in the order of the checks. -/
theorem treeSerErrorsInOrder : Obligations.TreeSerErrorsInOrder := by
  unfold Obligations.TreeSerErrorsInOrder
  simp only [size_eq_sideChannelSize]
  exact ⟨decode_encode .treeSer, fun s => ⟨exec_treeSer_addrRange, exec_treeSer_noTree, exec_treeSer_capOverflow⟩⟩

end Sys2Proof.Machine
end

section
/-! PROOFS. TREE_DES: the side channels it loads, those it rejects, and the round trip with TREE_SER (R315-R319). -/

namespace Sys2Proof.Machine

/-! ### The verdict, check by check (R315-R317) -/

/-- An input region outside MEM is ADDR_RANGE (R315). -/
theorem exec_treeDes_addrRange {s : State} (h : ¬ InMem s s.src.toNat s.len.toNat) :
    exec .treeDes s = .next (errState s .addrRange) := by
  apply exec_of_failing
  rw [operandChecks, firstFailing_cons, if_neg (mt (inputOk_iff .treeDes s).mp h)]

/-- An input too short for a header is TREE_FORMAT. -/
theorem exec_treeDes_of_no_header {s : State} (hin : InMem s s.src.toNat s.len.toNat) (h : s.len.toNat < 12) :
    exec .treeDes s = .next (errState s .treeFormat) := by
  rw [exec_eq, verdictOf, treeDesVerdict, checked_of_none ((operandChecks_treeDes_none_iff s).mpr hin), if_pos h,
    completeWith_err]

section Header

variable {s : State} {hd : List Byte} {idx usize L B : Nat}

/-- A header whose counts do not agree, or ask for more bytes than LEN, is TREE_FORMAT. -/
theorem exec_treeDes_of_bad_header (hin : InMem s s.src.toNat s.len.toNat) (hlong : 12 ≤ s.len.toNat) (hlen : hd.length = 12)
    (hhd : s.mem.Holds s.src.toNat hd) (hf : headerFields hd = (idx, usize, L, B))
    (hbad : ¬ (countsAgree L B = true ∧ sideChannelSize L B ≤ s.len.toNat)) :
    exec .treeDes s = .next (errState s .treeFormat) := by
  rw [exec_eq, verdictOf, treeDesVerdict, checked_of_none ((operandChecks_treeDes_none_iff s).mpr hin),
    if_neg hlong.not_gt, Verdict.withInput_of_holds hhd hlen]
  simp only [hf]
  by_cases hcounts : countsAgree L B = true
  case neg => rw [if_pos (by simpa using hcounts), completeWith_err]
  case pos =>
    have hshort : s.len.toNat < sideChannelSize L B := Nat.not_le.mp fun hfits => hbad ⟨hcounts, hfits⟩
    rw [if_neg (by simpa using hcounts), if_pos hshort, completeWith_err]

/-- After a good header, the verdict is TREE_FORMAT or the model that the body stands for. -/
theorem treeDesVerdict_of_body {body : List Byte} (hin : InMem s s.src.toNat s.len.toNat) (hlen : hd.length = 12)
    (hhd : s.mem.Holds s.src.toNat hd) (hf : headerFields hd = (idx, usize, L, B)) (hcounts : countsAgree L B = true)
    (hfits : sideChannelSize L B ≤ s.len.toNat) (hbody : body.length = L + ceil8 B)
    (hholds : s.mem.Holds (s.src.toNat + 12) body) :
    treeDesVerdict s = (modelOfBody L B body).elim (.err .treeFormat) fun ts =>
      .ok { bwtIdx := some idx, usize := some usize, model := some (ts, FreqTable.zero)
            outLen := sideChannelSize L B, outBits := B } := by
  have hlong : ¬ s.len.toNat < 12 := by
    simp only [sideChannelSize] at hfits
    omega
  rw [treeDesVerdict, checked_of_none ((operandChecks_treeDes_none_iff s).mpr hin), if_neg hlong,
    Verdict.withInput_of_holds hhd hlen]
  simp only [hf]
  rw [if_neg (by simpa using hcounts), if_neg hfits.not_gt, Verdict.withInput_of_holds hholds hbody]
  cases modelOfBody L B body with
  | none => rfl
  | some ts => rfl

/-- After a good header, a body that no legal model has is TREE_FORMAT (R316, R317). -/
theorem exec_treeDes_of_bad_body {lv sh : List Byte} (hin : InMem s s.src.toNat s.len.toNat) (hlen : hd.length = 12)
    (hhd : s.mem.Holds s.src.toNat hd) (hf : headerFields hd = (idx, usize, L, B)) (hcounts : countsAgree L B = true)
    (hfits : sideChannelSize L B ≤ s.len.toNat) (hlv : lv.length = L) (hsh : sh.length = ceil8 B)
    (hholds : s.mem.Holds (s.src.toNat + 12) (lv ++ sh))
    (hbad : ∀ ts : TreeState, ts ≠ .invalid → ts.wf → ts.leaves = lv → ts.shape ≠ streamBits sh B) :
    exec .treeDes s = .next (errState s .treeFormat) := by
  have hnone : modelOfBody L B (lv ++ sh) = none := by
    refine Option.eq_none_iff_forall_ne_some.mpr fun ts hts => ?_
    obtain ⟨hvalid, hwf, hleaves, hshape⟩ := (modelOfBody_eq_some_iff hcounts hlv).mp hts
    exact hbad ts hvalid hwf hleaves hshape
  have hbody : (lv ++ sh).length = L + ceil8 B := by rw [List.length_append, hlv, hsh]
  rw [exec_eq, verdictOf, treeDesVerdict_of_body hin hlen hhd hf hcounts hfits hbody hholds, hnone, Option.elim_none,
    completeWith_err]

end Header

/-! ### Success (R318) -/

/-- TREE_DES of the side channel of a legal model, with any pad bits (R318). -/
theorem exec_treeDes_of_sideChannel {s : State} {ts : TreeState} {idx usize : Word} {pad : List Byte}
    (hin : InMem s s.src.toNat s.len.toNat) (hvalid : ts ≠ .invalid) (hwf : ts.wf) (hpad : pad.length = ceil8 ts.shape.length)
    (hbits : streamBits pad ts.shape.length = ts.shape)
    (hfits : sideChannelSize ts.leaves.length ts.shape.length ≤ s.len.toNat)
    (hholds : s.mem.Holds s.src.toNat
      (le32 idx ++ le32 usize ++ le16 ts.leaves.length ++ le16 ts.shape.length ++ ts.leaves ++ pad)) :
    exec .treeDes s = .next
      { okState s (BitVec.ofNat 32 (sideChannelSize ts.leaves.length ts.shape.length)) (BitVec.ofNat 32 ts.shape.length) with
        tree := ts, freq := FreqTable.zero, bwtIdx := idx, usize := usize } := by
  have hcounts := countsAgree_of_wf hwf
  obtain ⟨hL, hB⟩ := (countsAgree_iff _ _).mp hcounts
  have hf := headerFields_of_fields idx usize (L := ts.leaves.length) (B := ts.shape.length) (by omega) (by omega)
  rw [List.append_assoc, Memory.holds_append] at hholds
  obtain ⟨hhd, hbody⟩ := hholds
  have hmodel : modelOfBody ts.leaves.length ts.shape.length (ts.leaves ++ pad) = some ts :=
    (modelOfBody_eq_some_iff hcounts rfl).mpr ⟨hvalid, hwf, rfl, hbits.symm⟩
  have hverdict := treeDesVerdict_of_body hin rfl hhd hf hcounts hfits (by rw [List.length_append, hpad]) hbody
  rw [exec_eq, verdictOf, hverdict, hmodel, Option.elim_some, completeWith_ok, finish_applyOk]
  simp [updateWord]

/-- A command that raises ERR leaves the error record (R177, R372). -/
theorem eq_errState_of_err {i : Instr} {s t : State} (hs : s.err = false) (h : exec i s = .next t) (ht : t.err = true) :
    ∃ c, t = errState s c := by
  rcases completionIsOkOrPreciseError i s t h with ⟨c, hc, _⟩ | hok
  · exact ⟨c, hc⟩
  · rw [hok] at ht
    exact absurd (hs.symm.trans ht) Bool.false_ne_true

/-- Settles O47: the header and the body of a legal model's side channel read back, and an error record keeps the rest. -/
theorem treeDesLoadsAnyWellFormedSideChannel : Obligations.TreeDesLoadsAnyWellFormedSideChannel := by
  unfold Obligations.TreeDesLoadsAnyWellFormedSideChannel
  simp only [size_eq_sideChannelSize]
  refine ⟨fun s ts idx usize pad => exec_treeDes_of_sideChannel, FreqTable.at_zero, fun s t hs h ht => ?_⟩
  obtain ⟨c, rfl⟩ := eq_errState_of_err hs h ht
  exact ⟨rfl, rfl, rfl, rfl, rfl⟩

/-! ### The errors (R315, R316) -/

/-- Settles O48: one lemma for each check, in the order of R316. -/
theorem treeDesRejectsMalformedSideChannels : Obligations.TreeDesRejectsMalformedSideChannels := by
  unfold Obligations.TreeDesRejectsMalformedSideChannels
  simp only [size_eq_sideChannelSize]
  refine ⟨decode_encode .treeDes, fun s h lv sh L B => ⟨exec_treeDes_addrRange, exec_treeDes_of_no_header, ?_⟩⟩
  intro hin hlong hlen hhd hL hB
  have hf := headerFields_eq hlen
  rw [← hL, ← hB] at hf
  refine ⟨fun hbad => ?header, fun hlv hsh hbody hfits hbad => ?body⟩
  case header =>
    refine exec_treeDes_of_bad_header hin hlong hlen hhd hf ?_
    rw [countsAgree_iff]
    omega
  case body =>
    by_cases hcounts : countsAgree L B = true
    case neg => exact exec_treeDes_of_bad_header hin hlong hlen hhd hf fun hgood => hcounts hgood.left
    case pos =>
      refine exec_treeDes_of_bad_body hin hlen hhd hf hcounts hfits hlv hsh hbody fun ts hvalid hwf hleaves hshape => ?_
      rcases hbad with hdup | ⟨hpos, hnone⟩
      case inl => exact hdup (hleaves ▸ hwf)
      case inr =>
        cases ts with
        | invalid => exact hvalid rfl
        | empty =>
          rw [← hlv, ← hleaves] at hpos
          exact absurd hpos (by decide)
        | tree t => exact hnone t ⟨hshape, hleaves⟩

/-! ### The round trip (R319) -/

/-- Settles O49: what TREE_SER leaves at DST is the side channel of a legal model with zero pad, and OUT_LEN is its size. -/
theorem sideChannelRoundTrip : Obligations.SideChannelRoundTrip := by
  unfold Obligations.SideChannelRoundTrip
  intro s t ts f i u hdst hvalid hwf hs h ht
  have hcap : sideChannelSize s.tree.leaves.length s.tree.shape.length ≤ s.dstCap.toNat := by
    refine Nat.not_lt.mp fun hsmall => ?_
    rw [exec_treeSer_capOverflow hdst hvalid hsmall] at h
    obtain rfl := Host.Outcome.next.inj h
    exact absurd ht (by simp)
  rw [exec_treeSer hdst hvalid hcap] at h
  have hbytes := Memory.holds_writeBytes s.mem s.dst.toNat (sideChannel s.tree s.bwtIdx s.usize)
  -- The memory matters only for the side channel it holds, so the write need not be unfolded below.
  generalize s.mem.writeBytes s.dst.toNat (sideChannel s.tree s.bwtIdx s.usize) = m at h hbytes
  obtain rfl := Host.Outcome.next.inj h
  have hsize : (BitVec.ofNat 32 (sideChannelSize s.tree.leaves.length s.tree.shape.length)).toNat =
      sideChannelSize s.tree.leaves.length s.tree.shape.length := Nat.mod_eq_of_lt (hcap.trans_lt s.dstCap.isLt)
  refine ⟨_, exec_treeDes_of_sideChannel (idx := s.bwtIdx) (usize := s.usize) ?_ hvalid hwf
    (packBits_length s.tree.shape) (streamBits_packBits s.tree.shape) hsize.ge hbytes, hs, rfl, rfl, rfl,
    FreqTable.at_zero⟩
  exact InMem.of_le hdst (hsize.trans_le hcap)

end Sys2Proof.Machine
end

section
/-! PROOFS. The bits of a stream that MEM stores (R11), and the codes of a byte list, one after the other (R341). -/

namespace Sys2Proof.Machine

/-! ### Stream bits in MEM (R11) -/

/-- Bit k of the stream stored from base on, none where nothing has written its byte (R11, R345). -/
def Memory.streamBit? (m : Memory) (base k : Nat) : Option Bool := (m.read (base + k / 8)).map (bitOfByte · k)

/-- The stream stored from base on has the given bits at position pos. -/
def Memory.HoldsBits (m : Memory) (base pos : Nat) (bits : List Bool) : Prop :=
  ∀ k, k < bits.length → m.streamBit? base (pos + k) = bits[k]?

@[simp] theorem Memory.holdsBits_nil (m : Memory) (base pos : Nat) : m.HoldsBits base pos [] :=
  fun _ hk => absurd hk (Nat.not_lt_zero _)

/-- A stream has the bits of a concatenation exactly when it has those of the parts, one after the other. -/
theorem Memory.holdsBits_append {m : Memory} {base pos : Nat} {p q : List Bool} :
    m.HoldsBits base pos (p ++ q) ↔ m.HoldsBits base pos p ∧ m.HoldsBits base (pos + p.length) q := by
  constructor
  case mp =>
    refine fun h => ⟨fun k hk => ?_, fun k hk => ?_⟩
    · rw [h k (by rw [List.length_append]; omega), List.getElem?_append_left hk]
    · rw [Nat.add_assoc, h (p.length + k) (by rw [List.length_append]; omega),
        List.getElem?_append_right (Nat.le_add_right _ _), Nat.add_sub_cancel_left]
  case mpr =>
    rintro ⟨hp, hq⟩ k hk
    by_cases hkp : k < p.length
    · rw [hp k hkp, List.getElem?_append_left hkp]
    · obtain ⟨j, rfl⟩ := Nat.exists_eq_add_of_le (Nat.not_lt.mp hkp)
      rw [List.length_append] at hk
      rw [← Nat.add_assoc, hq j (by omega), List.getElem?_append_right (Nat.le_add_right _ _), Nat.add_sub_cancel_left]

theorem Memory.holdsBits_singleton {m : Memory} {base pos : Nat} {b : Bool} :
    m.HoldsBits base pos [b] ↔ m.streamBit? base pos = some b := by
  constructor
  · exact fun h => h 0 Nat.one_pos
  · intro h k hk
    obtain rfl := Nat.lt_one_iff.mp hk
    exact h

theorem Memory.holdsBits_cons {m : Memory} {base pos : Nat} {b : Bool} {p : List Bool} :
    m.HoldsBits base pos (b :: p) ↔ m.streamBit? base pos = some b ∧ m.HoldsBits base (pos + 1) p := by
  rw [← holdsBits_singleton]
  exact holdsBits_append (p := [b])

/-- The stream bits of bytes that MEM holds are those of the bytes (R11). -/
theorem Memory.Holds.streamBit? {m : Memory} {a : Nat} {x : List Byte} (h : m.Holds a x) {k : Nat} (hk : k < 8 * x.length) :
    m.streamBit? a k = some (streamBit x k) := by
  have hbyte : k / 8 < x.length := by omega
  rw [Memory.streamBit?, h _ hbyte, List.getElem?_eq_getElem hbyte, streamBit, List.getD_eq_getElem _ _ hbyte]
  rfl

/-- Over bytes that MEM holds, the bits at the front of the stream are the first bits of the bytes (R11). -/
theorem Memory.Holds.holdsBits_iff {m : Memory} {a : Nat} {x : List Byte} (h : m.Holds a x) {bits : List Bool}
    (hfits : bits.length ≤ 8 * x.length) : m.HoldsBits a 0 bits ↔ streamBits x bits.length = bits := by
  have hbit : ∀ k, k < bits.length → m.streamBit? a (0 + k) = (streamBits x bits.length)[k]? := fun k hk => by
    rw [Nat.zero_add, h.streamBit? (by omega), streamBits, List.getElem?_map, List.getElem?_range hk, Option.map_some]
  constructor
  case mp =>
    intro hbits
    refine List.ext_getElem? fun k => ?_
    by_cases hk : k < bits.length
    · rw [← hbit k hk, hbits k hk]
    · rw [List.getElem?_eq_none (by rw [streamBits_length]; omega), List.getElem?_eq_none (by omega)]
  case mpr =>
    intro hbits k hk
    rw [hbit k hk, hbits]

/-- The first bits of a stream are the front of any more of them. -/
theorem streamBits_prefix (x : List Byte) {n n' : Nat} (h : n ≤ n') : streamBits x n <+: streamBits x n' := by
  have htake : List.range n = (List.range n').take n := by rw [List.take_range, Nat.min_eq_left h]
  rw [streamBits, htake]
  exact (List.take_prefix _ _).map _

/-! ### The codes of a byte list (R341) -/

/-- The codes of a list are the code of its first byte and then those of the rest. -/
theorem encodeBits_cons_eq_some_iff {ts : TreeState} {b : Byte} {x : List Byte} {bits : List Bool} :
    encodeBits ts (b :: x) = some bits ↔
      ∃ p rest, ts.code b = some p ∧ encodeBits ts x = some rest ∧ bits = p ++ rest := by
  rw [encodeBits]
  cases ts.code b with
  | none => simp
  | some p =>
    cases encodeBits ts x with
    | none => simp
    | some rest => simp [eq_comm]

/-- A list is encoded exactly when each of its bytes has a code. -/
theorem encodeBits_eq_none_iff {ts : TreeState} {x : List Byte} : encodeBits ts x = none ↔ ∃ b ∈ x, ts.code b = none := by
  induction x with
  | nil => simp [encodeBits]
  | cons b x ih =>
    rw [List.exists_mem_cons_iff, ← ih, encodeBits]
    cases ts.code b with
    | none => simp
    | some p => cases encodeBits ts x <;> simp

/-- Only leaves are encoded (R262, R340). -/
theorem mem_leaves_of_encodeBits {ts : TreeState} {x : List Byte} {bits : List Bool} (h : encodeBits ts x = some bits) :
    ∀ b ∈ x, b ∈ ts.leaves := by
  intro b hb
  by_contra hleaf
  have hnone := encodeBits_eq_none_iff.mpr ⟨b, hb, code_eq_none_iff.mpr hleaf⟩
  exact Option.some_ne_none _ (h.symm.trans hnone)

/-- The encoded bits are as many as the codes have (R341). -/
theorem length_of_encodeBits {ts : TreeState} {x : List Byte} {bits : List Bool} (h : encodeBits ts x = some bits) :
    bits.length = (x.map (codeLength ts)).sum := by
  obtain ⟨bits', hbits', hlen⟩ := exists_encodeBits (mem_leaves_of_encodeBits h)
  obtain rfl := Option.some.inj (h.symm.trans hbits')
  exact hlen

/-- Where code names the code of every byte, the encoded bits are these codes in a row (R341). -/
theorem encodeBits_eq_flatMap {ts : TreeState} {x : List Byte} {code : Byte → List Bool}
    (h : ∀ b ∈ x, ts.code b = some (code b)) : encodeBits ts x = some (x.flatMap code) := by
  induction x with
  | nil => rfl
  | cons b x ih =>
    obtain ⟨hb, hx⟩ := List.forall_mem_cons.mp h
    exact encodeBits_cons_eq_some_iff.mpr ⟨_, _, hb, ih hx, List.flatMap_cons⟩

/-- A single leaf's code is empty: its copies, and nothing else, are encoded, in no bit (R346). -/
theorem encodeBits_leaf_eq_some_iff {c : Byte} {x : List Byte} {bits : List Bool} :
    encodeBits (.tree (.leaf c)) x = some bits ↔ x = List.replicate x.length c ∧ bits = [] := by
  induction x generalizing bits with
  | nil => simp [encodeBits, eq_comm]
  | cons b x ih =>
    simp only [encodeBits_cons_eq_some_iff, ih, TreeState.code, CodeTree.pathTo, List.length_cons, List.replicate_succ,
      List.cons.injEq]
    constructor
    · rintro ⟨p, rest, hp, ⟨hx, rfl⟩, rfl⟩
      split at hp
      next hc => exact ⟨⟨hc.symm, hx⟩, by rw [← Option.some.inj hp, List.append_nil]⟩
      next => cases hp
    · rintro ⟨⟨rfl, hx⟩, rfl⟩
      exact ⟨[], [], if_pos rfl, ⟨hx, rfl⟩, rfl⟩

end Sys2Proof.Machine
end

section
/-! PROOFS. The tree walker finds exactly the symbols whose codes stand, one after the other, at the front of the stream
(R345). -/

namespace Sys2Proof.Machine

/-! ### One symbol -/

/-- The walk once it has come to a node of the tree: a leaf is emitted, and below an inner node it goes on (R345). -/
def walkAt (root : CodeTree) (m : Memory) (base fuel : Nat) (node : CodeTree) (pos todo : Nat) : Walk :=
  match node with
  | .leaf c => (walkTree root m base fuel root pos todo).emit c
  | .node l r => walkTree root m base fuel (.node l r) pos (todo + 1)

@[simp] theorem walkTree_todo_zero (root : CodeTree) (m : Memory) (base fuel : Nat) (node : CodeTree) (pos : Nat) :
    walkTree root m base fuel node pos 0 = .done [] pos := by
  cases fuel <;> rfl

/-- One stream bit leads the walk from a node to its child on that side (R345). -/
theorem walkTree_succ_of_bit {root l r : CodeTree} {m : Memory} {base pos : Nat} {b : Bool}
    (h : m.streamBit? base pos = some b) (fuel todo : Nat) :
    walkTree root m base (fuel + 1) (.node l r) pos (todo + 1) =
      walkAt root m base fuel (if b then r else l) (pos + 1) todo := by
  obtain ⟨byte, hread, hbit⟩ := Option.map_eq_some_iff.mp h
  simp only [walkTree, hread, hbit]
  cases b <;> rfl

/-- A bit of a byte that nothing has written stops the walk (log 11). -/
theorem walkTree_succ_of_no_bit {root node : CodeTree} {m : Memory} {base pos : Nat} (h : m.streamBit? base pos = none)
    (fuel todo : Nat) : walkTree root m base (fuel + 1) node pos (todo + 1) = .unwritten (base + pos / 8) := by
  rw [walkTree, Option.map_eq_none_iff.mp h]

theorem emit_eq_done_iff {c : Byte} {w : Walk} {out : List Byte} {q : Nat} :
    w.emit c = .done out q ↔ ∃ rest, out = c :: rest ∧ w = .done rest q := by
  cases w <;> simp [Walk.emit, eq_comm]

/-- From node t at position pos the stream, of which fuel bits are to go, has the path to the first byte of out next, and the
walk from the root behind that path ends with the rest of out at position q (R345). -/
def EmitsFrom (root : CodeTree) (m : Memory) (base todo : Nat) (t : CodeTree) (fuel pos : Nat) (out : List Byte) (q : Nat) :
    Prop :=
  ∃ c p rest, out = c :: rest ∧ t.pathTo c = some p ∧ m.HoldsBits base pos p ∧ p.length ≤ fuel ∧
    walkTree root m base (fuel - p.length) root (pos + p.length) todo = .done rest q

section EmitsFrom

variable {root : CodeTree} {m : Memory} {base todo fuel pos q : Nat} {out : List Byte}

/-- At a leaf the path is empty: the leaf is emitted without a bit. -/
theorem emitsFrom_leaf_iff {d : Byte} :
    EmitsFrom root m base todo (.leaf d) fuel pos out q ↔
      ∃ rest, out = d :: rest ∧ walkTree root m base fuel root pos todo = .done rest q := by
  constructor
  case mp =>
    rintro ⟨c, p, rest, hout, hpath, _, _, hwalk⟩
    rw [CodeTree.pathTo] at hpath
    split at hpath
    next hc => cases hpath; exact ⟨rest, hc ▸ hout, hwalk⟩
    next => cases hpath
  case mpr =>
    rintro ⟨rest, hout, hwalk⟩
    exact ⟨d, [], rest, hout, if_pos rfl, m.holdsBits_nil _ _, Nat.zero_le _, hwalk⟩

/-- The path from an inner node takes a bit. -/
theorem not_emitsFrom_node_fuel_zero {l r : CodeTree} : ¬ EmitsFrom root m base todo (.node l r) 0 pos out q := by
  rintro ⟨c, p, rest, _, hpath, _, hfuel, _⟩
  rw [List.length_eq_zero_iff.mp (Nat.le_zero.mp hfuel)] at hpath
  exact pathTo_node_ne_nil l r c hpath

/-- At an inner node the next stream bit selects the subtree that the path goes on in. -/
theorem emitsFrom_node_iff {l r : CodeTree} (h : (CodeTree.node l r).leaves.Nodup) :
    EmitsFrom root m base todo (.node l r) (fuel + 1) pos out q ↔
      ∃ b, m.streamBit? base pos = some b ∧ EmitsFrom root m base todo (if b then r else l) fuel (pos + 1) out q := by
  constructor
  case mp =>
    rintro ⟨c, p, rest, hout, hpath, hbits, hfuel, hwalk⟩
    cases p with
    | nil => exact absurd hpath (pathTo_node_ne_nil l r c)
    | cons b p =>
      obtain ⟨hbit, hbits⟩ := Memory.holdsBits_cons.mp hbits
      rw [List.length_cons] at hfuel hwalk
      rw [Nat.add_sub_add_right, Nat.add_comm p.length, ← Nat.add_assoc] at hwalk
      have hpath := (pathTo_node_eq_cons_iff h c b p).mp hpath
      exact ⟨b, hbit, c, p, rest, hout, hpath, hbits, Nat.le_of_succ_le_succ hfuel, hwalk⟩
  case mpr =>
    rintro ⟨b, hbit, c, p, rest, hout, hpath, hbits, hfuel, hwalk⟩
    refine ⟨c, b :: p, rest, hout, (pathTo_node_eq_cons_iff h c b p).mpr hpath, Memory.holdsBits_cons.mpr ⟨hbit, hbits⟩,
      Nat.succ_le_succ hfuel, ?_⟩
    rwa [List.length_cons, Nat.add_sub_add_right, Nat.add_comm p.length, ← Nat.add_assoc]

/-- The walk from a node emits the leaf whose path from there the stream has next, and goes on at the root behind it. -/
theorem walkAt_eq_done_iff {t : CodeTree} (ht : t.leaves.Nodup) :
    walkAt root m base fuel t pos todo = .done out q ↔ EmitsFrom root m base todo t fuel pos out q := by
  induction t generalizing fuel pos with
  | leaf d => rw [emitsFrom_leaf_iff, walkAt, emit_eq_done_iff]
  | node l r ihl ihr =>
    cases fuel with
    | zero => exact iff_of_false nofun not_emitsFrom_node_fuel_zero
    | succ fuel =>
      rw [emitsFrom_node_iff ht]
      cases hbit : m.streamBit? base pos with
      | none => simp [walkAt, walkTree_succ_of_no_bit hbit]
      | some b =>
        obtain ⟨hl, hr, _⟩ := List.nodup_append.mp ht
        rw [walkAt, walkTree_succ_of_bit hbit]
        cases b with
        | false => simpa using ihl hl
        | true => simpa using ihr hr

end EmitsFrom

/-! ### All symbols -/

/-- The walk from the root ends exactly with the symbols whose codes stand, one after the other, at the front of the stream
(R345). -/
theorem walkTree_eq_done_iff {l r : CodeTree} {m : Memory} {base fuel pos todo q : Nat} {out : List Byte}
    (h : (CodeTree.node l r).leaves.Nodup) :
    walkTree (.node l r) m base fuel (.node l r) pos todo = .done out q ↔
      out.length = todo ∧ ∃ bits, encodeBits (.tree (.node l r)) out = some bits ∧ m.HoldsBits base pos bits ∧
        bits.length ≤ fuel ∧ q = pos + bits.length := by
  induction todo generalizing fuel pos out with
  | zero =>
    rw [walkTree_todo_zero, List.length_eq_zero_iff]
    constructor
    case mp =>
      intro hdone
      obtain ⟨rfl, rfl⟩ := Walk.done.inj hdone
      exact ⟨rfl, [], rfl, m.holdsBits_nil _ _, Nat.zero_le _, rfl⟩
    case mpr =>
      rintro ⟨rfl, bits, hbits, _, _, rfl⟩
      cases hbits
      rfl
  | succ todo ih =>
    have hsymbol : walkTree (.node l r) m base fuel (.node l r) pos (todo + 1) = .done out q ↔
        EmitsFrom (.node l r) m base todo (.node l r) fuel pos out q := walkAt_eq_done_iff h
    rw [hsymbol]
    constructor
    case mp =>
      rintro ⟨c, p, rest, rfl, hpath, hp, hfuel, hwalk⟩
      obtain ⟨hlen, bits, hbits, hheld, hfits, rfl⟩ := ih.mp hwalk
      refine ⟨congrArg (· + 1) hlen, p ++ bits, encodeBits_cons_eq_some_iff.mpr ⟨p, bits, hpath, hbits, rfl⟩,
        Memory.holdsBits_append.mpr ⟨hp, hheld⟩, ?_, ?_⟩
      · rw [List.length_append]; omega
      · rw [List.length_append, Nat.add_assoc]
    case mpr =>
      rintro ⟨hlen, bits, hbits, hheld, hfits, hq⟩
      cases out with
      | nil => cases hlen
      | cons c rest =>
        obtain ⟨p, bits, hpath, hrest, rfl⟩ := encodeBits_cons_eq_some_iff.mp hbits
        obtain ⟨hp, hheld⟩ := Memory.holdsBits_append.mp hheld
        rw [List.length_append] at hfits hq
        exact ⟨c, p, rest, rfl, hpath, hp, by omega,
          ih.mpr ⟨Nat.succ.inj hlen, bits, hrest, hheld, by omega, by omega⟩⟩

/-- A walk over a stream whose bytes have all been written does not stop at one of them (log 11). -/
theorem walkTree_ne_unwritten {root node : CodeTree} {m : Memory} {base n fuel pos todo : Nat} (hw : m.Written base n)
    (hstream : pos + fuel ≤ 8 * n) : ∀ a, walkTree root m base fuel node pos todo ≠ .unwritten a := by
  induction fuel generalizing node pos todo with
  | zero => cases todo <;> exact fun _ => nofun
  | succ fuel ih =>
    cases todo with
    | zero => exact fun _ => nofun
    | succ todo =>
      rw [walkTree]
      split
      next hread => exact absurd hread (hw _ (by omega))
      next =>
        split
        next =>
          have hrest := ih (node := root) (pos := pos + 1) (todo := todo) (by omega)
          cases hwalk : walkTree root m base fuel root (pos + 1) todo with
          | done out q => exact fun _ => nofun
          | exhausted => exact fun _ => nofun
          | unwritten a' => exact absurd hwalk (hrest a')
        next => exact ih (by omega)

end Sys2Proof.Machine
end

section
/-! PROOFS. ENT_ENC and ENT_DEC: what each writes, the round trip, and their errors in order (R340-R350). -/

namespace Sys2Proof.Machine

/-! ### A success (R173) -/

/-- A command that goes on without ERR ended in a success (R173, R177). -/
theorem exists_ok_of_exec {i : Instr} {s t : State} (h : exec i s = .next t) (ht : t.err = false) :
    ∃ e, verdictOf i s = .ok e ∧ t = finish (applyOk e s) := by
  rw [exec_eq, completeWith_next_iff] at h
  rcases h with hok | ⟨c, _, rfl⟩
  case inl => exact hok
  case inr => exact absurd ht (by simp)

/-! ### ENT_ENC (R340-R343) -/

/-- ENT_ENC's verdict over valid operands and a readable input, by what TREE encodes of it (R340, R341). -/
theorem entEncVerdict_of_holds {s : State} {x : List Byte} (hops : CoderOperands s) (hvalid : s.tree ≠ .invalid)
    (hlen : x.length = s.len.toNat) (hx : s.mem.Holds s.src.toNat x) :
    entEncVerdict s = (encodeBits s.tree x).elim (.err .symAbsent) fun bits =>
      if ceil8 bits.length ≤ s.dstCap.toNat then
        .ok { dst := s.dst.toNat, out := packBits bits, outLen := ceil8 bits.length, outBits := bits.length }
      else .err .capOverflow := by
  rw [entEncVerdict, checked_of_none ((operandChecks_entEnc_none_iff s).mpr ⟨hops, hvalid⟩)]
  by_cases hempty : s.tree = .empty ∧ 0 < s.len.toNat
  case pos =>
    obtain ⟨b, hb⟩ := List.exists_mem_of_length_pos (hlen ▸ hempty.right)
    have hnone : encodeBits s.tree x = none := encodeBits_eq_none_iff.mpr ⟨b, hb, by rw [hempty.left]; rfl⟩
    rw [if_pos hempty, hnone, Option.elim_none]
  case neg =>
    rw [if_neg hempty, Verdict.withInput_of_holds hx hlen]
    cases encodeBits s.tree x with
    | none => rfl
    | some bits => rfl

/-- Settles O50: where every byte has a code, the encoded bits are the codes in a row, and ENT_ENC writes them packed. -/
theorem entEncWritesThePackedCodes : Obligations.EntEncWritesThePackedCodes := by
  unfold Obligations.EntEncWritesThePackedCodes
  intro s x code hops hvalid hlen hx hcodes hcap
  refine ⟨_, exec_entEnc hops hvalid hlen hx (encodeBits_eq_flatMap hcodes) hcap, Memory.holds_writeBytes _ _ _,
    Memory.sameOutside_writeBytes _ _ _ _ (packBits_length _).le, rfl⟩

/-! ### ENT_DEC (R344-R349) -/

/-- With a legal model ENT_DEC decodes exactly the USIZE symbols whose codes stand at the front of its stream, one after the
other: none for EMPTY, and a single leaf in no bit (R345-R347). -/
theorem entDecWalk_eq_done_iff {s : State} {out : List Byte} {pos : Nat} (hvalid : s.tree ≠ .invalid) (hwf : s.tree.wf) :
    entDecWalk s = .done out pos ↔
      out.length = s.usize.toNat ∧ ∃ bits, encodeBits s.tree out = some bits ∧ s.mem.HoldsBits s.src.toNat 0 bits ∧
        bits.length ≤ 8 * s.len.toNat ∧ pos = bits.length := by
  rw [entDecWalk]
  cases htree : s.tree with
  | invalid => exact absurd htree hvalid
  | empty =>
    constructor
    case mp =>
      dsimp only
      intro hdone
      split at hdone
      next hzero =>
        obtain ⟨rfl, rfl⟩ := Walk.done.inj hdone
        exact ⟨hzero.symm, [], rfl, s.mem.holdsBits_nil _ _, Nat.zero_le _, rfl⟩
      next => cases hdone
    case mpr =>
      rintro ⟨hlen, bits, hbits, _, _, rfl⟩
      obtain rfl := eq_nil_of_encodeBits_empty hbits
      cases hbits
      exact if_pos hlen.symm
  | tree t =>
    cases t with
    | leaf c =>
      simp only [encodeBits_leaf_eq_some_iff, Walk.done.injEq]
      constructor
      case mp =>
        rintro ⟨rfl, rfl⟩
        rw [List.length_replicate]
        exact ⟨rfl, [], ⟨rfl, rfl⟩, s.mem.holdsBits_nil _ _, Nat.zero_le _, rfl⟩
      case mpr =>
        rintro ⟨hlen, bits, ⟨hout, rfl⟩, _, _, rfl⟩
        exact ⟨by rw [hout, hlen], rfl⟩
    | node l r =>
      rw [htree] at hwf
      simpa only [Nat.zero_add] using walkTree_eq_done_iff (pos := 0) hwf

/-- ENT_DEC over valid operands, where the walk ends (R348). -/
theorem exec_entDec {s : State} {out : List Byte} {pos : Nat} (hops : CoderOperands s) (hvalid : s.tree ≠ .invalid)
    (hcap : s.usize.toNat ≤ s.dstCap.toNat) (hwalk : entDecWalk s = .done out pos) :
    exec .entDec s = .next
      { okState s s.usize (BitVec.ofNat 32 pos) with mem := s.mem.writeBytes s.dst.toNat out } := by
  have hpass := (operandChecks_entDec_none_iff s).mpr ⟨hops, hvalid, hcap⟩
  rw [exec_eq, verdictOf, entDecVerdict, checked_of_none hpass, hwalk]
  dsimp only
  rw [completeWith_ok, finish_applyOk, ofNat_toNat_word]
  rfl

/-- ENT_DEC of a stream that begins with the codes of x, one after the other, writes x (R345, R350). -/
theorem exec_entDec_of_holdsBits {s : State} {x : List Byte} {bits : List Bool} (hops : CoderOperands s)
    (hvalid : s.tree ≠ .invalid) (hwf : s.tree.wf) (hlen : x.length = s.usize.toNat) (hcap : x.length ≤ s.dstCap.toNat)
    (hbits : encodeBits s.tree x = some bits) (hheld : s.mem.HoldsBits s.src.toNat 0 bits)
    (hfits : bits.length ≤ 8 * s.len.toNat) :
    exec .entDec s = .next
      { okState s s.usize (BitVec.ofNat 32 bits.length) with mem := s.mem.writeBytes s.dst.toNat x } :=
  exec_entDec hops hvalid (hlen ▸ hcap) ((entDecWalk_eq_done_iff hvalid hwf).mpr ⟨hlen, bits, hbits, hheld, hfits, rfl⟩)

/-- Settles O51: what the stream begins with is what the walk decodes. -/
theorem entDecDecodesTheCodes : Obligations.EntDecDecodesTheCodes := by
  unfold Obligations.EntDecDecodesTheCodes
  intro s x stream code hops hvalid hwf husize hcap hcodes hsize hfits hstream hbits
  have hroom : (x.flatMap code).length ≤ 8 * stream.length := hsize ▸ le_ceil8 _
  have hheld := (hstream.holdsBits_iff hroom).mpr hbits
  refine ⟨_, exec_entDec_of_holdsBits hops hvalid hwf husize.symm hcap (encodeBits_eq_flatMap hcodes) hheld (by omega),
    Memory.holds_writeBytes _ _ _, Memory.sameOutside_writeBytes _ _ _ _ le_rfl, rfl⟩

/-- With USIZE = 0 the walk ends before its first bit, for any TREE other than INVALID (R347). -/
theorem entDecWalk_of_usize_zero {s : State} (hvalid : s.tree ≠ .invalid) (h : s.usize.toNat = 0) :
    entDecWalk s = .done [] 0 := by
  rw [entDecWalk]
  cases htree : s.tree with
  | invalid => exact absurd htree hvalid
  | empty => exact if_pos h
  | tree t =>
    cases t with
    | leaf c => simp only [h, List.replicate_zero]
    | node l r => simp only [h, walkTree_todo_zero]

/-- Settles O53: in both cases the walk reads no bit. -/
theorem entDecWhereNoBitIsRead : Obligations.EntDecWhereNoBitIsRead := by
  unfold Obligations.EntDecWhereNoBitIsRead
  refine ⟨fun s c hops hleaf hcap => ?leaf, fun s hops hvalid hzero => ?zero⟩
  case leaf =>
    have hwalk : entDecWalk s = .done (List.replicate s.usize.toNat c) 0 := by rw [entDecWalk, hleaf]
    have hvalid : s.tree ≠ .invalid := hleaf ▸ nofun
    exact ⟨_, exec_entDec hops hvalid hcap hwalk, Memory.holds_writeBytes _ _ _,
      Memory.sameOutside_writeBytes _ _ _ _ List.length_replicate.le, rfl⟩
  case zero =>
    have hcount : s.usize.toNat = 0 := by rw [hzero]; rfl
    rw [exec_entDec hops hvalid (hcount ▸ Nat.zero_le _) (entDecWalk_of_usize_zero hvalid hcount), hzero]
    rfl

/-- Settles O54: the walk ends with USIZE symbols, and its position is the number of their codes' bits. -/
theorem entDecCountsItsBits : Obligations.EntDecCountsItsBits := by
  unfold Obligations.EntDecCountsItsBits
  intro s t hwf hlegal _ h ht
  obtain ⟨e, hok, rfl⟩ := exists_ok_of_exec h ht
  obtain ⟨⟨⟨hin, _⟩, hvalid, _⟩, y, pos, hwalk, rfl⟩ := entDecVerdict_eq_ok hok
  obtain ⟨hlen, bits, hbits, _, hfits, rfl⟩ := (entDecWalk_eq_done_iff hvalid hwf).mp hwalk
  have hcount : (BitVec.ofNat 32 bits.length).toNat = bits.length := by
    obtain ⟨_, hmem, _⟩ := hlegal
    refine Nat.mod_eq_of_lt ?_
    rcases hin with hzero | hregion <;> omega
  refine ⟨y, hlen, Memory.holds_writeBytes _ _ _, Memory.sameOutside_writeBytes _ _ _ _ hlen.le,
    mem_leaves_of_encodeBits hbits, ofNat_toNat_word _, ?_, ?_⟩
  · exact hcount.trans (length_of_encodeBits hbits)
  · exact hcount.trans_le hfits

/-! ### The round trip (R350) -/

/-- Settles O52: the bytes that ENT_ENC left at DST, and that the second state holds at SRC, begin with the codes of x. -/
theorem entropyRoundTrip : Obligations.EntropyRoundTrip := by
  unfold Obligations.EntropyRoundTrip
  intro s t v x hops hvalid hwf _ hlen hx h ht hopsDec htree husize hvlen hcapDec hcopy
  obtain ⟨e, hok, rfl⟩ := exists_ok_of_exec h ht
  obtain ⟨_, x', bits, hlen', hx', hbits, hcap, rfl⟩ := entEncVerdict_eq_ok hok
  obtain rfl := hx.unique hx' (hlen.trans hlen'.symm)
  have hsize : (BitVec.ofNat 32 (ceil8 bits.length)).toNat = (packBits bits).length := by
    rw [packBits_length]
    exact Nat.mod_eq_of_lt (hcap.trans_lt s.dstCap.isLt)
  have hstream : v.mem.Holds v.src.toNat (packBits bits) := fun k hk =>
    (hcopy k (hk.trans_eq hsize.symm)).trans (Memory.holds_writeBytes _ _ _ k hk)
  have hroom : bits.length ≤ 8 * (packBits bits).length := packBits_length bits ▸ le_ceil8 _
  have hheld := (hstream.holdsBits_iff hroom).mpr (streamBits_packBits bits)
  have hfits : bits.length ≤ 8 * v.len.toNat := by
    rw [hvlen]
    exact hsize ▸ hroom
  exact ⟨_, exec_entDec_of_holdsBits hopsDec (htree ▸ hvalid) (htree ▸ hwf) (hlen.trans (congrArg _ husize.symm)) hcapDec
    (htree ▸ hbits) hheld hfits, rfl, Memory.holds_writeBytes _ _ _, rfl⟩

/-! ### The errors in their order (R340, R344) -/

/-- The checks that ENT_ENC and ENT_DEC share come first, in the order of R340 and R344. -/
theorem operandChecks_coder_eq {i : Instr} (s : State) (hi : i = .entEnc ∨ i = .entDec) :
    ∃ rest, operandChecks i s =
      (inputOk .entEnc s, .addrRange) :: (footprintOk .entEnc s, .addrRange) :: (overlapPermitted .entEnc s, .overlap) ::
        (s.tree.valid, .noTree) :: rest := by
  rcases hi with rfl | rfl
  · exact ⟨[], rfl⟩
  · exact ⟨[(decide (s.usize.toNat ≤ s.dstCap.toNat), .capOverflow)], rfl⟩

/-- An input or output region outside MEM is ADDR_RANGE. -/
theorem exec_coder_addrRange {i : Instr} {s : State} (hi : i = .entEnc ∨ i = .entDec)
    (h : ¬ (InMem s s.src.toNat s.len.toNat ∧ InMem s s.dst.toNat s.dstCap.toNat)) :
    exec i s = .next (errState s .addrRange) := by
  obtain ⟨_, hchecks⟩ := operandChecks_coder_eq s hi
  apply exec_of_failing
  rw [hchecks]
  by_cases hin : InMem s s.src.toNat s.len.toNat
  · have hout : ¬ InMem s s.dst.toNat s.dstCap.toNat := fun hout => h ⟨hin, hout⟩
    rw [firstFailing_cons, if_pos ((inputOk_iff .entEnc s).mpr hin), firstFailing_cons,
      if_neg (mt (footprintOk_iff .entEnc s).mp hout)]
  · rw [firstFailing_cons, if_neg (mt (inputOk_iff .entEnc s).mp hin)]

/-- Overlapping regions are OVERLAP, once both lie inside MEM. -/
theorem exec_coder_overlap {i : Instr} {s : State} (hi : i = .entEnc ∨ i = .entDec)
    (hin : InMem s s.src.toNat s.len.toNat) (hout : InMem s s.dst.toNat s.dstCap.toNat)
    (hapart : ¬ Apart s.src.toNat s.len.toNat s.dst.toNat s.dstCap.toNat) : exec i s = .next (errState s .overlap) := by
  obtain ⟨_, hchecks⟩ := operandChecks_coder_eq s hi
  apply exec_of_failing
  rw [hchecks, firstFailing_cons, if_pos ((inputOk_iff .entEnc s).mpr hin), firstFailing_cons,
    if_pos ((footprintOk_iff .entEnc s).mpr hout), firstFailing_cons,
    if_neg (mt (overlapPermitted_coder_iff s (by simp)).mp hapart)]

/-- INVALID is NO_TREE, once the regions are accepted. -/
theorem exec_coder_noTree {i : Instr} {s : State} (hi : i = .entEnc ∨ i = .entDec) (hops : CoderOperands s)
    (h : s.tree = .invalid) : exec i s = .next (errState s .noTree) := by
  obtain ⟨_, hchecks⟩ := operandChecks_coder_eq s hi
  obtain ⟨hin, hout, hapart⟩ := hops
  have hvalid : ¬ s.tree.valid = true := by rw [TreeState.valid_iff, not_not]; exact h
  apply exec_of_failing
  rw [hchecks, firstFailing_cons, if_pos ((inputOk_iff .entEnc s).mpr hin), firstFailing_cons,
    if_pos ((footprintOk_iff .entEnc s).mpr hout), firstFailing_cons,
    if_pos ((overlapPermitted_coder_iff s (by simp)).mpr hapart), firstFailing_cons, if_neg hvalid]

/-- An input byte without a code is SYM_ABSENT, once the operand checks hold (R340). -/
theorem exec_entEnc_symAbsent {s : State} {x : List Byte} (hops : CoderOperands s) (hvalid : s.tree ≠ .invalid)
    (hlen : x.length = s.len.toNat) (hx : s.mem.Holds s.src.toNat x) (h : ∃ b ∈ x, s.tree.code b = none) :
    exec .entEnc s = .next (errState s .symAbsent) := by
  rw [exec_eq, verdictOf, entEncVerdict_of_holds hops hvalid hlen hx, encodeBits_eq_none_iff.mpr h, Option.elim_none,
    completeWith_err]

/-- Codes that take more bytes than the capacity are CAP_OVERFLOW, once every byte has one (R340). -/
theorem exec_entEnc_capOverflow {s : State} {x : List Byte} {bits : List Bool} (hops : CoderOperands s)
    (hvalid : s.tree ≠ .invalid) (hlen : x.length = s.len.toNat) (hx : s.mem.Holds s.src.toNat x)
    (hbits : encodeBits s.tree x = some bits) (h : s.dstCap.toNat < ceil8 bits.length) :
    exec .entEnc s = .next (errState s .capOverflow) := by
  rw [exec_eq, verdictOf, entEncVerdict_of_holds hops hvalid hlen hx, hbits, Option.elim_some, if_neg h.not_ge,
    completeWith_err]

/-- USIZE above the capacity is ENT_DEC's CAP_OVERFLOW, once its other operand checks hold (R344). -/
theorem exec_entDec_capOverflow {s : State} (hops : CoderOperands s) (hvalid : s.tree ≠ .invalid)
    (h : s.dstCap.toNat < s.usize.toNat) : exec .entDec s = .next (errState s .capOverflow) := by
  obtain ⟨hin, hout, hapart⟩ := hops
  have hroom : ¬ decide (s.usize.toNat ≤ s.dstCap.toNat) = true := by rw [decide_eq_true_iff]; omega
  apply exec_of_failing
  rw [operandChecks, firstFailing_cons, if_pos ((inputOk_iff .entDec s).mpr hin), firstFailing_cons,
    if_pos ((footprintOk_iff .entDec s).mpr hout), firstFailing_cons,
    if_pos ((overlapPermitted_coder_iff s (by simp)).mpr hapart), firstFailing_cons,
    if_pos ((TreeState.valid_iff _).mpr hvalid), firstFailing_cons, if_neg hroom]

/-- A walk that fails is DECODE_FAIL, once the operand checks hold (R344). -/
theorem exec_entDec_decodeFail {s : State} (hops : CoderOperands s) (hvalid : s.tree ≠ .invalid)
    (hcap : s.usize.toNat ≤ s.dstCap.toNat) (hwalk : entDecWalk s = .exhausted) :
    exec .entDec s = .next (errState s .decodeFail) := by
  rw [exec_eq, verdictOf, entDecVerdict, checked_of_none ((operandChecks_entDec_none_iff s).mpr ⟨hops, hvalid, hcap⟩), hwalk,
    completeWith_err]

/-- Over a readable stream the walk fails where no USIZE symbols have their codes, one after the other, at its front
(R345). -/
theorem entDecWalk_exhausted {s : State} {l r : CodeTree} {x : List Byte} {code : Byte → List Bool}
    (htree : s.tree = .tree (.node l r)) (hwf : s.tree.wf) (hlen : x.length = s.len.toNat) (hx : s.mem.Holds s.src.toNat x)
    (hfail : ∀ y : List Byte, y.length = s.usize.toNat → (∀ b ∈ y, s.tree.code b = some (code b)) →
      ¬ y.flatMap code <+: streamBits x (8 * s.len.toNat))
    (hcodes : ∀ b ∈ s.tree.leaves, s.tree.code b = some (code b)) : entDecWalk s = .exhausted := by
  have hvalid : s.tree ≠ .invalid := htree ▸ nofun
  cases hwalk : entDecWalk s with
  | exhausted => rfl
  | unwritten a =>
    rw [entDecWalk, htree] at hwalk
    exact absurd hwalk (walkTree_ne_unwritten (hlen ▸ hx.written) (Nat.zero_add _).le a)
  | done y pos =>
    obtain ⟨hcount, bits, hbits, hheld, hfits, _⟩ := (entDecWalk_eq_done_iff hvalid hwf).mp hwalk
    have hy : ∀ b ∈ y, s.tree.code b = some (code b) := fun b hb => hcodes b (mem_leaves_of_encodeBits hbits b hb)
    obtain rfl := Option.some.inj (hbits.symm.trans (encodeBits_eq_flatMap hy))
    have hfront : streamBits x (y.flatMap code).length = y.flatMap code := (hx.holdsBits_iff (hlen ▸ hfits)).mp hheld
    exact absurd (hfront ▸ streamBits_prefix x hfits) (hfail y hcount hy)

/-- Settles O55: one lemma for each error, in the order of the checks. -/
theorem entropyCoderErrorsInOrder : Obligations.EntropyCoderErrorsInOrder := by
  unfold Obligations.EntropyCoderErrorsInOrder
  refine ⟨decode_encode .entEnc, decode_encode .entDec, fun s x code =>
    ⟨fun h => ?addrRange, fun hin hout h => ?overlap, fun hops h => ?noTree,
      fun hops hvalid hlen hx => ⟨?symAbsent, ?capacity⟩, exec_entDec_capOverflow, fun hops hcap hempty hpos => ?empty, ?walk⟩⟩
  case addrRange => exact ⟨exec_coder_addrRange (.inl rfl) h, exec_coder_addrRange (.inr rfl) h⟩
  case overlap => exact ⟨exec_coder_overlap (.inl rfl) hin hout h, exec_coder_overlap (.inr rfl) hin hout h⟩
  case noTree => exact ⟨exec_coder_noTree (.inl rfl) hops h, exec_coder_noTree (.inr rfl) hops h⟩
  case symAbsent => exact exec_entEnc_symAbsent hops hvalid hlen hx
  case capacity =>
    exact fun hcodes h => exec_entEnc_capOverflow hops hvalid hlen hx (encodeBits_eq_flatMap hcodes) h
  case empty =>
    have hwalk : entDecWalk s = .exhausted := by rw [entDecWalk, hempty]; exact if_neg hpos.ne'
    exact exec_entDec_decodeFail hops (hempty ▸ nofun) hcap hwalk
  case walk =>
    intro l r hops hcap htree hwf hlen hx hfail hcodes
    exact exec_entDec_decodeFail hops (htree ▸ nofun) hcap (entDecWalk_exhausted htree hwf hlen hx hfail hcodes)

end Sys2Proof.Machine
end

section
/-! PROOFS. Power-on reset and soft reset: the values they leave, and what an aborted command's footprint holds (R410-R414). -/

namespace Sys2Proof.Machine

/-! ### The reset state (R411, R412) -/

theorem reset_freq : State.reset.freq = FreqTable.zero := rfl

/-- At reset no symbol has a code (R62, R412). -/
theorem reset_code (c : Byte) : State.reset.tree.code c = none := rfl

/-- The reset state is idle with nothing to do: a step keeps it (R411). -/
theorem step_reset : step State.reset = .next State.reset := by
  rw [step_of_inbox_nil rfl, completeStep_of_idle rfl]

/-- Settles O25: the stored values and the words of the flags are read off the reset state; the code-query registers answer for
a symbol without a code and with count 0. -/
theorem resetLeavesTheTabulatedValues : Obligations.ResetLeavesTheTabulatedValues := by
  unfold Obligations.ResetLeavesTheTabulatedValues
  have hfreq : ∀ b, State.reset.freq.at b = 0#32 := by
    rw [reset_freq]
    exact FreqTable.at_zero
  exact ⟨rfl, rfl, rfl, rfl, rfl, rfl, rfl, rfl, rfl, rfl, rfl, rfl, rfl, rfl, rfl, rfl, rfl, rfl, rfl, rfl, hfreq, rfl, rfl,
    rfl, rfl, rfl, rfl, rfl, rfl, rfl, codeqLenWord_of_none (reset_code _), hfreq _,
    fun k => codeqBitsWord_of_none (reset_code _) k, step_reset⟩

/-- Settles O27: power-on reset is `resetRegisters` over an empty MEM, with no bus response. -/
theorem powerOnGivesTheResetState : Obligations.PowerOnGivesTheResetState := fun _ => rfl

/-- Settles O56: at reset MEM is empty, TREE INVALID and FREQ zero, and the flags are those of a core that has run nothing. -/
theorem invariantHoldsAtReset : Obligations.InvariantHoldsAtReset where
  paramsLegal := by decide
  memCanonical := State.reset_mem_wf
  memInRange := nofun
  treeLegal := List.nodup_nil
  flagsLegal := List.mem_cons_self
  errCodeIff := by decide
  errCodeLe := Nat.zero_le _
  lastOpIsOpcode := rfl
  errRecord := nofun
  freqInRange b := by
    rw [reset_freq, FreqTable.at_zero]
    exact Nat.zero_le _

/-! ### Soft reset (R414) -/

/-- With BUSY = 0 no command is aborted. -/
theorem abortRegion_of_idle {s : State} (h : s.busy = false) : abortRegion s = (0, 0) := if_neg (ne_true_of_eq_false h)

/-- An illegal word has no footprint. -/
theorem abortRegion_of_badOpcode {s : State} (h : decode s.cmd = .badOpcode) : abortRegion s = (0, 0) := by
  rw [abortRegion, h]
  exact ite_self _

/-- The bytes that the abort of a running command leaves open are its footprint inside MEM. -/
theorem abortRegion_of_command {s : State} {i : Instr} (hbusy : s.busy = true) (h : decode s.cmd = .command i) :
    abortRegion s = clipRegion s.params (footprint i s) := by
  rw [abortRegion, if_pos hbusy, h]

/-- A soft reset writes free bytes over the aborted footprint. -/
theorem softReset_mem (s : State) :
    (softReset s).mem = s.mem.writeBytes (abortRegion s).1 (freeBytes s.draws (abortRegion s).2) := rfl

/-- A soft reset that aborts no footprint keeps MEM. -/
theorem softReset_mem_of_no_region {s : State} (h : abortRegion s = (0, 0)) : (softReset s).mem = s.mem := by
  rw [softReset_mem, h]
  rfl

/-- An address is in the part of a region inside MEM exactly when it is in the region and below MEM_SIZE. -/
theorem clipRegion_covers_iff (p : Params) (r : Nat × Nat) (a : Nat) :
    ((clipRegion p r).1 ≤ a ∧ a < (clipRegion p r).1 + (clipRegion p r).2) ↔ r.1 ≤ a ∧ a < r.1 + r.2 ∧ a < p.memSize := by
  simp only [clipRegion]
  omega

/-- After a soft reset every byte of the aborted region reads as some byte. -/
theorem softReset_read_inside {s : State} {a : Nat} (hlo : (abortRegion s).1 ≤ a)
    (hhi : a < (abortRegion s).1 + (abortRegion s).2) : ∃ b, (softReset s).mem.read a = some b := by
  obtain ⟨k, rfl⟩ := Nat.exists_eq_add_of_le hlo
  have hwritten := (Memory.holds_writeBytes s.mem (abortRegion s).1 (freeBytes s.draws (abortRegion s).2)).written
  rw [freeBytes_length] at hwritten
  exact Option.ne_none_iff_exists'.mp (hwritten k (Nat.lt_of_add_lt_add_left hhi))

/-- A soft reset keeps every byte outside the aborted region. -/
theorem softReset_read_outside {s : State} {a : Nat}
    (h : ¬ ((abortRegion s).1 ≤ a ∧ a < (abortRegion s).1 + (abortRegion s).2)) :
    (softReset s).mem.read a = s.mem.read a := by
  refine Memory.read_writeBytes_outside _ _ _ _ ?_
  rw [freeBytes_length]
  omega

/-- Settles O26: the CTRL write answers with `softReset s`, and the free bytes fill the footprint clipped at MEM_SIZE. -/
theorem softResetAbortsAndResets : Obligations.SoftResetAbortsAndResets := by
  unfold Obligations.SoftResetAbortsAndResets
  intro s v hv
  refine ⟨answer .written (softReset s), by rw [hostAccess_wrTxn, regWrite_ctrl_of_set s hv], rfl,
    fun hidle => softReset_mem_of_no_region (abortRegion_of_idle hidle),
    fun hbad => softReset_mem_of_no_region (abortRegion_of_badOpcode hbad), fun i hbusy hcmd => ?_⟩
  have hcovers := clipRegion_covers_iff s.params (footprint i s)
  rw [← abortRegion_of_command hbusy hcmd] at hcovers
  refine ⟨fun a hlo hhi hmem => ?inside, fun a hout => ?outside⟩
  case inside =>
    obtain ⟨hlo', hhi'⟩ := (hcovers a).mpr ⟨hlo, hhi, hmem⟩
    exact softReset_read_inside hlo' hhi'
  case outside =>
    refine softReset_read_outside ?_
    rw [hcovers]
    omega

end Sys2Proof.Machine
end

section
/-! PROOFS. When a command or a host read stops: never over written input, and by name at the first unwritten byte that it
consults or outside a window (R101, R384, R413; logs 3, 7, 10, 11, 12). -/

namespace Sys2Proof.Machine

/-! ### Verdicts that do not stop -/

/-- A verdict with which the command completes: a success or an error, and no stop at an unwritten byte. -/
def Verdict.Completes (v : Verdict) : Prop := ∀ a, v ≠ .unwritten a

theorem Verdict.completes_ok (e : Effects) : (Verdict.ok e).Completes := fun _ => nofun

theorem Verdict.completes_err (c : ErrCode) : (Verdict.err c).Completes := fun _ => nofun

/-- A command goes on exactly when its verdict completes it (R173). -/
theorem goesOn_completeWith_iff (v : Verdict) (s : State) : GoesOn (completeWith v s) ↔ v.Completes := by
  cases v with
  | ok e => exact iff_of_true ⟨_, completeWith_ok e s⟩ (Verdict.completes_ok e)
  | err c => exact iff_of_true ⟨_, completeWith_err c s⟩ (Verdict.completes_err c)
  | unwritten a =>
    refine iff_of_false ?_ fun h => h a rfl
    rintro ⟨t, ht⟩
    cases ht

/-- The operand checks stop nothing. -/
theorem Verdict.Completes.checked {v : Verdict} (h : v.Completes) (i : Instr) (s : State) : (checked i s v).Completes :=
  fun a ha => h a (checked_eq_unwritten ha).right

/-- A command that reads written input completes if it does so whatever the bytes are. -/
theorem Verdict.completes_withInput {m : Memory} {a n : Nat} {k : List Byte → Verdict} (hw : m.Written a n)
    (hk : ∀ x, (k x).Completes) : (Verdict.withInput m a n k).Completes := by
  obtain ⟨x, _, hlen, hx⟩ := Memory.readBytes_of_written hw
  rw [Verdict.withInput_of_holds hx hlen]
  exact hk x

/-- A part of a written region has been written. -/
theorem Memory.Written.part {m : Memory} {a n : Nat} (h : m.Written a n) {d l : Nat} (hfits : d + l ≤ n) :
    m.Written (a + d) l := by
  intro k hk
  rw [Nat.add_assoc]
  exact h (d + k) (by omega)

/-! ### Over written input every command goes on (R378, R413) -/

/-- Both reads of TREE_DES stay inside the LEN bytes of its input (R316, log 10). -/
theorem treeDesVerdict_completes {s : State} (hw : s.mem.Written s.src.toNat s.len.toNat) : (treeDesVerdict s).Completes := by
  refine Verdict.Completes.checked ?_ _ _
  split
  next => exact Verdict.completes_err _
  next hheader =>
    refine Verdict.completes_withInput (hw.part (d := 0) (by omega)) fun h => ?_
    dsimp only
    split
    next => exact Verdict.completes_err _
    next =>
      split
      next => exact Verdict.completes_err _
      next hneed =>
        simp only [sideChannelSize] at hneed
        refine Verdict.completes_withInput (hw.part (by omega)) fun body => ?_
        split
        next => exact Verdict.completes_err _
        next => exact Verdict.completes_ok _

theorem entEncVerdict_completes {s : State} (hw : s.mem.Written s.src.toNat s.len.toNat) : (entEncVerdict s).Completes := by
  refine Verdict.Completes.checked ?_ _ _
  split
  next => exact Verdict.completes_err _
  next =>
    refine Verdict.completes_withInput hw fun x => ?_
    split
    next => exact Verdict.completes_err _
    next =>
      split
      next => exact Verdict.completes_ok _
      next => exact Verdict.completes_err _

/-- Over a written stream the walk ends or fails, for every TREE (log 11). -/
theorem entDecWalk_ne_unwritten {s : State} (hw : s.mem.Written s.src.toNat s.len.toNat) (a : Nat) :
    entDecWalk s ≠ .unwritten a := by
  rw [entDecWalk]
  split
  next => nofun
  next => split <;> nofun
  next => nofun
  next => exact walkTree_ne_unwritten hw (Nat.zero_add _).le a

theorem entDecVerdict_completes {s : State} (hw : s.mem.Written s.src.toNat s.len.toNat) : (entDecVerdict s).Completes := by
  refine Verdict.Completes.checked ?_ _ _
  split
  next => exact Verdict.completes_ok _
  next => exact Verdict.completes_err _
  next a hwalk => exact absurd hwalk (entDecWalk_ne_unwritten hw a)

theorem verdictOf_completes {i : Instr} {s : State} (hw : s.mem.Written (inputRegion i s).1 (inputRegion i s).2) :
    (verdictOf i s).Completes := by
  cases i with
  | nop => exact Verdict.completes_ok _
  | bwtFwd | bwtInv | mtfEnc | mtfDec | hufBuild =>
    exact (Verdict.completes_withInput hw fun _ => Verdict.completes_ok _).checked _ _
  | treeSer =>
    refine Verdict.Completes.checked ?_ _ _
    dsimp only
    split
    next => exact Verdict.completes_ok _
    next => exact Verdict.completes_err _
  | treeDes => exact treeDesVerdict_completes hw
  | entEnc => exact entEncVerdict_completes hw
  | entDec => exact entDecVerdict_completes hw

/-- Settles O9: over written input no command's verdict is a stop. -/
theorem everyCommandGoesOnOverWrittenInput : Obligations.EveryCommandGoesOnOverWrittenInput := by
  unfold Obligations.EveryCommandGoesOnOverWrittenInput
  intro i s hw
  rw [exec_eq, goesOn_completeWith_iff]
  exact verdictOf_completes hw

/-! ### The first unwritten byte that a command consults (logs 3, 10, 11, 12) -/

/-- A command whose operand checks hold stops at the byte at which its own part stops. -/
theorem exec_of_unwritten {i : Instr} {s : State} {v : Verdict} {a : Nat} (hv : verdictOf i s = checked i s v)
    (hpass : firstFailing (operandChecks i s) = none) (hstop : v = .unwritten a) :
    exec i s = .fault (.unwrittenRead a) := by
  rw [exec_eq, hv, checked_of_none hpass, hstop, completeWith_unwritten]

section FirstUnwritten

variable {s : State} {k : Nat}

/-- ENT_ENC with a TREE other than EMPTY reads its whole input before it decides (R340, log 12). -/
theorem exec_entEnc_of_unwritten (hops : CoderOperands s) (hvalid : s.tree ≠ .invalid) (hempty : s.tree ≠ .empty)
    (hk : k < s.len.toNat) (hw : s.mem.Written s.src.toNat k) (hn : s.mem.read (s.src.toNat + k) = none) :
    exec .entEnc s = .fault (.unwrittenRead (s.src.toNat + k)) := by
  refine exec_of_unwritten rfl ((operandChecks_entEnc_none_iff s).mpr ⟨hops, hvalid⟩) ?_
  rw [if_neg fun h => hempty h.left]
  exact Verdict.withInput_of_unwritten hk hw hn

/-- TREE_DES reads its header whole, once LEN holds one (R316, log 10). -/
theorem exec_treeDes_of_unwritten_header (hin : InMem s s.src.toNat s.len.toNat) (hlong : 12 ≤ s.len.toNat) (hk : k < 12)
    (hw : s.mem.Written s.src.toNat k) (hn : s.mem.read (s.src.toNat + k) = none) :
    exec .treeDes s = .fault (.unwrittenRead (s.src.toNat + k)) := by
  refine exec_of_unwritten rfl ((operandChecks_treeDes_none_iff s).mpr hin) ?_
  rw [if_neg hlong.not_gt]
  exact Verdict.withInput_of_unwritten hk hw hn

/-- TREE_DES reads all leaf and shape bytes, once the counts agree and LEN holds the side channel (R316, log 10). -/
theorem exec_treeDes_of_unwritten_body {hd : List Byte} {idx usize L B : Nat} (hin : InMem s s.src.toNat s.len.toNat)
    (hlen : hd.length = 12) (hhd : s.mem.Holds s.src.toNat hd) (hf : headerFields hd = (idx, usize, L, B))
    (hcounts : countsAgree L B = true) (hfits : sideChannelSize L B ≤ s.len.toNat) (hk : k < sideChannelSize L B)
    (hw : s.mem.Written s.src.toNat k) (hn : s.mem.read (s.src.toNat + k) = none) :
    exec .treeDes s = .fault (.unwrittenRead (s.src.toNat + k)) := by
  have hbehind : 12 ≤ k := Nat.not_lt.mp fun hlt => hhd.written k (hlen ▸ hlt) hn
  obtain ⟨j, rfl⟩ := Nat.exists_eq_add_of_le hbehind
  have hlong : ¬ s.len.toNat < 12 := by
    simp only [sideChannelSize] at hfits
    omega
  have hj : j < L + ceil8 B := by
    simp only [sideChannelSize] at hk
    omega
  rw [← Nat.add_assoc] at hn ⊢
  refine exec_of_unwritten rfl ((operandChecks_treeDes_none_iff s).mpr hin) ?_
  rw [if_neg hlong, Verdict.withInput_of_holds hhd hlen]
  simp only [hf]
  rw [if_neg (by simpa using hcounts), if_neg hfits.not_gt]
  exact Verdict.withInput_of_unwritten hj (hw.part le_rfl) hn

end FirstUnwritten

/-- Bits that MEM holds end before its first unwritten byte (R11). -/
theorem Memory.HoldsBits.length_le {m : Memory} {base n : Nat} {bits : List Bool} (h : m.HoldsBits base 0 bits)
    (hn : m.read (base + n) = none) : bits.length ≤ 8 * n := by
  refine Nat.not_lt.mp fun hlt => ?_
  have hbit : m.streamBit? base (0 + 8 * n) = none := by
    rw [Memory.streamBit?, Nat.zero_add, Nat.mul_div_cancel_left n (by decide), hn, Option.map_none]
  rw [h _ hlt, List.getElem?_eq_getElem hlt] at hbit
  cases hbit

/-- Where the bits of the written bytes hold no USIZE codes, the walk stops at the byte behind them (R345, log 11). -/
theorem entDecWalk_of_unwritten {s : State} {l r : CodeTree} {x : List Byte} {code : Byte → List Bool}
    (htree : s.tree = .tree (.node l r)) (hwf : s.tree.wf) (hcodes : ∀ b ∈ s.tree.leaves, s.tree.code b = some (code b))
    (hlen : x.length < s.len.toNat) (hx : s.mem.Holds s.src.toNat x) (hn : s.mem.read (s.src.toNat + x.length) = none)
    (hfail : ∀ y : List Byte, y.length = s.usize.toNat → (∀ b ∈ y, s.tree.code b = some (code b)) →
      ¬ y.flatMap code <+: streamBits x (8 * x.length)) :
    entDecWalk s = .unwritten (s.src.toNat + x.length) := by
  have hends : (∃ out q, entDecWalk s = .done out q) ∨ entDecWalk s = .unwritten (s.src.toNat + x.length) := by
    rw [entDecWalk, htree]
    exact walkTree_of_unwritten hx.written hn (by omega) (Nat.zero_le _)
  refine hends.resolve_left ?_
  rintro ⟨y, q, hdone⟩
  obtain ⟨hcount, bits, hbits, hheld, _, _⟩ := (entDecWalk_eq_done_iff (htree ▸ nofun) hwf).mp hdone
  have hy : ∀ b ∈ y, s.tree.code b = some (code b) := fun b hb => hcodes b (mem_leaves_of_encodeBits hbits b hb)
  obtain rfl := Option.some.inj (hbits.symm.trans (encodeBits_eq_flatMap hy))
  have hfits := hheld.length_le hn
  have hfront : streamBits x (y.flatMap code).length = y.flatMap code := (hx.holdsBits_iff hfits).mp hheld
  exact hfail y hcount hy (hfront ▸ streamBits_prefix x hfits)

/-! ### Outside a window (R101, log 7) -/

/-- A transaction that starts outside its window is not decoded. -/
theorem hostAccess_of_outside {x : Txn} {s : State} (h : windowSize s.params x.window ≤ x.offset) :
    hostAccess x s = .fault (.outsideWindow x.window x.offset) := by
  unfold hostAccess
  rw [if_pos h]

/-- An aligned MEM transaction that runs past MEM_SIZE is not decoded. -/
theorem hostAccess_of_past_end {x : Txn} {s : State} (hwin : x.window = .mem) (hwf : x.wf)
    (hstart : x.offset < s.params.memSize) (hend : s.params.memSize < x.offset + x.width) :
    hostAccess x s = .fault (.outsideWindow .mem s.params.memSize) := by
  have hin : ¬ windowSize s.params x.window ≤ x.offset := by
    rw [hwin]
    exact hstart.not_ge
  unfold hostAccess
  rw [if_neg hin, if_neg (not_not.mpr hwf)]
  simp only [hwin]
  rw [if_pos hend]

/-! ### The stops -/

/-- Settles O60: one lemma for each kind of stop; the five commands that read their whole input at once share one argument. -/
theorem unwrittenAndUndecodedAccessesStop : Obligations.UnwrittenAndUndecodedAccessesStop := by
  unfold Obligations.UnwrittenAndUndecodedAccessesStop
  refine ⟨fun s k hk hw hn => ?commands, ?entDec, ?hostRead, fun s x => hostAccess_of_outside,
    fun s x => hostAccess_of_past_end⟩
  case commands =>
    have hstop {f : List Byte → Verdict} :
        Verdict.withInput s.mem s.src.toNat s.len.toNat f = .unwritten (s.src.toNat + k) :=
      Verdict.withInput_of_unwritten hk hw hn
    refine ⟨fun hmax hops => ⟨?_, fun hidx => ?_⟩, fun hops => ⟨?_, ?_⟩, fun hin => ?_,
      fun hops hvalid hempty => exec_entEnc_of_unwritten hops hvalid hempty hk hw hn,
      fun hin hlong hheader => exec_treeDes_of_unwritten_header hin hlong hheader hw hn, ?body⟩
    · exact exec_of_unwritten rfl ((operandChecks_bwtFwd_none_iff s).mpr ⟨hmax, hops⟩) hstop
    · exact exec_of_unwritten rfl ((operandChecks_bwtInv_none_iff s).mpr ⟨hmax, hops, fun _ => hidx⟩) hstop
    · exact exec_of_unwritten rfl ((operandChecks_mtfEnc_none_iff s).mpr hops) hstop
    · exact exec_of_unwritten rfl ((operandChecks_mtfDec_none_iff s).mpr hops) hstop
    · exact exec_of_unwritten rfl ((operandChecks_hufBuild_none_iff s).mpr hin) hstop
    case body =>
      intro hd L B hin hlen hhd hL hB hmax hshape hfits hbefore
      have hf := headerFields_eq hlen
      rw [← hL, ← hB] at hf
      exact exec_treeDes_of_unwritten_body hin hlen hhd hf ((countsAgree_iff L B).mpr ⟨hmax, by omega⟩) hfits hbefore hw hn
  case entDec =>
    intro s l r x code hops hcap htree hwf hcodes hlen hx hn hfail
    refine exec_of_unwritten rfl ((operandChecks_entDec_none_iff s).mpr ⟨hops, htree ▸ nofun, hcap⟩) ?_
    rw [entDecWalk_of_unwritten htree hwf hcodes hlen hx hn hfail]
  case hostRead =>
    intro s a w k hidle hw halign hin hk hwritten hn
    rw [hostAccess_mrTxn hw halign hin]
    exact memAccess_read_of_unwritten rfl hidle (Memory.readBytes_error_iff.mpr ⟨k, hk, rfl, hwritten, hn⟩)

end Sys2Proof.Machine
end
